-- ==== Sys2Proof/Word.lean ====
section
/-! DEFINITION. The bit-vector types of the block's buses and storage, named as the spec names them.

Only what the spec treats as bits is a bit vector: command words, values, storage words, flags and responses.
Indexes, lengths and counts are natural numbers, on which the spec's arithmetic is exact (00_scope.md R13). -/
namespace Sys2Proof

/-- A storage word, and the 64-bit response value `rsp_a` (R12).
A storage word of WORD_BITS = 32 is held in the low half, its upper half zero (assumption 4; DEDUCED, safe). -/
abbrev Word := BitVec 64

/-- An element value or operand B: `VAL_BITS = 32` bits (R12). -/
abbrev Val := BitVec 32

/-- `cmd_word`, 32 bits (R12, R61). -/
abbrev CmdWord := BitVec 32

/-- The `WF` field and `W_REG`, 5 bits (R61, R22). -/
abbrev Width := BitVec 5

/-- `ERR_FLAGS`, 16 bits (R28). -/
abbrev ErrFlags := BitVec 16

end Sys2Proof
end

