-- ==== Sys2Proof/Config.lean ====
section
/-! DEFINITION. What a build of the block fixes (the implementation parameters of 00_scope.md R6 to R10) and the
free value of the spec's `draw(N)` (R14).

The parameters are plain data and stand in State, so that a statement about every state is a statement about every
build the spec admits (assumption 1; DESIGN CHOICE, safe). -/
namespace Sys2Proof

/-- The legal values of `WORD_BITS`: 32 and 64, no other (R6). -/
inductive WordSize where
  | w32
  | w64
deriving DecidableEq, Repr

/-- `TRUNC_POLICY` (R10): what a write of a value wider than W bits does. -/
inductive TruncPolicy where
  | silent
  | reject
deriving DecidableEq, Repr

/-- The implementation parameters of one build (R6, R8, R9, R10). -/
structure Params where
  /-- `WORD_BITS` (R6). -/
  wordSize : WordSize
  /-- `IDX_BITS` (R8). -/
  idxBits : Nat
  /-- `MAX_WORDS` (R9), left open by the spec. -/
  maxWords : Nat
  /-- `TRUNC_POLICY` (R10). -/
  truncPolicy : TruncPolicy
deriving DecidableEq, Repr

/-- `WORD_BITS` as a number (R6). -/
def WordSize.bits : WordSize → Nat
  | .w32 => 32
  | .w64 => 64

/-- `WORD_BITS` of a build (R6). -/
def Params.wordBits (p : Params) : Nat := p.wordSize.bits

/-- `CAP_MAX = 2^IDX_BITS − 1` (R8). -/
def Params.capMax (p : Params) : Nat := 2 ^ p.idxBits - 1

/-- The builds the spec admits: `1 ≤ MAX_WORDS` and `MAX_WORDS · WORD_BITS < 2^IDX_BITS` (R9), and an index that
fits the 64-bit response value it is zero-extended to (`zext_64(LENGTH)`, R95; assumption 3; DEDUCED, safe). -/
def Params.wf (p : Params) : Bool :=
  decide (1 ≤ p.maxWords) && decide (p.maxWords * p.wordBits < 2 ^ p.idxBits) && decide (p.idxBits ≤ 64)

/-- The build of `State.reset`: the defaults of R6, R8 and R10, and `MAX_WORDS = 16`, the value of the vectors of
95_test_vectors.md, since R9 leaves it open (assumption 2; DESIGN CHOICE, unsafe for a claim about runs from
`State.reset`). -/
def Params.default : Params :=
  { wordSize := .w32, idxBits := 32, maxWords := 16, truncPolicy := .silent }

/-- The free value behind `draw(N)` (R14): "a free input under no law". It has no body, so no proof can see a value
of it; each draw applies it to a counter that State advances (assumption 6; DESIGN CHOICE, unsafe for a claim that
compares the draws of two states). -/
opaque Config.freeWord : Nat → Word

end Sys2Proof
end

