-- ==== Sys2Proof/Syntax.lean ====
section
/-! DEFINITION. The command set PIC-1: one constructor per row of spec/opcode_table.json (30_encoding.md R64), with
the operands its row reads (R67) and no other; and the command as the port carries it (R60, R61).

Operand A is a natural number: an index, a count or a capacity, at most `CAP_MAX` (WellFormed.lean checks it). -/
namespace Sys2Proof

/-- A command as it stands on the command port: `cmd_word`, `cmd_a`, `cmd_b` (R60). -/
structure Command where
  word : CmdWord
  a : Nat
  b : Val
deriving DecidableEq, Repr

/-- The commands of PIC-1 (R64), each with the operands it reads (R67). -/
inductive Instr where
  | nop
  | new (wf : Width)
  | withCapacity (wf : Width) (a : Nat)
  | newFilled (wf : Width) (a : Nat) (b : Val)
  | drop
  | get (a : Nat)
  | set (a : Nat) (b : Val)
  | len
  | capacity
  | isEmpty
  | width
  | push (b : Val)
  | pop
  | insert (a : Nat) (b : Val)
  | remove (a : Nat)
  | truncate (a : Nat)
  | reserve (a : Nat)
  | clear
  | iterStart
  | iterNext
  | decode (a : Nat)
  | rawLen
  | rawRead (a : Nat)
  | status
deriving DecidableEq, Repr

end Sys2Proof
end

