-- ==== Sys2Proof/WellFormed.lean ====
section
/-! DEFINITION. Which commands can stand on the command port of a build: operand A fits its bus of `IDX_BITS` bits
(00_scope.md R8, R12). WF and operand B fit their fields by type (R61); WF = 0 is well-formed, since it can be
encoded and answers BAD_WIDTH (42_growth.md R113). -/
namespace Sys2Proof

/-- `v` fits the operand bus A of build `p`: `v ≤ CAP_MAX` (R8). -/
def fitsIdx (p : Params) (v : Nat) : Bool := decide (v < 2 ^ p.idxBits)

/-- The command's operands fit the buses of build `p`. -/
def WellFormed (p : Params) : Instr → Bool
  | .nop => true
  | .new _ => true
  | .withCapacity _ a => fitsIdx p a
  | .newFilled _ a _ => fitsIdx p a
  | .drop => true
  | .get a => fitsIdx p a
  | .set a _ => fitsIdx p a
  | .len => true
  | .capacity => true
  | .isEmpty => true
  | .width => true
  | .push _ => true
  | .pop => true
  | .insert a _ => fitsIdx p a
  | .remove a => fitsIdx p a
  | .truncate a => fitsIdx p a
  | .reserve a => fitsIdx p a
  | .clear => true
  | .iterStart => true
  | .iterNext => true
  | .decode a => fitsIdx p a
  | .rawLen => true
  | .rawRead a => fitsIdx p a
  | .status => true

end Sys2Proof
end

