-- ==== Sys2Proof/Decode.lean ====
section
/-! DEFINITION. The command decoder and encoder, from 30_encoding.md R61 and R64 to R67.

`decode` is total on any command: a reserved opcode (R66) or a nonzero reserved field (R65) is no instruction, and
the block answers ILLEGAL_COMMAND for it (Machine/Ops.lean). The table of R64 with its masks stands here as data too,
so that the decoder can be held against it. -/
namespace Sys2Proof

/-! ## Fields of the command word (R61) -/

/-- `OP = cmd_word[7:0]`. -/
def opField (w : CmdWord) : Nat := (w.extractLsb' 0 8).toNat

/-- `WF = cmd_word[12:8]`. -/
def wfField (w : CmdWord) : Width := w.extractLsb' 8 5

/-- The two formats of R64: "C", with a WF field, and "P", without. -/
inductive Format where
  | C
  | P
deriving DecidableEq, Repr

/-- The format of an opcode: the three constructors of R64 have format C. -/
def formatOf (op : Nat) : Format :=
  if op = 0x01 ∨ op = 0x02 ∨ op = 0x03 then .C else .P

/-- The reserved bits are zero: bits 31:13 for format C, bits 31:8 for format P (R65). -/
def reservedZero (w : CmdWord) : Bool :=
  match formatOf (opField w) with
  | .C => decide (w.extractLsb' 13 19 = 0)
  | .P => decide (w.extractLsb' 8 24 = 0)

/-- The opcode map (R64) with the operands of R67; `none` for the reserved opcodes of R66. -/
def decodeOp (c : Command) : Option Instr :=
  match opField c.word with
  | 0x00 => some .nop
  | 0x01 => some (.new (wfField c.word))
  | 0x02 => some (.withCapacity (wfField c.word) c.a)
  | 0x03 => some (.newFilled (wfField c.word) c.a c.b)
  | 0x04 => some .drop
  | 0x10 => some (.get c.a)
  | 0x11 => some (.set c.a c.b)
  | 0x12 => some .len
  | 0x13 => some .capacity
  | 0x14 => some .isEmpty
  | 0x15 => some .width
  | 0x20 => some (.push c.b)
  | 0x21 => some .pop
  | 0x22 => some (.insert c.a c.b)
  | 0x23 => some (.remove c.a)
  | 0x24 => some (.truncate c.a)
  | 0x25 => some (.reserve c.a)
  | 0x26 => some .clear
  | 0x30 => some .iterStart
  | 0x31 => some .iterNext
  | 0x40 => some (.decode c.a)
  | 0x41 => some .rawLen
  | 0x42 => some (.rawRead c.a)
  | 0x50 => some .status
  | _ => none

/-- The command decoder: `none` is an illegal command word (R65, R66, R185). -/
def decode (c : Command) : Option Instr :=
  if reservedZero c.word then decodeOp c else none

/-! ## The encoder (R64) -/

/-- Format C: `cmd_word = {19'b0, WF[4:0], OP[7:0]}` (R64), which is `OP | (W << 8)` (R113). -/
def wordC (op : BitVec 8) (wf : Width) : CmdWord := op.setWidth 32 ||| (wf.setWidth 32 <<< 8)

/-- Format P: `cmd_word = {24'b0, OP[7:0]}` (R64). -/
def wordP (op : BitVec 8) : CmdWord := op.setWidth 32

/-- The command that stands for an instruction; an operand bus the command does not read is driven with 0 (it "is
ignored, whatever its value", R61). -/
def encode : Instr → Command
  | .nop => ⟨wordP 0x00, 0, 0⟩
  | .new wf => ⟨wordC 0x01 wf, 0, 0⟩
  | .withCapacity wf a => ⟨wordC 0x02 wf, a, 0⟩
  | .newFilled wf a b => ⟨wordC 0x03 wf, a, b⟩
  | .drop => ⟨wordP 0x04, 0, 0⟩
  | .get a => ⟨wordP 0x10, a, 0⟩
  | .set a b => ⟨wordP 0x11, a, b⟩
  | .len => ⟨wordP 0x12, 0, 0⟩
  | .capacity => ⟨wordP 0x13, 0, 0⟩
  | .isEmpty => ⟨wordP 0x14, 0, 0⟩
  | .width => ⟨wordP 0x15, 0, 0⟩
  | .push b => ⟨wordP 0x20, 0, b⟩
  | .pop => ⟨wordP 0x21, 0, 0⟩
  | .insert a b => ⟨wordP 0x22, a, b⟩
  | .remove a => ⟨wordP 0x23, a, 0⟩
  | .truncate a => ⟨wordP 0x24, a, 0⟩
  | .reserve a => ⟨wordP 0x25, a, 0⟩
  | .clear => ⟨wordP 0x26, 0, 0⟩
  | .iterStart => ⟨wordP 0x30, 0, 0⟩
  | .iterNext => ⟨wordP 0x31, 0, 0⟩
  | .decode a => ⟨wordP 0x40, a, 0⟩
  | .rawLen => ⟨wordP 0x41, 0, 0⟩
  | .rawRead a => ⟨wordP 0x42, a, 0⟩
  | .status => ⟨wordP 0x50, 0, 0⟩

/-! ## The command as one number (assumption 16; DESIGN CHOICE, safe)

The port carries the three signals side by side and no rule numbers their bits together. The model numbers them
`{cmd_b, cmd_a, cmd_word}`: `cmd_word` in bits 31:0, as spec/opcode_table.json numbers it, then the `IDX_BITS` bits of
A, then the 32 bits of B. -/

/-- The signals of the command port as one number. -/
def Command.toBits (p : Params) (c : Command) : Nat :=
  c.word.toNat + 2 ^ 32 * (c.a + 2 ^ p.idxBits * c.b.toNat)

/-- The signals read back from that number. -/
def Command.ofBits (p : Params) (n : Nat) : Command :=
  { word := BitVec.ofNat 32 n
    a := n / 2 ^ 32 % 2 ^ p.idxBits
    b := BitVec.ofNat 32 (n / 2 ^ 32 / 2 ^ p.idxBits) }

/-- The signals that encode an instruction, as one number. -/
def encodeBits (p : Params) (i : Instr) : Nat := (encode i).toBits p

/-- The instruction the signals carry, from that number. -/
def decodeBits (p : Params) (n : Nat) : Option Instr := decode (Command.ofBits p n)

/-- The command of an opcode-table word: `nbits` bits of `w`, every bit above them zero (A and B are 0). -/
def Command.ofTableWord (p : Params) (nbits w : Nat) : Command := Command.ofBits p (w % 2 ^ nbits)

/-- The instruction the decoder reads from a word of spec/opcode_table.json, on the build of `State.reset`. -/
def decodeTableWord (nbits w : Nat) : Option Instr :=
  decode (Command.ofTableWord Params.default nbits w)

/-! ## The opcode table of R64 -/

/-- One row of R64: `match = OP` and the mask of its format. -/
structure OpcodeRow where
  mnemonic : String
  op : CmdWord
  format : Format
deriving DecidableEq, Repr

/-- The mask of a format: `0xFFFFE0FF` for C, `0xFFFFFFFF` for P (R64). -/
def Format.mask : Format → CmdWord
  | .C => 0xFFFFE0FF
  | .P => 0xFFFFFFFF

/-- The 24 rows of R64. -/
def opcodeTable : List OpcodeRow :=
  [⟨"NOP", 0x00, .P⟩, ⟨"NEW", 0x01, .C⟩, ⟨"WITH_CAPACITY", 0x02, .C⟩, ⟨"NEW_FILLED", 0x03, .C⟩, ⟨"DROP", 0x04, .P⟩] ++
  [⟨"GET", 0x10, .P⟩, ⟨"SET", 0x11, .P⟩, ⟨"LEN", 0x12, .P⟩, ⟨"CAPACITY", 0x13, .P⟩, ⟨"IS_EMPTY", 0x14, .P⟩,
   ⟨"WIDTH", 0x15, .P⟩] ++
  [⟨"PUSH", 0x20, .P⟩, ⟨"POP", 0x21, .P⟩, ⟨"INSERT", 0x22, .P⟩, ⟨"REMOVE", 0x23, .P⟩, ⟨"TRUNCATE", 0x24, .P⟩,
   ⟨"RESERVE", 0x25, .P⟩, ⟨"CLEAR", 0x26, .P⟩] ++
  [⟨"ITER_START", 0x30, .P⟩, ⟨"ITER_NEXT", 0x31, .P⟩] ++
  [⟨"DECODE", 0x40, .P⟩, ⟨"RAW_LEN", 0x41, .P⟩, ⟨"RAW_READ", 0x42, .P⟩, ⟨"STATUS", 0x50, .P⟩]

/-- The row selects the word: `(cmd_word & mask) == match` (R64). -/
def OpcodeRow.selects (r : OpcodeRow) (w : CmdWord) : Bool := decide (w &&& r.format.mask = r.op)

/-- The mnemonic of an instruction, as R64 names it. -/
def Instr.mnemonic : Instr → String
  | .nop => "NOP"
  | .new _ => "NEW"
  | .withCapacity _ _ => "WITH_CAPACITY"
  | .newFilled _ _ _ => "NEW_FILLED"
  | .drop => "DROP"
  | .get _ => "GET"
  | .set _ _ => "SET"
  | .len => "LEN"
  | .capacity => "CAPACITY"
  | .isEmpty => "IS_EMPTY"
  | .width => "WIDTH"
  | .push _ => "PUSH"
  | .pop => "POP"
  | .insert _ _ => "INSERT"
  | .remove _ => "REMOVE"
  | .truncate _ => "TRUNCATE"
  | .reserve _ => "RESERVE"
  | .clear => "CLEAR"
  | .iterStart => "ITER_START"
  | .iterNext => "ITER_NEXT"
  | .decode _ => "DECODE"
  | .rawLen => "RAW_LEN"
  | .rawRead _ => "RAW_READ"
  | .status => "STATUS"

end Sys2Proof
end

