-- ==== Sys2Proof/Machine/State.lean ====
section
/-! DEFINITION. The state of the block: every register of 10_state.md, the storage RAM, the port state of R34 and R60
to R63, the build's parameters, and what the model adds (the host's inputs and the draw counter). Plain data
throughout. -/
namespace Sys2Proof.Machine

/-- The storage RAM `S` (R29, R40): pairs of a word index and the word there, indexes strictly rising and no entry
equal to what an unlisted index reads as. The smallest addressable unit is the word: the block has no bytes (R44;
assumption 4; DEDUCED, safe). -/
abbrev Memory := List (Nat × Word)

/-- What an index the list does not name reads as. The spec leaves every word unspecified at reset (R29); a state may
list any content, and only `State.reset` rests on this value (assumption 5; DESIGN CHOICE, unsafe). -/
def Memory.unlisted : Word := 0

/-- The first index of the list, if any, lies above `k`. -/
def Memory.above (k : Nat) : Memory → Bool
  | [] => true
  | (j, _) :: _ => decide (k < j)

/-- The canonical form: indexes strictly rising, no entry that reads as if it were not there. -/
def Memory.wf : Memory → Bool
  | [] => true
  | (k, v) :: m => decide (v ≠ Memory.unlisted) && Memory.above k m && Memory.wf m

/-- Every listed word exists in the RAM of the build, `k < MAX_WORDS` (R29), and is a word of `WORD_BITS` bits (R6). -/
def Memory.fits (p : Params) (m : Memory) : Bool :=
  m.all fun c => decide (c.1 < p.maxWords) && decide (c.2.toNat < 2 ^ p.wordBits)

/-- The response statuses (60_exceptions.md R170); the codes 10 to 15 are never produced and have no constructor. -/
inductive Status where
  | ok
  | indexOutOfRange
  | capacityOverflow
  | allocFailed
  | notConstructed
  | alreadyConstructed
  | badWidth
  | valueTooWide
  | iterInvalidated
  | illegalCommand
deriving DecidableEq, Repr

/-- The response fields `rsp_status`, `rsp_some`, `rsp_a`, `rsp_b` (R62). -/
structure Response where
  status : Status
  some : Bool
  a : Word
  b : BitVec 8
deriving DecidableEq, Repr

/-- A command accepted and not yet answered: the signals captured at acceptance (R60) and, the model's own, how many
more clocks it takes (R199; assumption 11). -/
structure Pending where
  cmd : Command
  wait : Nat
deriving DecidableEq, Repr

/-- A command the host is still to present (R60). `gap` is how many clocks with `cmd_ready = 1` it lets pass first;
`latency` is the free number of clocks, beyond the one R199 demands, the block takes to answer it (assumptions 9 and
11; DESIGN CHOICE, safe). -/
structure Offer where
  cmd : Command
  gap : Nat
  latency : Nat
deriving DecidableEq, Repr

/-- A sample of the input pins `rst` (R190) and `rsp_ready` (R63) at one rising edge of `clk`. -/
structure Pins where
  rst : Bool
  rspReady : Bool
deriving DecidableEq, Repr

/-- The pins where the host drives nothing else: no reset, and ready to take a response (assumption 12; DESIGN CHOICE,
unsafe for a claim about runs whose listed pins are used up). -/
def Pins.idle : Pins := { rst := false, rspReady := true }

/-- The state of the block. -/
structure State where
  /-- The parameters of the build (R6 to R10); no step changes them. -/
  params : Params
  /-- `W_REG` (R22): the width of the live array, 0 when there is none. -/
  wReg : Width
  /-- `LENGTH` (R23); its width is part of the invariant (assumption 10; DEDUCED, safe). -/
  length : Nat
  /-- `WORDS` (R24). -/
  words : Nat
  /-- `ITER_POS` (R26). -/
  iterPos : Nat
  /-- `ITER_VALID` (R27). -/
  iterValid : Bool
  /-- `ERR_FLAGS` (R28). -/
  errFlags : ErrFlags
  /-- The storage RAM `S` (R29). -/
  mem : Memory
  /-- `BUSY` (R34). -/
  busy : Bool
  /-- The response port (R62, R63): `none` is `rsp_valid = 0` (assumption 13; DEDUCED, safe). -/
  rsp : Option Response
  /-- The command in progress (R60), accepted and not yet answered. -/
  pending : Option Pending
  /-- The host: the commands it is still to present, in order (the model's own; assumption 9). -/
  offers : List Offer
  /-- The host: `rst` and `rsp_ready` at the coming edges (the model's own; assumption 9). -/
  pins : List Pins
  /-- How many free values have been drawn (the model's own; assumption 6). -/
  draws : Nat
deriving DecidableEq, Repr

/-- Why a step stops. -/
inductive Fault where
  /-- Raised by every meaning that reads or writes an element, and by RAW_READ, for a storage word the RAM does not
  have (index `k ≥ MAX_WORDS`, R29). Safe: no state that meets the invariant of R30 raises it (assumption 8). -/
  | storageOutOfRange (k : Nat)
deriving DecidableEq, Repr

/-- Why an instruction has no meaning. -/
inductive Refusal where
  /-- Raised by an arm of `exec` whose instruction has no meaning yet: none is left. Safe. -/
  | notModelled (mnemonic : String)
deriving DecidableEq, Repr

/-- The outcome of a step or a meaning. -/
abbrev Result := Host.Outcome State Fault Refusal

/-- The block of build `p` right after reset (R35), with storage content `mem`, which the spec leaves unspecified. -/
def State.resetWith (p : Params) (mem : Memory) : State :=
  { params := p
    wReg := 0
    length := 0
    words := 0
    iterPos := 0
    iterValid := false
    errFlags := 0x0000
    mem := mem
    busy := false
    rsp := none
    pending := none
    offers := []
    pins := []
    draws := 0 }

/-- The machine right after reset (R35): the default build (assumption 2), nothing listed in storage (assumption 5),
no input from the host yet (assumption 9). -/
def State.reset : State := State.resetWith Params.default []

end Sys2Proof.Machine
end

