-- ==== Sys2Proof/Machine/Ops.lean ====
section
/-! DEFINITION. The named operations over storage and registers that the command meanings share: storage words,
the address decoder (40_addressing.md R80), the derived registers (R25, R33), the subword mux (R90, R91), the capacity
manager (R110, R112), and the response (R62, R14, R185).

The block takes no trap (R176): its one way to report an error is `raise`, which stands where a processor's exception
entry would, and there is nothing to return from (R178). -/
namespace Sys2Proof.Machine

/-- `ceil(x / y)` for naturals (00_scope.md R13). -/
def ceilDiv (x y : Nat) : Nat := (x + y - 1) / y

/-! ## Storage words (R29) -/

/-- `S[k]`: the word at index `k`. -/
def Memory.read : Memory → Nat → Word
  | [], _ => Memory.unlisted
  | (j, v) :: m, k => if j = k then v else Memory.read m k

/-- `S[k] <- v`, keeping the canonical form: writing what an unlisted index reads as removes the entry. -/
def Memory.write (m : Memory) (k : Nat) (v : Word) : Memory :=
  match m with
  | [] => if v = Memory.unlisted then [] else [(k, v)]
  | (j, u) :: m' =>
    if j < k then (j, u) :: Memory.write m' k v
    else if j = k then (if v = Memory.unlisted then m' else (k, v) :: m')
    else (if v = Memory.unlisted then (j, u) :: m' else (k, v) :: (j, u) :: m')

/-- The mask of the `WORD_BITS` bits a storage word has (R6). -/
def wordMask (p : Params) : Word :=
  match p.wordSize with
  | .w32 => 0x00000000FFFFFFFF
  | .w64 => 0xFFFFFFFFFFFFFFFF

/-- `draw(WORD_BITS)` (R14): the `n`-th free value, cut to a storage word. -/
def drawWord (p : Params) (n : Nat) : Word := Config.freeWord n &&& wordMask p

/-- Storage of unspecified content: one draw per word, from the `n`-th on (R29, R191; assumption 7), in canonical
form. -/
def Memory.drawn (p : Params) (n : Nat) : Memory :=
  ((List.range p.maxWords).map fun k => (k, drawWord p (n + k))).filter fun c => decide (c.2 ≠ Memory.unlisted)

/-! ## The derived registers -/

/-- W, the width of the live array, as a number (R22). -/
def State.w (s : State) : Nat := s.wReg.toNat

/-- `CAPACITY` (R25), derived on every read. -/
def State.capacity (s : State) : Nat :=
  if s.wReg = 0 then 0 else s.words * s.params.wordBits / s.w

/-- The words that hold at least one bit of `n` elements of width `w`: `ceil(n·w / WORD_BITS)` (R33, R110). -/
def wordsFor (p : Params) (w n : Nat) : Nat := ceilDiv (n * w) p.wordBits

/-- `OCC_WORDS` (R33). -/
def State.occWords (s : State) : Nat := wordsFor s.params s.w s.length

/-! ## The address decoder (R80) -/

/-- What `Decode(i)` returns (R80). -/
structure Location where
  wordIdx : Nat
  bitOff : Nat
  span : Bool
deriving DecidableEq, Repr

/-- `Decode(i)` for elements of width `w` (R80). -/
def locate (p : Params) (w i : Nat) : Location :=
  let bitPos := i * w
  { wordIdx := bitPos / p.wordBits
    bitOff := bitPos % p.wordBits
    span := decide (p.wordBits < bitPos % p.wordBits + w) }

/-- The index of the last storage word element `i` touches (R46): the next one when it spans. -/
def lastWord (p : Params) (w i : Nat) : Nat :=
  (locate p w i).wordIdx + (if (locate p w i).span then 1 else 0)

/-! ## The subword mux (R90, R91) -/

/-- `mask_W = (1 << W) − 1` (R15). -/
def maskW (w : Nat) : Val := (1#32 <<< w) - 1#32

/-- `zext_WB(v)`: a value as a storage word. -/
def zextVal (v : Val) : Word := v.setWidth 64

/-- `ElemRead(i)` (R90). -/
def elemRead (p : Params) (w : Nat) (m : Memory) (i : Nat) : Val :=
  let d := locate p w i
  let value :=
    if d.span then
      ((m.read d.wordIdx >>> d.bitOff) ||| (m.read (d.wordIdx + 1) <<< (p.wordBits - d.bitOff))) &&& zextVal (maskW w)
    else (m.read d.wordIdx >>> d.bitOff) &&& zextVal (maskW w)
  value.setWidth 32

/-- `ElemWrite(i, v)` (R91), as the whole-word read-modify-writes R91 gives. -/
def elemWrite (p : Params) (w : Nat) (m : Memory) (i : Nat) (v : Val) : Memory :=
  let d := locate p w i
  let mask := zextVal (maskW w)
  let low := ((m.read d.wordIdx &&& ~~~(mask <<< d.bitOff)) ||| (zextVal v <<< d.bitOff)) &&& wordMask p
  let m' := m.write d.wordIdx low
  if d.span then
    let lo := p.wordBits - d.bitOff
    m'.write (d.wordIdx + 1) ((m.read (d.wordIdx + 1) &&& ~~~(mask >>> lo)) ||| (zextVal v >>> lo))
  else m'

/-- `ElemRead(i)` of the live array. -/
def State.elem (s : State) (i : Nat) : Val := elemRead s.params s.w s.mem i

/-- `ElemWrite(i, v)` of the live array. -/
def State.writeElem (s : State) (i : Nat) (v : Val) : State :=
  { s with mem := elemWrite s.params s.w s.mem i v }

/-- `for j in 0 .. n − 1: ElemWrite(j, v)` (R115). -/
def fillElems (p : Params) (w : Nat) (m : Memory) (v : Val) : Nat → Memory
  | 0 => m
  | n + 1 => elemWrite p w (fillElems p w m v n) n v

/-- `for j in a .. a + n − 1 (ascending): ElemWrite(j, ElemRead(j + 1))` (R131). -/
def shiftDown (p : Params) (w : Nat) (m : Memory) (a : Nat) : Nat → Memory
  | 0 => m
  | n + 1 =>
    let m' := shiftDown p w m a n
    elemWrite p w m' (a + n) (elemRead p w m' (a + n + 1))

/-- `for j in a + n down to a + 1 (descending): ElemWrite(j, ElemRead(j − 1))` (R132). -/
def shiftUp (p : Params) (w : Nat) (m : Memory) (a : Nat) : Nat → Memory
  | 0 => m
  | n + 1 => shiftUp p w (elemWrite p w m (a + n + 1) (elemRead p w m (a + n))) a n

/-- Go on where the RAM has storage word `k`; an access to a word it does not have stops (assumption 8; safe). -/
def withWord (s : State) (k : Nat) (next : Result) : Result :=
  if k < s.params.maxWords then next else .fault (.storageOutOfRange k)

/-- Go on where the RAM has every word of element `i`, and so of every element below it (R83; assumption 8). -/
def withElem (s : State) (i : Nat) (next : Result) : Result :=
  withWord s (lastWord s.params s.w i) next

/-! ## The capacity manager (R110, R112) -/

/-- `CheckCap(required)` (R112). -/
def checkCap (p : Params) (required : Nat) : Except Status Unit :=
  if p.capMax < required then .error .capacityOverflow else .ok ()

/-- `new_words`, double-or-need clamped to the RAM (R110). -/
def newWords (p : Params) (words need : Nat) : Nat :=
  max need (min (max (2 * words) 1) p.maxWords)

/-- `Grow(required)` (R110): it changes WORDS once and moves no element. -/
def grow (s : State) (required : Nat) : Except Status State :=
  let need := wordsFor s.params s.w required
  if s.params.maxWords < need then .error .allocFailed
  else .ok { s with words := newWords s.params s.words need }

/-- `CheckCap(required)`, then `Grow(required)` (R112: "always evaluated before `Grow`"). -/
def checkedGrow (s : State) (required : Nat) : Except Status State :=
  match checkCap s.params required with
  | .error e => .error e
  | .ok _ => grow s required

/-- Room for one more element: `if LENGTH = CAPACITY` check the capacity and grow (R117, R132). -/
def roomForOne (s : State) : Except Status State :=
  if s.length = s.capacity then checkedGrow s (s.length + 1) else .ok s

/-! ## Responding (R62) -/

/-- The code of a status (R170). -/
def Status.code : Status → BitVec 4
  | .ok => 0
  | .indexOutOfRange => 1
  | .capacityOverflow => 2
  | .allocFailed => 3
  | .notConstructed => 4
  | .alreadyConstructed => 5
  | .badWidth => 6
  | .valueTooWide => 7
  | .iterInvalidated => 8
  | .illegalCommand => 9

/-- `respond(status, some, a, b)` (R62): present the response. -/
def respond (st : Status) (some : Bool) (a : Word) (b : BitVec 8) (s : State) : State :=
  { s with rsp := .some { status := st, some := some, a := a, b := b } }

/-- `respond(OK, 1, v, 0)`: answer with a number, zero-extended to 64 bits. -/
def answer (v : Nat) (s : State) : State := respond .ok true (BitVec.ofNat 64 v) 0 s

/-- `respond(OK, 0, 0, 0)`: answer with no value. -/
def acknowledge (s : State) : State := respond .ok false 0 0 s

end Sys2Proof.Machine
end

