-- ==== Sys2Proof/Machine/Flags.lean ====
section
/-! DEFINITION. The flags: `ERR_FLAGS`, which every failing command updates (60_exceptions.md R172), `ITER_VALID`,
which every mutating-class command clears (44_iteration.md R152), and `raise`, the block's one way to report an
error (00_scope.md R14). -/
namespace Sys2Proof.Machine

/-- The bit of `ERR_FLAGS` a status sets: bit c for code c in 1..9; OK sets none, since bit 0 is hardwired (R28,
R172). -/
def errBit (st : Status) : ErrFlags :=
  match st with
  | .ok => 0
  | .indexOutOfRange | .capacityOverflow | .allocFailed | .notConstructed | .alreadyConstructed
  | .badWidth | .valueTooWide | .iterInvalidated | .illegalCommand => 1#16 <<< st.code.toNat

/-- `ERR_FLAGS[c] <- 1` for the status of a response (R172). -/
def recordErr (st : Status) (s : State) : State := { s with errFlags := s.errFlags ||| errBit st }

/-- `ITER_VALID <- 0`, the first line of every mutating-class command's pseudocode (R152). Acceptance has written it
already (`startCommand`); a meaning says the command's whole effect, whichever state it starts from. -/
def invalidateIter (s : State) : State := { s with iterValid := false }

/-- The mutating-class commands (R152). -/
def mutating : Instr → Bool
  | .new _ | .withCapacity _ _ | .newFilled _ _ _ | .drop | .set _ _ | .push _ | .pop | .insert _ _ | .remove _
  | .truncate _ | .reserve _ | .clear => true
  | .nop | .get _ | .len | .capacity | .isEmpty | .width | .iterStart | .iterNext | .decode _ | .rawLen
  | .rawRead _ | .status => false

/-- Accepting `c` clears ITER_VALID: it is a mutating-class command "with a legal encoding" (R152). An illegal command
word "changes nothing, ITER_VALID included". -/
def clearsCursor (c : Command) : Bool :=
  match decode c with
  | some i => mutating i
  | none => false

/-- The state after `raise E` (R14): status E, no value, and ERR_FLAGS[E] set; nothing else changes. -/
def failWith (e : Status) (s : State) : State := respond e false 0 0 (recordErr e s)

/-- `raise E` (R14). -/
def raise (e : Status) (s : State) : Result := .next (failWith e s)

/-- The answer to an illegal command word (R185): ILLEGAL_COMMAND, and nothing else changes, ITER_VALID included. -/
def illegal (s : State) : Result := raise .illegalCommand s

/-- Go on where a check passes; `raise` its status in `s` where it fails. -/
def orRaise {α : Type} (s : State) (check : Except Status α) (next : α → Result) : Result :=
  match check with
  | .error e => raise e s
  | .ok v => next v

/-- `if W_REG = 0: raise NOT_CONSTRUCTED` (R175). -/
def whenLive (s : State) (next : Result) : Result :=
  if s.wReg = 0 then raise .notConstructed s else next

/-- The two checks every constructor begins with (R113, R114, R115):
`if W_REG ≠ 0: raise ALREADY_CONSTRUCTED`, then `if WF = 0: raise BAD_WIDTH`. -/
def whenConstructible (s : State) (wf : Width) (next : Result) : Result :=
  if s.wReg ≠ 0 then raise .alreadyConstructed s
  else if wf = 0 then raise .badWidth s
  else next

end Sys2Proof.Machine
end

