-- ==== Sys2Proof/Machine/Operands.lean ====
section
/-! DEFINITION. The operand forms of the command port (30_encoding.md R61, R67): operand B conditioned for storage
(41_access.md R92), operand A as an element index checked against LENGTH, and operand A captured from its bus. WF
is used as it is, an unsigned 5-bit integer (R61). -/
namespace Sys2Proof.Machine

/-- `Cond(v)` (R92) for elements of width `w`: fails with VALUE_TOO_WIDE under REJECT when `v > mask_W`, and else
masks the value to its low W bits. -/
def condVal (p : Params) (w : Nat) (v : Val) : Except Status Val :=
  if p.truncPolicy = .reject ∧ maskW w < v then .error .valueTooWide else .ok (v &&& maskW w)

/-- `if A ≥ bound: raise INDEX_OUT_OF_RANGE` (R93, R94, R131, R161). -/
def whenBelow (s : State) (a bound : Nat) (next : Result) : Result :=
  if bound ≤ a then raise .indexOutOfRange s else next

/-- Operand A as the bus of `IDX_BITS` wires carries it (R60, R61; assumption 17; DEDUCED, safe). -/
def busA (p : Params) (a : Nat) : Nat := a % 2 ^ p.idxBits

/-- The signals captured at acceptance (R60). -/
def capture (p : Params) (c : Command) : Command := { c with a := busA p c.a }

end Sys2Proof.Machine
end

