-- ==== Sys2Proof/Machine/Access.lean ====
section
/-! DEFINITION. Element access and the accessors (41_access.md R93 to R98). -/
namespace Sys2Proof.Machine

/-- GET (R93). -/
def execGet (a : Nat) (s : State) : Result :=
  whenLive s <| whenBelow s a s.length <| withElem s a <|
    .next (answer (s.elem a).toNat s)

/-- SET (R94): the index is checked before the value. -/
def execSet (a : Nat) (b : Val) (s : State) : Result :=
  let s := invalidateIter s
  whenLive s <| whenBelow s a s.length <|
    orRaise s (condVal s.params s.w b) fun v =>
      withElem s a <| .next (acknowledge (s.writeElem a v))

/-- LEN (R95). -/
def execLen (s : State) : Result := whenLive s <| .next (answer s.length s)

/-- CAPACITY (R96). -/
def execCapacity (s : State) : Result := whenLive s <| .next (answer s.capacity s)

/-- IS_EMPTY (R98). -/
def execIsEmpty (s : State) : Result :=
  whenLive s <| .next (answer (if s.length = 0 then 1 else 0) s)

/-- WIDTH (R97). -/
def execWidth (s : State) : Result := whenLive s <| .next (answer s.w s)

end Sys2Proof.Machine
end

