-- ==== Sys2Proof/Machine/Growth.lean ====
section
/-! DEFINITION. The growth commands (42_growth.md R117, R118). -/
namespace Sys2Proof.Machine

/-- PUSH (R117): the write at index LENGTH is the internal one, bounded by CAPACITY (90_conflicts.md C2). -/
def execPush (b : Val) (s : State) : Result :=
  let s := invalidateIter s
  whenLive s <|
    orRaise s (condVal s.params s.w b) fun v =>
      orRaise s (roomForOne s) fun g =>
        withElem g g.length <|
          .next (acknowledge { g.writeElem g.length v with length := g.length + 1 })

/-- RESERVE (R118): at most one reallocation, and LENGTH stays. -/
def execReserve (a : Nat) (s : State) : Result :=
  let s := invalidateIter s
  whenLive s <|
    let required := s.length + a
    orRaise s (checkCap s.params required) fun _ =>
      if s.capacity < required then orRaise s (grow s required) fun g => .next (acknowledge g)
      else .next (acknowledge s)

end Sys2Proof.Machine
end

