-- ==== Sys2Proof/Machine/Iterate.lean ====
section
/-! DEFINITION. Iteration (44_iteration.md R150, R151). -/
namespace Sys2Proof.Machine

/-- ITER_START (R150). -/
def execIterStart (s : State) : Result :=
  whenLive s <| .next (acknowledge { s with iterPos := 0, iterValid := true })

/-- ITER_NEXT (R151). -/
def execIterNext (s : State) : Result :=
  whenLive s <|
    if s.iterValid = false then raise .iterInvalidated s
    else if s.length ≤ s.iterPos then .next (acknowledge s)
    else withElem s s.iterPos <|
      .next (answer (s.elem s.iterPos).toNat { s with iterPos := s.iterPos + 1 })

end Sys2Proof.Machine
end

