-- ==== Sys2Proof/Machine/Lifecycle.lean ====
section
/-! DEFINITION. Construction and destruction (42_growth.md R113 to R116). -/
namespace Sys2Proof.Machine

/-- NEW (R113). -/
def execNew (wf : Width) (s : State) : Result :=
  let s := invalidateIter s
  whenConstructible s wf <|
    .next (acknowledge { s with wReg := wf, length := 0, words := 0, iterPos := 0 })

/-- WITH_CAPACITY (R114). -/
def execWithCapacity (wf : Width) (a : Nat) (s : State) : Result :=
  let s := invalidateIter s
  whenConstructible s wf <|
    let need := wordsFor s.params wf.toNat a
    if s.params.maxWords < need then raise .allocFailed s
    else .next (acknowledge { s with wReg := wf, length := 0, words := need, iterPos := 0 })

/-- NEW_FILLED (R115). The words it fills are the `need` words it has checked against MAX_WORDS. -/
def execNewFilled (wf : Width) (a : Nat) (b : Val) (s : State) : Result :=
  let s := invalidateIter s
  whenConstructible s wf <|
    orRaise s (condVal s.params wf.toNat b) fun v =>
      let need := wordsFor s.params wf.toNat a
      if s.params.maxWords < need then raise .allocFailed s
      else .next (acknowledge { s with
        wReg := wf, length := a, words := need, iterPos := 0
        mem := fillElems s.params wf.toNat s.mem v a })

/-- DROP (R116): ERR_FLAGS and the storage content stay (assumption 14; DEDUCED, unsafe for claims on undefined
bits). -/
def execDrop (s : State) : Result :=
  let s := invalidateIter s
  whenLive s <|
    .next (acknowledge { s with wReg := 0, length := 0, words := 0, iterPos := 0 })

end Sys2Proof.Machine
end

