-- ==== Sys2Proof/Machine/RawSystem.lean ====
section
/-! DEFINITION. The decoder diagnostic (40_addressing.md R84), raw word export and the system commands
(45_raw_and_system.md R160 to R163). -/
namespace Sys2Proof.Machine

/-- `{1'b0, span, zext_6(bit_off)}` (R84). -/
def locationByte (d : Location) : BitVec 8 :=
  (0#1 ++ BitVec.ofBool d.span) ++ BitVec.ofNat 6 d.bitOff

/-- DECODE (R84): no bounds check. -/
def execDecode (a : Nat) (s : State) : Result :=
  whenLive s <|
    let d := locate s.params s.w a
    .next (respond .ok true (BitVec.ofNat 64 d.wordIdx) (locationByte d) s)

/-- RAW_LEN (R160). -/
def execRawLen (s : State) : Result := whenLive s <| .next (answer s.occWords s)

/-- `d`, the defined bits of word `a` (R161). -/
def definedBits (s : State) (a : Nat) : Nat :=
  min s.params.wordBits (s.length * s.w - a * s.params.wordBits)

/-- `dm`, the mask of the low `d` bits (R161); all ones when `d` is the whole word. -/
def definedMask (p : Params) (d : Nat) : Word :=
  if d = p.wordBits then wordMask p else (1#64 <<< d) - 1#64

/-- RAW_READ (R161): the bits above the defined ones are a draw (assumption 6). -/
def execRawRead (a : Nat) (s : State) : Result :=
  whenLive s <| whenBelow s a s.occWords <| withWord s a <|
    let dm := definedMask s.params (definedBits s a)
    .next (respond .ok true
      ((s.mem.read a &&& dm) ||| (drawWord s.params s.draws &&& ~~~dm)) 0
      { s with draws := s.draws + 1 })

/-- STATUS (R162): legal when not live, and ERR_FLAGS is not cleared. -/
def execStatus (s : State) : Result := .next (answer s.errFlags.toNat s)

/-- NOP (R163). -/
def execNop (s : State) : Result := .next (acknowledge s)

end Sys2Proof.Machine
end

