-- ==== Sys2Proof/Machine/Shrink.lean ====
section
/-! DEFINITION. Shrink and shift (43_shrink.md R130 to R134). Storage bits that become undefined keep what the
pseudocode leaves in them (assumption 14; DEDUCED, unsafe for claims on those bits). -/
namespace Sys2Proof.Machine

/-- POP (R130): an empty array is not an error. -/
def execPop (s : State) : Result :=
  let s := invalidateIter s
  whenLive s <|
    if s.length = 0 then .next (acknowledge s)
    else withElem s (s.length - 1) <|
      .next (answer (s.elem (s.length - 1)).toNat { s with length := s.length - 1 })

/-- INSERT (R132): index, value, growth, and only then the shift (90_conflicts.md C3). -/
def execInsert (a : Nat) (b : Val) (s : State) : Result :=
  let s := invalidateIter s
  whenLive s <| whenBelow s a (s.length + 1) <|
    orRaise s (condVal s.params s.w b) fun v =>
      orRaise s (roomForOne s) fun g =>
        withElem g g.length <|
          .next (acknowledge { g with
            mem := elemWrite g.params g.w (shiftUp g.params g.w g.mem a (g.length - a)) a v
            length := g.length + 1 })

/-- REMOVE (R131). -/
def execRemove (a : Nat) (s : State) : Result :=
  let s := invalidateIter s
  whenLive s <| whenBelow s a s.length <| withElem s (s.length - 1) <|
    .next (answer (s.elem a).toNat { s with
      mem := shiftDown s.params s.w s.mem a (s.length - 1 - a)
      length := s.length - 1 })

/-- TRUNCATE (R133): no storage bit is cleared. -/
def execTruncate (a : Nat) (s : State) : Result :=
  let s := invalidateIter s
  whenLive s <|
    .next (acknowledge { s with length := if a < s.length then a else s.length })

/-- CLEAR (R134): WORDS and the storage stay. -/
def execClear (s : State) : Result :=
  let s := invalidateIter s
  whenLive s <| .next (acknowledge { s with length := 0 })

end Sys2Proof.Machine
end

