-- ==== Sys2Proof/Machine/Dispatch.lean ====
section
/-! DEFINITION. One arm per command of PIC-1 (30_encoding.md R64). -/
namespace Sys2Proof.Machine

def exec (i : Instr) (s : State) : Host.Outcome State Fault Refusal :=
  match i with
  | .nop => Sys2Proof.Machine.execNop s
  | .new wf => Sys2Proof.Machine.execNew wf s
  | .withCapacity wf a => Sys2Proof.Machine.execWithCapacity wf a s
  | .newFilled wf a b => Sys2Proof.Machine.execNewFilled wf a b s
  | .drop => Sys2Proof.Machine.execDrop s
  | .get a => Sys2Proof.Machine.execGet a s
  | .set a b => Sys2Proof.Machine.execSet a b s
  | .len => Sys2Proof.Machine.execLen s
  | .capacity => Sys2Proof.Machine.execCapacity s
  | .isEmpty => Sys2Proof.Machine.execIsEmpty s
  | .width => Sys2Proof.Machine.execWidth s
  | .push b => Sys2Proof.Machine.execPush b s
  | .pop => Sys2Proof.Machine.execPop s
  | .insert a b => Sys2Proof.Machine.execInsert a b s
  | .remove a => Sys2Proof.Machine.execRemove a s
  | .truncate a => Sys2Proof.Machine.execTruncate a s
  | .reserve a => Sys2Proof.Machine.execReserve a s
  | .clear => Sys2Proof.Machine.execClear s
  | .iterStart => Sys2Proof.Machine.execIterStart s
  | .iterNext => Sys2Proof.Machine.execIterNext s
  | .decode a => Sys2Proof.Machine.execDecode a s
  | .rawLen => Sys2Proof.Machine.execRawLen s
  | .rawRead a => Sys2Proof.Machine.execRawRead a s
  | .status => Sys2Proof.Machine.execStatus s

end Sys2Proof.Machine
end

