-- ==== Sys2Proof/Machine/Port.lean ====
section
/-! DEFINITION. The command and response ports (30_encoding.md R60, R63) and the reset input (70_reset_and_hazards.md
R190, R191), one rising edge of `clk` at a time. -/
namespace Sys2Proof.Machine

/-- The pins at the coming edge; when the listed ones are used up, `Pins.idle` (assumption 12). -/
def State.nowPins (s : State) : Pins := s.pins.headD Pins.idle

/-- The state with the sample of this edge consumed. -/
def State.dropPins (s : State) : State := { s with pins := s.pins.tail }

/-- The output `cmd_ready`: `NOT BUSY` (R60), and 0 while `rst = 1` (R190). -/
def cmdReady (p : Pins) (s : State) : Bool := !p.rst && !s.busy

/-- The output `rsp_valid` (R62, R63), 0 while `rst = 1` (R190). -/
def rspValid (p : Pins) (s : State) : Bool := !p.rst && s.rsp.isSome

/-- What the block does as it accepts the captured command `c`: BUSY is set (R34), and a mutating-class command with a
legal encoding clears ITER_VALID first, whatever its outcome will be (R27, R152). The free latency of the command counts
from here (R199; assumption 11). -/
def startCommand (c : Command) (latency : Nat) (s : State) : State :=
  { s with busy := true, iterValid := s.iterValid && !clearsCursor c, pending := some ⟨c, latency⟩ }

/-- Acceptance (R60): the signals presented are captured, and the command is in progress. -/
def accept (o : Offer) (rest : List Offer) (s : State) : State :=
  { startCommand (capture s.params o.cmd) o.latency s with offers := rest }

/-- The host's side of a clock with `cmd_ready = 1`: it presents its next command when the gap before it is over, and
the command is accepted at that edge (R60). -/
def hostOffers (s : State) : State :=
  match s.offers with
  | [] => s
  | o :: rest =>
    match o.gap with
    | 0 => accept o rest s
    | g + 1 => { s with offers := { o with gap := g } :: rest }

/-- The response is taken (R63): BUSY clears and `rsp_valid` falls. -/
def takeResponse (s : State) : State := { s with busy := false, rsp := none }

/-- The state after an edge with `rst = 1` (R35, R190): the reset values, whatever was in progress abandoned without a
response (R191), and every storage word unspecified (assumption 7). The host's further inputs stay. -/
def resetEdge (s : State) : State :=
  { State.resetWith s.params (Memory.drawn s.params s.draws) with
    offers := s.offers, pins := s.pins, draws := s.draws + s.params.maxWords }

/-- A command placed where the block runs its next one: accepted, and answered at the very next edge, which brings no
reset (assumption 15). -/
def placeCommand (c : Command) (s : State) : State :=
  { startCommand c 0 s with rsp := none, pins := Pins.idle :: s.pins }

end Sys2Proof.Machine
end

