-- ==== Sys2Proof/Machine/Clock.lean ====
section
/-! DEFINITION. One rising edge of `clk` (30_encoding.md R60, R63; 70_reset_and_hazards.md R190): the machine's step
(assumption 9). -/
namespace Sys2Proof.Machine

/-- Run a captured command: the meaning of the instruction it decodes to, or ILLEGAL_COMMAND, "checked before
anything else, whether or not the block is live" (R185). -/
def runCommand (c : Command) (s : State) : Result :=
  match decode c with
  | some i => exec i s
  | none => illegal s

/-- The block works on the command in progress, which is answered when its latency is over (R199). -/
def work (q : Pending) (s : State) : Result :=
  match q.wait with
  | 0 => runCommand q.cmd { s with pending := none }
  | n + 1 => .next { s with pending := some { q with wait := n } }

/-- One rising edge: reset, which has the last word at its edge (R190, R191; assumption 18; DEDUCED, safe); else a
valid response waits to be taken; else the command in progress goes on; else, with `cmd_ready = 1`, the host may
present a command. -/
def clockEdge (s : State) : Result :=
  let pins := s.nowPins
  let s := s.dropPins
  if pins.rst then .next (resetEdge s)
  else if rspValid pins s then .next (if pins.rspReady then takeResponse s else s)
  else match s.pending with
    | some q => work q s
    | none => .next (if cmdReady pins s then hostOffers s else s)

end Sys2Proof.Machine
end

