-- ==== Sys2Proof/Machine/Step.lean ====
section
/-! DEFINITION. The step of the machine, one rising edge of `clk`, and where it finds its next command. -/
namespace Sys2Proof.Machine

/-- One step: one rising edge of `clk` (assumption 9). -/
def step (s : State) : Host.Outcome State Fault Refusal := clockEdge s

/-- `s` with the command of an opcode-table word placed where the very next step runs it (assumption 15). -/
def State.withFetchWord (s : State) (nbits w : Nat) : State :=
  placeCommand (Command.ofTableWord s.params nbits w) s

end Sys2Proof.Machine
end

