-- ==== Sys2Proof/Safety.lean ====
section
/-! DEFINITION. What a sound state of the block is (10_state.md R30 and the derived facts beside it), and the words
statements about it use: the global bits of R41, the elements of R31, the classes of commands of R175 and R49, and the
three shapes a response has (R62, R14). -/
namespace Sys2Proof.Machine

/-! ## The array as the spec speaks of it -/

/-- Global bit `g` of storage: bit `g mod WORD_BITS` of word `S[g div WORD_BITS]` (R41). -/
def Memory.globalBit (p : Params) (m : Memory) (g : Nat) : Bool :=
  (m.read (g / p.wordBits)).getLsbD (g % p.wordBits)

/-- Global bit `g` of the state's storage (R41). -/
def State.globalBit (s : State) (g : Nat) : Bool := s.mem.globalBit s.params g

/-- The elements `E(0) .. E(LENGTH − 1)` (R31). -/
def State.elems (s : State) : List Val := (List.range s.length).map s.elem

/-- The value operand as it is stored: its low W bits (R92 under SILENT; under REJECT a wider value never is). -/
def lowBits (w : Nat) (v : Val) : Val := BitVec.ofNat 32 (v.toNat % 2 ^ w)

/-- The build accepts `v` for elements of width `w`: under REJECT only a value of at most W bits (R10). -/
abbrev accepts (p : Params) (w : Nat) (v : Val) : Prop := p.truncPolicy = .silent ∨ v.toNat < 2 ^ w

/-! ## The shapes of a response -/

/-- `s` having answered with no value: `respond(OK, 0, 0, 0)`. -/
def acked (s : State) : State := { s with rsp := some ⟨.ok, false, 0, 0⟩ }

/-- `s` having answered with the value `a`: `respond(OK, 1, a, 0)`. -/
def answered (s : State) (a : Word) : State := { s with rsp := some ⟨.ok, true, a, 0⟩ }

/-- `s` having answered with an error: status `e` of code `c`, no value, and bit `c` of ERR_FLAGS set (R14, R172). -/
def failed (s : State) (e : Status) (c : Nat) : State :=
  { s with errFlags := s.errFlags ||| BitVec.ofNat 16 (2 ^ c), rsp := some ⟨e, false, 0, 0⟩ }

/-! ## Encodings as the command rules state them (R64, R65) -/

/-- The words of opcode `op` in format P: `cmd_word = op` decodes to `f A B`, and a nonzero reserved bit is illegal. -/
def EncodedP (op : CmdWord) (f : Nat → Val → Instr) : Prop :=
  ∀ c : Command, c.word &&& 0x000000FF = op →
    decode c = if c.word &&& 0xFFFFFF00 = 0 then some (f c.a c.b) else none

/-- The words of opcode `op` in format C: `cmd_word = op | (W << 8)` decodes to `f W A B`, and a nonzero reserved bit
is illegal. -/
def EncodedC (op : CmdWord) (f : Width → Nat → Val → Instr) : Prop :=
  ∀ c : Command, c.word &&& 0x000000FF = op →
    decode c = if c.word &&& 0xFFFFE000 = 0 then some (f (c.word.extractLsb' 8 5) c.a c.b) else none

/-! ## Sequences of commands and of clocks -/

/-- The commands of a list, one after the other (R52), stopping where one stops. -/
def execAll : List Instr → State → Result
  | [], s => .next s
  | i :: is, s =>
    match exec i s with
    | .next t => execAll is t
    | .fault r => .fault r
    | .refused r => .refused r

/-- `n` clocks, one step each (R190), stopping where one stops. -/
def runFor : Nat → State → Result
  | 0, s => .next s
  | n + 1, s =>
    match step s with
    | .next t => runFor n t
    | .fault r => .fault r
    | .refused r => .refused r

/-! ## Classes of commands -/

/-- The constructors (R175). -/
def isConstructor : Instr → Bool
  | .new _ | .withCapacity _ _ | .newFilled _ _ _ => true
  | .drop | .set _ _ | .push _ | .pop | .insert _ _ | .remove _ | .truncate _ | .reserve _ | .clear
  | .nop | .get _ | .len | .capacity | .isEmpty | .width | .iterStart | .iterNext | .decode _ | .rawLen
  | .rawRead _ | .status => false

/-- The commands legal whether or not an array is live (R175). -/
def always : Instr → Bool
  | .nop | .status => true
  | .new _ | .withCapacity _ _ | .newFilled _ _ _ | .drop | .set _ _ | .push _ | .pop | .insert _ _ | .remove _
  | .truncate _ | .reserve _ | .clear | .get _ | .len | .capacity | .isEmpty | .width | .iterStart | .iterNext
  | .decode _ | .rawLen | .rawRead _ => false

/-- The commands that only read (R49), and ask nothing of the iterator. -/
def readOnly : Instr → Bool
  | .get _ | .len | .capacity | .isEmpty | .width | .decode _ | .rawLen | .rawRead _ | .status => true
  | .nop | .new _ | .withCapacity _ _ | .newFilled _ _ _ | .drop | .set _ _ | .push _ | .pop | .insert _ _
  | .remove _ | .truncate _ | .reserve _ | .clear | .iterStart | .iterNext => false

/-- The state a command's checks leave when it fails: the iterator invalidated if it is mutating-class (R152). -/
def entered (i : Instr) (s : State) : State := { s with iterValid := s.iterValid && !mutating i }

/-- What a command that answers OK does to the list of elements `l` of width `w` (the source's operations, R4). -/
def listEffect (w : Nat) (i : Instr) (l : List Val) : List Val :=
  match i with
  | .new _ | .withCapacity _ _ | .drop | .clear => []
  | .newFilled wf a b => List.replicate a (lowBits wf.toNat b)
  | .set a b => l.set a (lowBits w b)
  | .push b => l ++ [lowBits w b]
  | .pop => l.dropLast
  | .insert a b => l.insertIdx a (lowBits w b)
  | .remove a => l.eraseIdx a
  | .truncate a => l.take a
  | .nop | .get _ | .len | .capacity | .isEmpty | .width | .reserve _ | .iterStart | .iterNext | .decode _ | .rawLen
  | .rawRead _ | .status => l

/-- Two states that differ at most in undefined storage bits: those at or above global bit `LENGTH·W` (R32). -/
def SameDefined (s s' : State) : Prop :=
  s' = { s with mem := s'.mem } ∧ ∀ g, g < s.length * s.w → s'.globalBit g = s.globalBit g

/-! ## Sound states -/

/-- The invariants of the array, its cursor and its flags. -/
structure ArrayInv (s : State) : Prop where
  /-- The build is one the spec admits (R6, R8, R9). -/
  params : s.params.wf = true
  /-- Storage keeps its canonical form. -/
  memWf : s.mem.wf = true
  /-- Storage lies in the RAM, in words of WORD_BITS bits (R29). -/
  memFits : s.mem.fits s.params = true
  /-- R30(a): `LENGTH ≤ CAPACITY`. -/
  lengthLe : s.length ≤ s.capacity
  /-- R30(b): nothing is held when not live. -/
  dead : s.wReg = 0 → s.length = 0 ∧ s.words = 0
  /-- R30(c): `WORDS ≤ MAX_WORDS`. -/
  wordsLe : s.words ≤ s.params.maxWords
  /-- The cursor stays in the allocated array (so it fits `IDX_BITS` bits, R26). -/
  iterPosLe : s.iterPos ≤ s.capacity
  /-- R151: "while `ITER_VALID = 1`, `ITER_POS ≤ LENGTH`". -/
  iterLe : s.iterValid = true → s.iterPos ≤ s.length
  /-- R28: bit 0 and bits 10..15 of ERR_FLAGS are hardwired to 0. -/
  errHard : s.errFlags &&& 0xFC01 = 0

/-- R62: a response that is not OK carries no value. -/
def Response.wf (r : Response) : Bool :=
  decide (r.status = .ok) || (!r.some && decide (r.a = 0) && decide (r.b = 0))

/-- The invariants of the ports. -/
structure PortInv (s : State) : Prop where
  /-- R34, R60, R63: BUSY from acceptance until the response is taken. -/
  busyIff : s.busy = (s.pending.isSome || s.rsp.isSome)
  /-- R63: one response for each command: a command in progress has none yet. -/
  onePhase : (s.pending.isSome && s.rsp.isSome) = false
  /-- R62. -/
  rspWf : s.rsp.all Response.wf = true
  /-- R60, R8: the captured operand A has `IDX_BITS` bits. -/
  aFits : s.pending.all (fun q => fitsIdx s.params q.cmd.a) = true
  /-- R27, R152: from its acceptance on, a mutating-class command in progress finds ITER_VALID cleared. -/
  cursorCleared : s.pending.all (fun q => !(clearsCursor q.cmd && s.iterValid)) = true

/-- A sound state of the block. -/
structure Inv (s : State) : Prop where
  array : ArrayInv s
  port : PortInv s

end Sys2Proof.Machine
end

