-- ==== Sys2Proof/Certificates/Slice0/Obligations.lean ====
section
/-! DEFINITION. The statements for the provers, from the numbered rules of spec/. `ArrayInv` and `Inv` (Safety.lean)
are the invariants of R30 and of the facts derived beside it; they are themselves stated to hold at reset and to be
kept by every step. Statements hold for every build (`s.params`), every storage content and every value of the free
values. -/

open Sys2Proof Sys2Proof.Machine

/-! ## Encoding -/

/-- R61, R64, R67: the signals that encode a well-formed command decode to it, with every operand at every value. The
numbering of the signals as one number is the model's (assumption 16). -/
def Obligations.DecodeOfEncodedSignals : Prop :=
  ∀ (p : Params) (i : Instr), WellFormed p i = true → decodeBits p (encodeBits p i) = some i

/-- R64: no two rows of the opcode map select one word, and the decoder reads the row that selects it, or none. -/
def Obligations.OneRowOrNoneSelectsAWord : Prop :=
  (∀ w : CmdWord, opcodeTable.Pairwise fun r r' => ¬ (r.selects w = true ∧ r'.selects w = true)) ∧
  (∀ (c : Command) (r : OpcodeRow), r ∈ opcodeTable → r.selects c.word = true →
    ∃ i, decode c = some i ∧ i.mnemonic = r.mnemonic) ∧
  (∀ c : Command, (∀ r ∈ opcodeTable, r.selects c.word = false) → decode c = none)

/-- R65, R66, R185: a reserved opcode, or a nonzero reserved field, answers ILLEGAL_COMMAND (code 9) live or not, and
changes nothing but ERR_FLAGS[9]. -/
def Obligations.IllegalWordAnswersIllegalCommand : Prop :=
  ∀ (c : Command) (s : State) (op : Nat), op = c.word.toNat % 256 →
    ((0x05 ≤ op ∧ op ≤ 0x0F) ∨ (0x16 ≤ op ∧ op ≤ 0x1F) ∨ (0x27 ≤ op ∧ op ≤ 0x2F) ∨ (0x32 ≤ op ∧ op ≤ 0x3F) ∨
      (0x43 ≤ op ∧ op ≤ 0x4F) ∨ (0x51 ≤ op ∧ op ≤ 0xFF) ∨
      ((op = 0x01 ∨ op = 0x02 ∨ op = 0x03) ∧ c.word.toNat / 2 ^ 13 ≠ 0) ∨
      (¬ (op = 0x01 ∨ op = 0x02 ∨ op = 0x03) ∧ c.word.toNat / 2 ^ 8 ≠ 0)) →
    runCommand c s = .next { s with
      errFlags := s.errFlags ||| 0x0200, rsp := some ⟨.illegalCommand, false, 0, 0⟩ }

/-- Words written in the command rules decode to the command they stand for (a sanity statement). -/
def Obligations.WordsOfTheSpecDecode : Prop :=
  decode ⟨0x00000501, 0, 0⟩ = some (.new 5) ∧ decode ⟨0x00001F01, 0, 0⟩ = some (.new 31) ∧
  decode ⟨0x00000703, 9, 0x7F⟩ = some (.newFilled 7 9 0x7F) ∧ decode ⟨0x00000010, 2, 0⟩ = some (.get 2) ∧
  decode ⟨0x00000020, 0, 31⟩ = some (.push 31) ∧ decode ⟨0x00000023, 1, 0⟩ = some (.remove 1) ∧
  decode ⟨0x00000031, 0, 0⟩ = some .iterNext ∧ decode ⟨0x00000042, 1, 0⟩ = some (.rawRead 1) ∧
  decode ⟨0x00000110, 0, 0⟩ = none ∧ decode ⟨0x00000099, 0, 0⟩ = none ∧ decode ⟨0x00002001, 0, 0⟩ = none

/-! ## The step, the ports and reset -/

/-- At an edge without reset, with no response waiting, a captured command whose latency is over runs: the step is
`exec` of the command it decodes to, at the state with this edge's pins and the captured command consumed; a command
that decodes to none answers ILLEGAL_COMMAND there (R185). That all this falls on one edge, the one where the counter
`wait` of the command in progress is 0, is the model's choice (assumption 11), as are the pins as a list in the state
(assumption 9), with `rst = 0` where it is empty (assumption 12). -/
def Obligations.StepRunsDecodedCommand : Prop :=
  ∀ (s : State) (c : Command), (s.pins.headD ⟨false, true⟩).rst = false → s.rsp = none →
    s.pending = some ⟨c, 0⟩ →
    (∀ i : Instr, decode c = some i → step s = exec i { s with pins := s.pins.tail, pending := none }) ∧
    (decode c = none → step s = .next { s with
      pins := s.pins.tail, pending := none
      errFlags := s.errFlags ||| 0x0200, rsp := some ⟨.illegalCommand, false, 0, 0⟩ })

/-- A word placed by `withFetchWord` is what the very next step runs (the model's own interface, assumption 15). A
mutating-class command finds ITER_VALID cleared (R152), which its own meaning would do. -/
def Obligations.PlacedWordRunsNext : Prop :=
  ∀ (s : State) (nbits w : Nat) (i : Instr), decode (Command.ofTableWord s.params nbits w) = some i →
    step (s.withFetchWord nbits w) = exec i { s with busy := true, rsp := none, pending := none }

/-- R60, R63: with `cmd_ready = 1` a presented command is accepted, its signals captured, BUSY set, and ITER_VALID
cleared if it is a mutating-class command with a legal encoding (R27, R152); a response is taken when `rsp_ready = 1`,
which clears BUSY and `rsp_valid`, and is held when it is 0. The model's choices: the host's commands and pins as lists in
the state (assumption 9); an empty list of pins as `rst = 0` and `rsp_ready = 1` (assumption 12); A cut to `IDX_BITS` bits
(assumption 17, an inference); and that acceptance changes nothing else, every further effect of the command falling on
the edge that answers it (assumption 11). -/
def Obligations.HandshakeAcceptsAndTakes : Prop :=
  (∀ (s : State) (o : Offer) (rest : List Offer), (s.pins.headD ⟨false, true⟩).rst = false → s.busy = false →
    s.rsp = none → s.pending = none → s.offers = o :: rest → o.gap = 0 →
    step s = .next { s with
      pins := s.pins.tail, busy := true, offers := rest
      iterValid := s.iterValid && !clearsCursor ⟨o.cmd.word, o.cmd.a % 2 ^ s.params.idxBits, o.cmd.b⟩
      pending := some ⟨⟨o.cmd.word, o.cmd.a % 2 ^ s.params.idxBits, o.cmd.b⟩, o.latency⟩ }) ∧
  (∀ (s : State) (r : Response), s.pins.headD ⟨false, true⟩ = ⟨false, true⟩ → s.rsp = some r →
    step s = .next { s with pins := s.pins.tail, busy := false, rsp := none }) ∧
  (∀ (s : State) (r : Response), s.pins.headD ⟨false, true⟩ = ⟨false, false⟩ → s.rsp = some r →
    step s = .next { s with pins := s.pins.tail })

/-- R60, R193: while BUSY the block accepts nothing: at an edge without reset no offer of the host is consumed. -/
def Obligations.BusyBlockAcceptsNothing : Prop :=
  ∀ s t : State, PortInv s → s.busy = true → (s.pins.headD ⟨false, true⟩).rst = false → step s = .next t →
    t.offers = s.offers ∧ (s.rsp = none → t.busy = true)

/-- R35, R190, R191: an edge with `rst = 1` leaves every register at its reset value, in a build unchanged, whatever
was in progress; no command in progress and no response remain; `cmd_ready` and `rsp_valid` are 0 meanwhile. Nothing is
said of the storage words but that they are words of the RAM: they are unspecified. -/
def Obligations.ResetEdgeGivesResetValues : Prop :=
  ∀ (s : State) (pins : Pins), s.pins.headD ⟨false, true⟩ = pins → pins.rst = true →
    cmdReady pins s = false ∧ rspValid pins s = false ∧
    ∃ t, step s = .next t ∧ t.params = s.params ∧ t.wReg = 0 ∧ t.length = 0 ∧ t.words = 0 ∧ t.capacity = 0 ∧
      t.occWords = 0 ∧ t.iterPos = 0 ∧ t.iterValid = false ∧ t.errFlags = 0x0000 ∧ t.busy = false ∧ t.rsp = none ∧
      t.pending = none ∧ t.mem.wf = true ∧ t.mem.fits s.params = true

/-- R35: the registers of `State.reset`. The storage content and the build there are the model's choice (assumptions 2
and 5) and not part of the statement. -/
def Obligations.ResetStateHoldsResetValues : Prop :=
  State.reset.wReg = 0 ∧ State.reset.length = 0 ∧ State.reset.words = 0 ∧ State.reset.capacity = 0 ∧
  State.reset.occWords = 0 ∧ State.reset.iterPos = 0 ∧ State.reset.iterValid = false ∧
  State.reset.errFlags = 0x0000 ∧ State.reset.busy = false ∧ State.reset.rsp = none

/-- A command in progress is answered in a bounded number of clocks, if no reset comes (R63, R197). That the number is
one more than its counter `wait` is the model's choice (assumption 11; R199 leaves the latency open), as are the pins as
a list in the state (assumptions 9 and 12). -/
def Obligations.AcceptedCommandIsAnswered : Prop :=
  ∀ (s : State) (c : Command) (n : Nat), Inv s → s.pending = some ⟨c, n⟩ →
    (∀ q ∈ s.pins.take (n + 1), q.rst = false) →
    ∃ t : State, runFor (n + 1) s = .next t ∧ t.rsp.isSome = true ∧ t.pending = none ∧
      t.busy = true ∧ t.offers = s.offers

/-- Whatever its latency (R52, R198, R199), a command accepted by an idle block ends in the state its meaning gives: the
latency changes nothing but the number of clocks. That a command takes exactly `latency + 2` clocks, the last of which
has all its effects but those of acceptance, is the model's choice (assumption 11), as are the host's lists (assumptions
9 and 12); A cut to `IDX_BITS` bits is an inference (assumption 17). -/
def Obligations.LatencyDoesNotChangeTheResult : Prop :=
  ∀ (s : State) (o : Offer) (rest : List Offer), Inv s → s.busy = false → s.offers = o :: rest → o.gap = 0 →
    (∀ q ∈ s.pins.take (o.latency + 2), q.rst = false) →
    runFor (o.latency + 2) s =
      runCommand ⟨o.cmd.word, o.cmd.a % 2 ^ s.params.idxBits, o.cmd.b⟩
        { s with busy := true, offers := rest, pins := s.pins.drop (o.latency + 2) }

/-- Every step keeps the invariant (R30, R28, R34, R62 and the facts derived beside them). -/
def Obligations.StepKeepsInvariant : Prop :=
  ∀ s t : State, Inv s → step s = .next t → Inv t

/-- R48, R197: from a sound state the block never stops: no fault and no refusal, whatever the host does. -/
def Obligations.SoundStepNeverStops : Prop :=
  ∀ s : State, Inv s → ∃ t, step s = .next t

/-- The block of any admitted build is sound right after reset, whatever its storage holds. -/
def Obligations.ResetMeetsInvariant : Prop :=
  Inv State.reset ∧
  ∀ (p : Params) (m : Memory), p.wf = true → m.wf = true → m.fits p = true → Inv (State.resetWith p m)

/-! ## Rules of the whole machine -/

/-- R30, R48: from a sound state every command completes in a sound state, and has presented a response. -/
def Obligations.SoundCommandCompletesSound : Prop :=
  ∀ (i : Instr) (s : State), ArrayInv s → ∃ t, exec i s = .next t ∧ ArrayInv t ∧ t.rsp.isSome = true

/-- R14, R171, R173: a command that answers an error has written nothing: the state is as before but for ERR_FLAGS, the
response, and ITER_VALID cleared if the command is mutating-class. -/
def Obligations.FailedCommandWritesNothing : Prop :=
  ∀ (i : Instr) (s t : State) (r : Response), exec i s = .next t → t.rsp = some r → r.status ≠ .ok →
    t = { s with
      iterValid := s.iterValid && !mutating i
      errFlags := s.errFlags ||| BitVec.ofNat 16 (2 ^ r.status.code.toNat)
      rsp := some ⟨r.status, false, 0, 0⟩ }

/-- R172: a command's response with status c ≠ 0 sets ERR_FLAGS[c] in the same step, and no command clears or sets any
other bit. -/
def Obligations.ErrFlagsRecordTheStatus : Prop :=
  ∀ (i : Instr) (s t : State) (r : Response), exec i s = .next t → t.rsp = some r →
    t.errFlags = s.errFlags ||| (if r.status = .ok then 0 else BitVec.ofNat 16 (2 ^ r.status.code.toNat))

/-- R28: bits 1..9 of ERR_FLAGS are sticky: no edge without reset clears a bit; and bit 0 and bits 10..15 stay 0. -/
def Obligations.OnlyResetClearsErrFlags : Prop :=
  ∀ s t : State, step s = .next t →
    ((s.pins.headD ⟨false, true⟩).rst = false → s.errFlags &&& t.errFlags = s.errFlags) ∧
    (s.errFlags &&& 0xFC01 = 0 → t.errFlags &&& 0xFC01 = 0)

/-- R62 and the frame every command keeps: it answers once, an error or a command but DECODE with `rsp_b = 0`, an
error with no value; and it touches neither the build, BUSY, the command in progress nor the host's inputs. The draw
counter (the model's own, assumption 6) moves in RAW_READ only. -/
def Obligations.EveryCommandAnswersAndKeepsThePorts : Prop :=
  ∀ (i : Instr) (s t : State), exec i s = .next t →
    (∃ r, t.rsp = some r ∧ (r.status ≠ .ok → r.some = false ∧ r.a = 0 ∧ r.b = 0) ∧
      (r.b ≠ 0 → ∃ a, i = .decode a) ∧ (r.some = false → r.a = 0)) ∧
    t.params = s.params ∧ t.busy = s.busy ∧ t.pending = s.pending ∧ t.offers = s.offers ∧ t.pins = s.pins ∧
    ((∀ a, i ≠ .rawRead a) → t.draws = s.draws)

/-- R27, R152: a mutating-class command leaves ITER_VALID = 0 whatever its outcome; ITER_START sets it when it succeeds;
every other legal command, and an illegal command word, leaves it unchanged. The clearing is there at acceptance already:
that edge clears it for a legal mutating-class command and for no other. The host's lists by which a command is presented
are the model's choice (assumptions 9 and 12), A cut to `IDX_BITS` bits an inference (assumption 17). -/
def Obligations.MutatingCommandClearsCursor : Prop :=
  (∀ (i : Instr) (s t : State), exec i s = .next t →
    (mutating i = true → t.iterValid = false) ∧
    (mutating i = false → i ≠ .iterStart → t.iterValid = s.iterValid) ∧
    (i = .iterStart → t.iterValid = if s.wReg = 0 then s.iterValid else true)) ∧
  (∀ (c : Command) (s t : State), decode c = none → runCommand c s = .next t → t.iterValid = s.iterValid) ∧
  (∀ (s : State) (o : Offer) (rest : List Offer) (c : Command), (s.pins.headD ⟨false, true⟩).rst = false →
    s.busy = false → s.rsp = none → s.pending = none → s.offers = o :: rest → o.gap = 0 →
    c = ⟨o.cmd.word, o.cmd.a % 2 ^ s.params.idxBits, o.cmd.b⟩ →
    ∃ t, step s = .next t ∧ t.pending = some ⟨c, o.latency⟩ ∧
      (∀ i, decode c = some i → mutating i = true → t.iterValid = false) ∧
      (∀ i, decode c = some i → mutating i = false → t.iterValid = s.iterValid) ∧
      (decode c = none → t.iterValid = s.iterValid))

/-- R22: W_REG is written only by a constructor, which sets it to its WF, from 0; and by DROP, which sets it to 0. -/
def Obligations.OnlyConstructorsAndDropWriteWidth : Prop :=
  ∀ (i : Instr) (s t : State), exec i s = .next t →
    t.wReg = s.wReg ∨
    (s.wReg = 0 ∧ t.wReg ≠ 0 ∧
      (i = .new t.wReg ∨ (∃ a, i = .withCapacity t.wReg a) ∨ ∃ a b, i = .newFilled t.wReg a b)) ∨
    (i = .drop ∧ t.wReg = 0)

/-- R24, R135: between a constructor and DROP, WORDS and so CAPACITY never decrease; only PUSH, INSERT and RESERVE
change WORDS then, and the storage of a live array is written only by SET, PUSH, INSERT and REMOVE (R29). -/
def Obligations.WordsNeverShrinkWhileLive : Prop :=
  ∀ (i : Instr) (s t : State), ArrayInv s → s.wReg ≠ 0 → i ≠ .drop → exec i s = .next t →
    s.words ≤ t.words ∧ s.capacity ≤ t.capacity ∧
    ((∀ b, i ≠ .push b) → (∀ a b, i ≠ .insert a b) → (∀ a, i ≠ .reserve a) → t.words = s.words) ∧
    ((∀ a b, i ≠ .set a b) → (∀ b, i ≠ .push b) → (∀ a b, i ≠ .insert a b) → (∀ a, i ≠ .remove a) → t.mem = s.mem)

/-- R49: the commands that read change no state but ERR_FLAGS, and that on failure only (the response and the model's
draw counter apart). -/
def Obligations.ReadsHaveNoSideEffect : Prop :=
  ∀ (i : Instr) (s t : State), readOnly i = true → exec i s = .next t →
    t = { s with errFlags := t.errFlags, rsp := t.rsp, draws := t.draws } ∧
    (∀ r, t.rsp = some r → r.status = .ok → t.errFlags = s.errFlags)

/-- R175: when not live every command but NOP, STATUS and the constructors answers NOT_CONSTRUCTED (4); when live the
constructors answer ALREADY_CONSTRUCTED (5); nothing else but the cursor changes then (R152). Every other command is
legal: it answers neither. -/
def Obligations.LifecycleDecidesLegality : Prop :=
  ∀ (i : Instr) (s : State),
    (s.wReg = 0 → always i = false → isConstructor i = false →
      exec i s = .next (failed (entered i s) .notConstructed 4)) ∧
    (s.wReg ≠ 0 → isConstructor i = true → exec i s = .next (failed (entered i s) .alreadyConstructed 5)) ∧
    ((s.wReg = 0 ∧ (always i = true ∨ isConstructor i = true)) ∨ (s.wReg ≠ 0 ∧ isConstructor i = false) →
      ∀ (t : State) (r : Response), exec i s = .next t → t.rsp = some r →
        r.status ≠ .notConstructed ∧ r.status ≠ .alreadyConstructed)

/-! ## The decoder, the mux and the capacity manager -/

/-- R81: an element never spans three words: when it spans, its high part has between 1 and W − 1 bits, and every one
of its bits lies in word `word_idx` or the next. -/
def Obligations.ElementSpansAtMostTwoWords : Prop :=
  ∀ (p : Params) (w i : Nat), 1 ≤ w → w ≤ 31 →
    ((locate p w i).span = true →
      1 ≤ w - (p.wordBits - (locate p w i).bitOff) ∧ w - (p.wordBits - (locate p w i).bitOff) ≤ w - 1) ∧
    ∀ b, b < w → ((i * w + b) / p.wordBits = (locate p w i).wordIdx ∨
      ((locate p w i).span = true ∧ (i * w + b) / p.wordBits = (locate p w i).wordIdx + 1))

/-- R82: no element spans exactly when W divides WORD_BITS. -/
def Obligations.ElementsSpanUnlessWidthDivides : Prop :=
  ∀ (p : Params) (w : Nat), 1 ≤ w → w ≤ 31 →
    (p.wordBits % w = 0 ↔ ∀ i, (locate p w i).span = false)

/-- R83: for every index below CAPACITY the words the decoder names are allocated. -/
def Obligations.ElementsBelowCapacityAreAllocated : Prop :=
  ∀ (s : State) (i : Nat), i < s.capacity →
    (locate s.params s.w i).wordIdx < s.words ∧
    ((locate s.params s.w i).span = true → (locate s.params s.w i).wordIdx + 1 < s.words)

/-- R41, R42, R47, R90, R91: reading element i gives global bits `i·W .. i·W + W − 1`, and writing it changes exactly
those bits of storage, every other bit of every word staying as it was. -/
def Obligations.MuxMovesExactlyTheElementsBits : Prop :=
  ∀ (p : Params) (w : Nat) (m : Memory) (i : Nat) (v : Val), 1 ≤ w → w ≤ 31 → m.wf = true → m.fits p = true →
    (∀ b, (elemRead p w m i).getLsbD b = (decide (b < w) && m.globalBit p (i * w + b))) ∧
    (v.toNat < 2 ^ w → ∀ g, (elemWrite p w m i v).globalBit p g =
      if i * w ≤ g ∧ g < i * w + w then v.getLsbD (g - i * w) else m.globalBit p g)

/-- R99, R100: after a SET the element reads as the value's low W bits, and every other element as before. -/
def Obligations.SetThenGetAndNeighboursKept : Prop :=
  ∀ (s : State) (a : Nat) (b : Val), ArrayInv s → s.wReg ≠ 0 → a < s.length → accepts s.params s.w b →
    ∃ t, exec (.set a b) s = .next t ∧
      (∃ r, exec (.get a) t = .next (answered t r) ∧ r.toNat = b.toNat % 2 ^ s.w) ∧
      ∀ j, j < s.length → j ≠ a →
        ∃ r, exec (.get j) s = .next (answered s r) ∧ exec (.get j) t = .next (answered t r)

/-- R25, R33: CAPACITY is the largest count whose bits fit in the allocated words, `WORDS = ceil(CAPACITY·W /
WORD_BITS)`, it fits the index/size type, and the occupied words are allocated. -/
def Obligations.DerivedSizesAgree : Prop :=
  ∀ s : State, ArrayInv s → s.wReg ≠ 0 →
    (∀ n, n ≤ s.capacity ↔ n * s.w ≤ s.words * s.params.wordBits) ∧
    s.words = (s.capacity * s.w + s.params.wordBits - 1) / s.params.wordBits ∧
    s.capacity < 2 ^ s.params.idxBits ∧ s.occWords ≤ s.words

/-- R110, R111 (a) to (c): Grow fails exactly when the need exceeds the RAM; else it changes WORDS only, to at least the
need and twice the old words where the RAM allows, at most the RAM, never less than before, and makes room. -/
def Obligations.GrowthKeepsItsLaws : Prop :=
  ∀ (s : State) (required need : Nat), ArrayInv s → s.wReg ≠ 0 →
    need = (required * s.w + s.params.wordBits - 1) / s.params.wordBits →
    (s.params.maxWords < need → grow s required = .error .allocFailed) ∧
    (need ≤ s.params.maxWords → ∃ t, grow s required = .ok t ∧ t = { s with words := t.words } ∧ need ≤ t.words ∧
      t.words ≤ s.params.maxWords ∧ s.words ≤ t.words ∧ required ≤ t.capacity ∧
      (2 * s.words ≤ s.params.maxWords → 2 * s.words ≤ t.words))

/-! ## Construction and destruction -/

/-- R113. -/
def Obligations.NewConstructsEmptyArray : Prop :=
  EncodedC 0x01 (fun wf _ _ => .new wf) ∧
  ∀ (s : State) (wf : Width),
    (s.wReg ≠ 0 → exec (.new wf) s = .next (failed { s with iterValid := false } .alreadyConstructed 5)) ∧
    (s.wReg = 0 → wf = 0 → exec (.new wf) s = .next (failed { s with iterValid := false } .badWidth 6)) ∧
    (s.wReg = 0 → wf ≠ 0 → exec (.new wf) s = .next (acked { s with
      iterValid := false, wReg := wf, length := 0, words := 0, iterPos := 0 }))

/-- R114. -/
def Obligations.WithCapacityAllocatesExactNeed : Prop :=
  EncodedC 0x02 (fun wf a _ => .withCapacity wf a) ∧
  ∀ (s : State) (wf : Width) (a need : Nat),
    need = (a * wf.toNat + s.params.wordBits - 1) / s.params.wordBits →
    (s.wReg ≠ 0 → exec (.withCapacity wf a) s = .next (failed { s with iterValid := false } .alreadyConstructed 5)) ∧
    (s.wReg = 0 → wf = 0 → exec (.withCapacity wf a) s = .next (failed { s with iterValid := false } .badWidth 6)) ∧
    (s.wReg = 0 → wf ≠ 0 → s.params.maxWords < need →
      exec (.withCapacity wf a) s = .next (failed { s with iterValid := false } .allocFailed 3)) ∧
    (s.wReg = 0 → wf ≠ 0 → need ≤ s.params.maxWords → ∃ t, exec (.withCapacity wf a) s = .next t ∧
      t = acked { s with iterValid := false, wReg := wf, length := 0, words := need, iterPos := 0 } ∧
      a ≤ t.capacity)

/-- R115: on success every one of the A elements is the value's low W bits. That every global bit from `A·W` on is as
before is an inference from R29 and R47, not R115's, which calls those bits unspecified (assumption 14). -/
def Obligations.NewFilledFillsEveryElement : Prop :=
  EncodedC 0x03 (fun wf a b => .newFilled wf a b) ∧
  ∀ (s : State) (wf : Width) (a : Nat) (b : Val) (need : Nat), ArrayInv s →
    need = (a * wf.toNat + s.params.wordBits - 1) / s.params.wordBits →
    (s.wReg ≠ 0 → exec (.newFilled wf a b) s = .next (failed { s with iterValid := false } .alreadyConstructed 5)) ∧
    (s.wReg = 0 → wf = 0 → exec (.newFilled wf a b) s = .next (failed { s with iterValid := false } .badWidth 6)) ∧
    (s.wReg = 0 → wf ≠ 0 → s.params.truncPolicy = .reject → 2 ^ wf.toNat ≤ b.toNat →
      exec (.newFilled wf a b) s = .next (failed { s with iterValid := false } .valueTooWide 7)) ∧
    (s.wReg = 0 → wf ≠ 0 → accepts s.params wf.toNat b → s.params.maxWords < need →
      exec (.newFilled wf a b) s = .next (failed { s with iterValid := false } .allocFailed 3)) ∧
    (s.wReg = 0 → wf ≠ 0 → accepts s.params wf.toNat b → need ≤ s.params.maxWords →
      ∃ t, exec (.newFilled wf a b) s = .next t ∧
        t = acked { s with
          iterValid := false, wReg := wf, length := a, words := need, iterPos := 0, mem := t.mem } ∧
        (∀ j, j < a → (t.elem j).toNat = b.toNat % 2 ^ wf.toNat) ∧
        (∀ g, a * wf.toNat ≤ g → t.globalBit g = s.globalBit g))

/-- R116: ERR_FLAGS and every storage word stay. -/
def Obligations.DropLeavesNoArray : Prop :=
  EncodedP 0x04 (fun _ _ => .drop) ∧
  ∀ s : State,
    (s.wReg = 0 → exec .drop s = .next (failed { s with iterValid := false } .notConstructed 4)) ∧
    (s.wReg ≠ 0 → exec .drop s = .next (acked { s with
      iterValid := false, wReg := 0, length := 0, words := 0, iterPos := 0 }))

/-! ## Access -/

/-- R93: the value is the element's W global bits. -/
def Obligations.GetReadsElement : Prop :=
  EncodedP 0x10 (fun a _ => .get a) ∧
  ∀ (s : State) (a : Nat), ArrayInv s →
    (s.wReg = 0 → exec (.get a) s = .next (failed s .notConstructed 4)) ∧
    (s.wReg ≠ 0 → s.length ≤ a → exec (.get a) s = .next (failed s .indexOutOfRange 1)) ∧
    (s.wReg ≠ 0 → a < s.length → ∃ r : Word, exec (.get a) s = .next (answered s r) ∧
      ∀ b, r.getLsbD b = (decide (b < s.w) && s.globalBit (a * s.w + b)))

/-- R94: on success exactly global bits `A·W .. A·W + W − 1` are written, with the value's low W bits. -/
def Obligations.SetWritesElementBitsOnly : Prop :=
  EncodedP 0x11 (fun a b => .set a b) ∧
  ∀ (s : State) (a : Nat) (b : Val), ArrayInv s →
    (s.wReg = 0 → exec (.set a b) s = .next (failed { s with iterValid := false } .notConstructed 4)) ∧
    (s.wReg ≠ 0 → s.length ≤ a →
      exec (.set a b) s = .next (failed { s with iterValid := false } .indexOutOfRange 1)) ∧
    (s.wReg ≠ 0 → a < s.length → s.params.truncPolicy = .reject → 2 ^ s.w ≤ b.toNat →
      exec (.set a b) s = .next (failed { s with iterValid := false } .valueTooWide 7)) ∧
    (s.wReg ≠ 0 → a < s.length → accepts s.params s.w b →
      ∃ t, exec (.set a b) s = .next t ∧ t = acked { s with iterValid := false, mem := t.mem } ∧
        ∀ g, t.globalBit g =
          if a * s.w ≤ g ∧ g < a * s.w + s.w then b.getLsbD (g - a * s.w) else s.globalBit g)

/-- R95, R96, R97, R98: LEN, CAPACITY, WIDTH and IS_EMPTY answer LENGTH, `floor(WORDS·WORD_BITS / W)`, W, and whether
LENGTH is 0, each exactly, and change nothing. -/
def Obligations.AccessorsAnswerTheRegisters : Prop :=
  EncodedP 0x12 (fun _ _ => .len) ∧ EncodedP 0x13 (fun _ _ => .capacity) ∧ EncodedP 0x14 (fun _ _ => .isEmpty) ∧
  EncodedP 0x15 (fun _ _ => .width) ∧
  ∀ s : State, ArrayInv s →
    (s.wReg = 0 → exec .len s = .next (failed s .notConstructed 4) ∧
      exec .capacity s = .next (failed s .notConstructed 4) ∧ exec .isEmpty s = .next (failed s .notConstructed 4) ∧
      exec .width s = .next (failed s .notConstructed 4)) ∧
    (s.wReg ≠ 0 →
      (∃ r, exec .len s = .next (answered s r) ∧ r.toNat = s.length) ∧
      (∃ r, exec .capacity s = .next (answered s r) ∧ r.toNat = s.words * s.params.wordBits / s.wReg.toNat) ∧
      (∃ r, exec .isEmpty s = .next (answered s r) ∧ r.toNat = if s.length = 0 then 1 else 0) ∧
      (∃ r, exec .width s = .next (answered s r) ∧ r.toNat = s.wReg.toNat))

/-! ## Growth -/

/-- R117: on success WORDS grows by R110 exactly when the array was full, and exactly global bits `LENGTH·W ..
LENGTH·W + W − 1` are written. CAPACITY_OVERFLOW can not occur in a sound state (R117: unreachable under R9). -/
def Obligations.PushAppendsElement : Prop :=
  EncodedP 0x20 (fun _ b => .push b) ∧
  ∀ (s : State) (b : Val) (need : Nat), ArrayInv s →
    need = ((s.length + 1) * s.w + s.params.wordBits - 1) / s.params.wordBits →
    (s.wReg = 0 → exec (.push b) s = .next (failed { s with iterValid := false } .notConstructed 4)) ∧
    (s.wReg ≠ 0 → s.params.truncPolicy = .reject → 2 ^ s.w ≤ b.toNat →
      exec (.push b) s = .next (failed { s with iterValid := false } .valueTooWide 7)) ∧
    (s.wReg ≠ 0 → accepts s.params s.w b → s.length = s.capacity → s.params.maxWords < need →
      exec (.push b) s = .next (failed { s with iterValid := false } .allocFailed 3)) ∧
    (s.wReg ≠ 0 → accepts s.params s.w b → (s.length ≠ s.capacity ∨ need ≤ s.params.maxWords) →
      ∃ t, exec (.push b) s = .next t ∧
        t = acked { s with
          iterValid := false, length := s.length + 1, mem := t.mem
          words := if s.length = s.capacity then max need (min (max (2 * s.words) 1) s.params.maxWords)
            else s.words } ∧
        t.length ≤ t.capacity ∧
        ∀ g, t.globalBit g = if s.length * s.w ≤ g ∧ g < s.length * s.w + s.w
          then b.getLsbD (g - s.length * s.w) else s.globalBit g)

/-- R118: required = LENGTH + A, exactly; nothing but WORDS (and the cursor) ever changes, and at most once. -/
def Obligations.ReserveEnsuresCapacity : Prop :=
  EncodedP 0x25 (fun a _ => .reserve a) ∧
  ∀ (s : State) (a need : Nat), ArrayInv s →
    need = ((s.length + a) * s.w + s.params.wordBits - 1) / s.params.wordBits →
    (s.wReg = 0 → exec (.reserve a) s = .next (failed { s with iterValid := false } .notConstructed 4)) ∧
    (s.wReg ≠ 0 → 2 ^ s.params.idxBits ≤ s.length + a →
      exec (.reserve a) s = .next (failed { s with iterValid := false } .capacityOverflow 2)) ∧
    (s.wReg ≠ 0 → s.length + a ≤ s.capacity →
      exec (.reserve a) s = .next (acked { s with iterValid := false })) ∧
    (s.wReg ≠ 0 → s.length + a < 2 ^ s.params.idxBits → s.capacity < s.length + a → s.params.maxWords < need →
      exec (.reserve a) s = .next (failed { s with iterValid := false } .allocFailed 3)) ∧
    (s.wReg ≠ 0 → s.capacity < s.length + a → need ≤ s.params.maxWords →
      ∃ t, exec (.reserve a) s = .next t ∧
        t = acked { s with
          iterValid := false, words := max need (min (max (2 * s.words) 1) s.params.maxWords) } ∧
        s.length + a ≤ t.capacity)

/-! ## Shrink and shift -/

/-- R130. -/
def Obligations.PopReturnsLastElement : Prop :=
  EncodedP 0x21 (fun _ _ => .pop) ∧
  ∀ s : State, ArrayInv s →
    (s.wReg = 0 → exec .pop s = .next (failed { s with iterValid := false } .notConstructed 4)) ∧
    (s.wReg ≠ 0 → s.length = 0 → exec .pop s = .next (acked { s with iterValid := false })) ∧
    (s.wReg ≠ 0 → s.length ≠ 0 → ∃ r : Word,
      exec .pop s = .next (answered { s with iterValid := false, length := s.length - 1 } r) ∧
      ∀ b, r.getLsbD b = (decide (b < s.w) && s.globalBit ((s.length - 1) * s.w + b)))

/-- R132: elements below A stay, A holds the value's low W bits, the others move up by one. CAPACITY_OVERFLOW can not
occur in a sound state (R117). That every global bit from `(LENGTH + 1)·W` on stays is an inference from R29 and R47 about
undefined bits (assumption 14), not R132's. -/
def Obligations.InsertShiftsUp : Prop :=
  EncodedP 0x22 (fun a b => .insert a b) ∧
  ∀ (s : State) (a : Nat) (b : Val) (need : Nat), ArrayInv s →
    need = ((s.length + 1) * s.w + s.params.wordBits - 1) / s.params.wordBits →
    (s.wReg = 0 → exec (.insert a b) s = .next (failed { s with iterValid := false } .notConstructed 4)) ∧
    (s.wReg ≠ 0 → s.length < a →
      exec (.insert a b) s = .next (failed { s with iterValid := false } .indexOutOfRange 1)) ∧
    (s.wReg ≠ 0 → a ≤ s.length → s.params.truncPolicy = .reject → 2 ^ s.w ≤ b.toNat →
      exec (.insert a b) s = .next (failed { s with iterValid := false } .valueTooWide 7)) ∧
    (s.wReg ≠ 0 → a ≤ s.length → accepts s.params s.w b → s.length = s.capacity → s.params.maxWords < need →
      exec (.insert a b) s = .next (failed { s with iterValid := false } .allocFailed 3)) ∧
    (s.wReg ≠ 0 → a ≤ s.length → accepts s.params s.w b → (s.length ≠ s.capacity ∨ need ≤ s.params.maxWords) →
      ∃ t, exec (.insert a b) s = .next t ∧
        t = acked { s with
          iterValid := false, length := s.length + 1, mem := t.mem
          words := if s.length = s.capacity then max need (min (max (2 * s.words) 1) s.params.maxWords)
            else s.words } ∧
        (∀ j, j < a → t.elem j = s.elem j) ∧ (t.elem a).toNat = b.toNat % 2 ^ s.w ∧
        (∀ j, a ≤ j → j < s.length → t.elem (j + 1) = s.elem j) ∧
        (∀ g, g < a * s.w ∨ (s.length + 1) * s.w ≤ g → t.globalBit g = s.globalBit g))

/-- R131: element A is returned, elements below it stay, the others move down by one. That every global bit from
`LENGTH·W` on stays is an inference from R29 and R47 about undefined bits (assumption 14), not R131's, which allows a bulk
shift to leave other values there. -/
def Obligations.RemoveShiftsDown : Prop :=
  EncodedP 0x23 (fun a _ => .remove a) ∧
  ∀ (s : State) (a : Nat), ArrayInv s →
    (s.wReg = 0 → exec (.remove a) s = .next (failed { s with iterValid := false } .notConstructed 4)) ∧
    (s.wReg ≠ 0 → s.length ≤ a →
      exec (.remove a) s = .next (failed { s with iterValid := false } .indexOutOfRange 1)) ∧
    (s.wReg ≠ 0 → a < s.length → ∃ (t : State) (r : Word), exec (.remove a) s = .next t ∧
      t = answered { s with iterValid := false, length := s.length - 1, mem := t.mem } r ∧
      (∀ b, r.getLsbD b = (decide (b < s.w) && s.globalBit (a * s.w + b))) ∧
      (∀ j, j < a → t.elem j = s.elem j) ∧ (∀ j, a ≤ j → j + 1 < s.length → t.elem j = s.elem (j + 1)) ∧
      (∀ g, g < a * s.w ∨ s.length * s.w ≤ g → t.globalBit g = s.globalBit g))

/-- R133: no storage bit and no word is given up. -/
def Obligations.TruncateShortens : Prop :=
  EncodedP 0x24 (fun a _ => .truncate a) ∧
  ∀ (s : State) (a : Nat),
    (s.wReg = 0 → exec (.truncate a) s = .next (failed { s with iterValid := false } .notConstructed 4)) ∧
    (s.wReg ≠ 0 → exec (.truncate a) s = .next (acked { s with iterValid := false, length := min a s.length }))

/-- R134: WORDS and every storage word stay. -/
def Obligations.ClearEmptiesArray : Prop :=
  EncodedP 0x26 (fun _ _ => .clear) ∧
  ∀ s : State,
    (s.wReg = 0 → exec .clear s = .next (failed { s with iterValid := false } .notConstructed 4)) ∧
    (s.wReg ≠ 0 → exec .clear s = .next (acked { s with iterValid := false, length := 0 }))

/-! ## Iteration -/

/-- R150. -/
def Obligations.IterStartRestartsCursor : Prop :=
  EncodedP 0x30 (fun _ _ => .iterStart) ∧
  ∀ s : State,
    (s.wReg = 0 → exec .iterStart s = .next (failed s .notConstructed 4)) ∧
    (s.wReg ≠ 0 → exec .iterStart s = .next (acked { s with iterPos := 0, iterValid := true }))

/-- R151. -/
def Obligations.IterNextYieldsOrEnds : Prop :=
  EncodedP 0x31 (fun _ _ => .iterNext) ∧
  ∀ s : State, ArrayInv s →
    (s.wReg = 0 → exec .iterNext s = .next (failed s .notConstructed 4)) ∧
    (s.wReg ≠ 0 → s.iterValid = false → exec .iterNext s = .next (failed s .iterInvalidated 8)) ∧
    (s.wReg ≠ 0 → s.iterValid = true → s.length ≤ s.iterPos → exec .iterNext s = .next (acked s)) ∧
    (s.wReg ≠ 0 → s.iterValid = true → s.iterPos < s.length → ∃ r : Word,
      exec .iterNext s = .next (answered { s with iterPos := s.iterPos + 1 } r) ∧
      ∀ b, r.getLsbD b = (decide (b < s.w) && s.globalBit (s.iterPos * s.w + b)))

/-! ## The decoder diagnostic, raw words, system -/

/-- R80, R84: `rsp_a = floor(i·W / WORD_BITS)` exactly, `rsp_b = {0, span, bit_off}`, for any index that fits operand A,
below LENGTH or not. -/
def Obligations.DecodeReportsPosition : Prop :=
  EncodedP 0x40 (fun a _ => .decode a) ∧
  ∀ (s : State) (a : Nat), s.params.wf = true → a < 2 ^ s.params.idxBits →
    (s.wReg = 0 → exec (.decode a) s = .next (failed s .notConstructed 4)) ∧
    (s.wReg ≠ 0 → ∃ (x : Word) (y : BitVec 8), exec (.decode a) s = .next { s with rsp := some ⟨.ok, true, x, y⟩ } ∧
      x.toNat = a * s.w / s.params.wordBits ∧
      y.toNat = a * s.w % s.params.wordBits +
        (if s.params.wordBits < a * s.w % s.params.wordBits + s.w then 64 else 0))

/-- R160: `ceil(LENGTH·W / WORD_BITS)`, exactly. -/
def Obligations.RawLenCountsOccupiedWords : Prop :=
  EncodedP 0x41 (fun _ _ => .rawLen) ∧
  ∀ s : State, ArrayInv s →
    (s.wReg = 0 → exec .rawLen s = .next (failed s .notConstructed 4)) ∧
    (s.wReg ≠ 0 → ∃ r, exec .rawLen s = .next (answered s r) ∧
      r.toNat = (s.length * s.w + s.params.wordBits - 1) / s.params.wordBits)

/-- R161: the bits of word A below global bit `LENGTH·W` are those of storage, bits at or above WORD_BITS are 0, and of
the bits between nothing is said, for any value of the draw. That the step counts one draw, and changes nothing else, is
the model's choice (assumption 6), not R161's. -/
def Obligations.RawReadReturnsDefinedBits : Prop :=
  EncodedP 0x42 (fun a _ => .rawRead a) ∧
  ∀ (s : State) (a occ : Nat), ArrayInv s →
    occ = (s.length * s.w + s.params.wordBits - 1) / s.params.wordBits →
    (s.wReg = 0 → exec (.rawRead a) s = .next (failed s .notConstructed 4)) ∧
    (s.wReg ≠ 0 → occ ≤ a → exec (.rawRead a) s = .next (failed s .indexOutOfRange 1)) ∧
    (s.wReg ≠ 0 → a < occ → ∃ r : Word,
      exec (.rawRead a) s = .next (answered { s with draws := s.draws + 1 } r) ∧
      ∀ b, (b < s.params.wordBits → a * s.params.wordBits + b < s.length * s.w →
          r.getLsbD b = s.globalBit (a * s.params.wordBits + b)) ∧
        (s.params.wordBits ≤ b → r.getLsbD b = false))

/-- R162, R163: STATUS answers ERR_FLAGS and NOP answers OK, in every state, live or not, and neither changes
anything. -/
def Obligations.StatusAndNopAlwaysAnswer : Prop :=
  EncodedP 0x50 (fun _ _ => .status) ∧ EncodedP 0x00 (fun _ _ => .nop) ∧
  ∀ s : State,
    (∃ r, exec .status s = .next (answered s r) ∧ r.toNat = s.errFlags.toNat) ∧
    exec .nop s = .next (acked s)

/-! ## Laws over several commands -/

/-- R135(a): a successful PUSH followed by POP returns the value's low W bits and restores LENGTH and every element. -/
def Obligations.PushThenPopRestores : Prop :=
  ∀ (s t : State) (b : Val), ArrayInv s → exec (.push b) s = .next t → t.rsp = some ⟨.ok, false, 0, 0⟩ →
    ∃ u r, exec .pop t = .next u ∧ u.rsp = some ⟨.ok, true, r, 0⟩ ∧ r.toNat = b.toNat % 2 ^ s.w ∧
      u.length = s.length ∧ u.elems = s.elems

/-- R135(b): a successful INSERT followed by REMOVE at the same index returns the value's low W bits and leaves every
element as before. -/
def Obligations.InsertThenRemoveRestores : Prop :=
  ∀ (s t : State) (a : Nat) (b : Val), ArrayInv s → exec (.insert a b) s = .next t →
    t.rsp = some ⟨.ok, false, 0, 0⟩ →
    ∃ u r, exec (.remove a) t = .next u ∧ u.rsp = some ⟨.ok, true, r, 0⟩ ∧ r.toNat = b.toNat % 2 ^ s.w ∧
      u.length = s.length ∧ u.elems = s.elems

/-- R69: CLEAR has the effect of TRUNCATE 0, and INSERT LENGTH, v has the effect of PUSH v, in every state. -/
def Obligations.EqualPairsHaveEqualEffects : Prop :=
  (∀ s : State, exec .clear s = exec (.truncate 0) s) ∧
  (∀ (s : State) (b : Val), exec (.insert s.length b) s = exec (.push b) s)

/-- A command that answers OK in a sound state changes the array as the operation on lists it stands for: the packed
array refines a list of values (R4, R31). -/
def Obligations.CommandsActAsListOperations : Prop :=
  ∀ (i : Instr) (s t : State) (r : Response), ArrayInv s → exec i s = .next t → t.rsp = some r → r.status = .ok →
    t.elems = listEffect s.w i s.elems

/-- R153: ITER_START and then ITER_NEXT, k + 1 times, yields element k, for every k below LENGTH; one more reports the
end; and nothing but the cursor and the response has changed. -/
def Obligations.IterationYieldsEveryElement : Prop :=
  ∀ s : State, ArrayInv s → s.wReg ≠ 0 →
    (∀ k, k < s.length → ∃ r : Word,
      execAll (.iterStart :: List.replicate (k + 1) .iterNext) s =
        .next (answered { s with iterPos := k + 1, iterValid := true } r) ∧
      r.toNat = (s.elem k).toNat) ∧
    (∀ k, s.length < k →
      execAll (.iterStart :: List.replicate k .iterNext) s =
        .next (acked { s with iterPos := s.length, iterValid := true }))

/-- R31, R32: no command observes an undefined storage bit: two sound states that differ at most there answer alike,
and still differ at most there. What the model leaves in those bits (assumptions 5 and 14) is thus never seen. That
RAW_READ answers alike in its undefined bits too holds by the model's choice only (assumption 6): its draw is a function of
the model's counter, which the two states share, where R161 lets the hardware return whatever the word holds. -/
def Obligations.UndefinedBitsAreNeverObserved : Prop :=
  ∀ (i : Instr) (s s' t t' : State), ArrayInv s → ArrayInv s' → SameDefined s s' →
    exec i s = .next t → exec i s' = .next t' → t'.rsp = t.rsp ∧ SameDefined t t'
end

