-- ==== Sys2Proof/Laws/Decode.lean ====
section
/-! SUPPORT. The fields of an encoded command word, and the decoder as the two shapes of row R64 has. -/
namespace Sys2Proof

theorem getLsbD_wordC (op : BitVec 8) (wf : Width) (i : Nat) :
    (wordC op wf).getLsbD i = (op.getLsbD i || (decide (8 ≤ i) && wf.getLsbD (i - 8))) := by
  unfold wordC
  simp only [BitVec.getLsbD_or, BitVec.getLsbD_setWidth, BitVec.getLsbD_shiftLeft]
  by_cases h : i < 32
  · by_cases h8 : i < 8
    · simp [h, h8, show ¬ 8 ≤ i by omega]
    · simp [h, h8, show 8 ≤ i by omega, show i - 8 < 32 by omega]
  · simp [h, BitVec.getLsbD_of_ge op i (by omega), BitVec.getLsbD_of_ge wf (i - 8) (by omega)]

theorem getLsbD_wordP (op : BitVec 8) (i : Nat) : (wordP op).getLsbD i = op.getLsbD i := by
  unfold wordP
  rw [BitVec.getLsbD_setWidth]
  by_cases h : i < 32
  · simp [h]
  · simp [h, BitVec.getLsbD_of_ge op i (by omega)]

theorem opField_wordC (op : BitVec 8) (wf : Width) : opField (wordC op wf) = op.toNat := by
  unfold opField
  refine congrArg _ (BitVec.eq_of_getLsbD_eq fun i hi => ?_)
  simp [getLsbD_wordC, hi, show ¬ 8 ≤ i by omega]

theorem wfField_wordC (op : BitVec 8) (wf : Width) : wfField (wordC op wf) = wf := by
  unfold wfField
  refine BitVec.eq_of_getLsbD_eq fun i hi => ?_
  simp [getLsbD_wordC, hi]

theorem reserved_wordC (op : BitVec 8) (wf : Width) : (wordC op wf).extractLsb' 13 19 = 0 := by
  refine BitVec.eq_of_getLsbD_eq fun i hi => ?_
  simp [BitVec.getLsbD_extractLsb', getLsbD_wordC, BitVec.getLsbD_of_ge op (13 + i) (by omega),
    BitVec.getLsbD_of_ge wf (13 + i - 8) (by omega)]

theorem opField_wordP (op : BitVec 8) : opField (wordP op) = op.toNat := by
  unfold opField
  refine congrArg _ (BitVec.eq_of_getLsbD_eq fun i hi => ?_)
  simp [getLsbD_wordP, hi]

theorem reserved_wordP (op : BitVec 8) : (wordP op).extractLsb' 8 24 = 0 := by
  refine BitVec.eq_of_getLsbD_eq fun i hi => ?_
  simp [BitVec.getLsbD_extractLsb', getLsbD_wordP]

/-- A format C word has its reserved bits zero (R65). -/
theorem reservedZero_wordC (op : BitVec 8) (wf : Width) (h : formatOf op.toNat = .C) :
    reservedZero (wordC op wf) = true := by
  unfold reservedZero
  rw [opField_wordC, h]
  exact decide_eq_true (reserved_wordC op wf)

/-- A format P word has its reserved bits zero (R65). -/
theorem reservedZero_wordP (op : BitVec 8) (h : formatOf op.toNat = .P) : reservedZero (wordP op) = true := by
  unfold reservedZero
  rw [opField_wordP, h]
  exact decide_eq_true (reserved_wordP op)

/-- Decoding a format C word. -/
theorem decode_wordC (op : BitVec 8) (wf : Width) (a : Nat) (b : Val) (h : formatOf op.toNat = .C) :
    decode ⟨wordC op wf, a, b⟩ = decodeOp ⟨wordC op wf, a, b⟩ := if_pos (reservedZero_wordC op wf h)

/-- Decoding a format P word. -/
theorem decode_wordP (op : BitVec 8) (a : Nat) (b : Val) (h : formatOf op.toNat = .P) :
    decode ⟨wordP op, a, b⟩ = decodeOp ⟨wordP op, a, b⟩ := if_pos (reservedZero_wordP op h)

/-! ## The fields as arithmetic -/

theorem opField_eq (w : CmdWord) : opField w = w.toNat % 256 := by
  unfold opField
  simp [BitVec.extractLsb'_toNat]

/-- Bits 31:8 are zero (R65, format P). -/
theorem reservedP_iff (w : CmdWord) : w.extractLsb' 8 24 = 0 ↔ w.toNat / 256 = 0 := by
  rw [← BitVec.toNat_inj]
  have := w.isLt
  simp [BitVec.extractLsb'_toNat, Nat.shiftRight_eq_div_pow]
  omega

/-- Bits 31:13 are zero (R65, format C). -/
theorem reservedC_iff (w : CmdWord) : w.extractLsb' 13 19 = 0 ↔ w.toNat / 8192 = 0 := by
  rw [← BitVec.toNat_inj]
  have := w.isLt
  simp [BitVec.extractLsb'_toNat, Nat.shiftRight_eq_div_pow]
  omega

/-- The decoder, its checks as arithmetic on the word. -/
theorem decode_eq (c : Command) : decode c =
    if (if c.word.toNat % 256 = 1 ∨ c.word.toNat % 256 = 2 ∨ c.word.toNat % 256 = 3 then c.word.toNat / 8192 = 0
      else c.word.toNat / 256 = 0) then decodeOp c else none := by
  unfold decode reservedZero formatOf
  rw [opField_eq]
  by_cases h : c.word.toNat % 256 = 1 ∨ c.word.toNat % 256 = 2 ∨ c.word.toNat % 256 = 3
  · simp only [h, if_true, decide_eq_true_eq, reservedC_iff]
  · simp only [h, if_false, decide_eq_true_eq, reservedP_iff]

/-- The opcode mask keeps the low byte. -/
theorem toNat_and_opMask (w : CmdWord) : (w &&& 0x000000FF).toNat = w.toNat % 256 := by
  rw [BitVec.toNat_and]
  show w.toNat &&& (2 ^ 8 - 1) = _
  rw [Nat.and_two_pow_sub_one_eq_mod]

end Sys2Proof
end

