-- ==== Sys2Proof/Laws/Memory.lean ====
section
/-! SUPPORT. The laws of storage: a read after a write, the canonical form, and that equal reads are equal storage. -/
namespace Sys2Proof.Machine

@[simp] theorem Memory.read_nil (k : Nat) : Memory.read [] k = Memory.unlisted := rfl

@[simp] theorem Memory.wf_nil : Memory.wf [] = true := rfl

@[simp] theorem Memory.fits_nil (p : Params) : Memory.fits p [] = true := rfl

theorem Memory.read_cons (j : Nat) (v : Word) (m : Memory) (k : Nat) :
    Memory.read ((j, v) :: m) k = if j = k then v else Memory.read m k := rfl

theorem Memory.wf_cons (k : Nat) (v : Word) (m : Memory) :
    Memory.wf ((k, v) :: m) = true ↔
      v ≠ Memory.unlisted ∧ Memory.above k m = true ∧ Memory.wf m = true := by
  simp [Memory.wf, and_assoc]

theorem Memory.above_cons (k j : Nat) (v : Word) (m : Memory) :
    Memory.above k ((j, v) :: m) = true ↔ k < j := by
  simp [Memory.above]

/-- Below its first index a canonical list holds nothing. -/
theorem Memory.read_of_above {m : Memory} {k i : Nat} (hw : m.wf = true) (ha : m.above k = true) (hi : i ≤ k) :
    m.read i = Memory.unlisted := by
  induction m generalizing k with
  | nil => rfl
  | cons c m ih =>
    obtain ⟨j, v⟩ := c
    rw [Memory.above_cons] at ha
    rw [Memory.wf_cons] at hw
    rw [Memory.read_cons, if_neg (by omega)]
    exact ih hw.2.2 hw.2.1 (by omega)

theorem Memory.above_mono {m : Memory} {j k : Nat} (ha : m.above k = true) (h : j ≤ k) : m.above j = true := by
  cases m with
  | nil => rfl
  | cons c m => obtain ⟨i, v⟩ := c; rw [Memory.above_cons] at *; omega

/-- A read after a write: the written word at its index, every other word as before. -/
theorem Memory.read_write {m : Memory} (hw : m.wf = true) (k : Nat) (v : Word) (i : Nat) :
    (m.write k v).read i = if i = k then v else m.read i := by
  induction m with
  | nil =>
    unfold Memory.write
    split_ifs with h1 h2 h2 <;> simp_all [Memory.read_cons]
    omega
  | cons c m ih =>
    obtain ⟨j, u⟩ := c
    rw [Memory.wf_cons] at hw
    unfold Memory.write
    have ih' := ih hw.2.2
    rcases lt_trichotomy j k with h | h | h
    · rw [if_pos h, Memory.read_cons, Memory.read_cons, ih']
      split_ifs <;> first | rfl | omega
    · subst h
      rw [if_neg (by omega), if_pos rfl]
      by_cases hv : v = Memory.unlisted
      · rw [if_pos hv, Memory.read_cons]
        by_cases hij : i = j
        · rw [if_pos hij, Memory.read_of_above hw.2.2 hw.2.1 (by omega), hv]
        · rw [if_neg hij, if_neg (by omega)]
      · rw [if_neg hv, Memory.read_cons, Memory.read_cons]
        split_ifs <;> first | rfl | omega
    · rw [if_neg (by omega), if_neg (by omega)]
      by_cases hv : v = Memory.unlisted
      · rw [if_pos hv]
        by_cases hik : i = k
        · rw [if_pos hik, hv]
          exact Memory.read_of_above (k := k)
            ((Memory.wf_cons _ _ _).2 hw) ((Memory.above_cons _ _ _ _).2 h) (by omega)
        · rw [if_neg hik]
      · rw [if_neg hv, Memory.read_cons]
        split_ifs <;> first | rfl | omega

theorem Memory.above_write {m : Memory} {j k : Nat} {v : Word} (hm : m.wf = true) (ha : m.above j = true)
    (h : j < k) : (m.write k v).above j = true := by
  cases m with
  | nil => unfold Memory.write; split_ifs <;> simp [Memory.above, h]
  | cons c m =>
    obtain ⟨i, u⟩ := c
    rw [Memory.above_cons] at ha
    rw [Memory.wf_cons] at hm
    unfold Memory.write
    split_ifs
    · simpa [Memory.above] using ha
    · exact Memory.above_mono hm.2.1 (by omega)
    · simpa [Memory.above] using h
    · simpa [Memory.above] using ha
    · simpa [Memory.above] using h

/-- A write keeps the canonical form. -/
theorem Memory.wf_write {m : Memory} (hw : m.wf = true) (k : Nat) (v : Word) : (m.write k v).wf = true := by
  induction m with
  | nil => unfold Memory.write; split_ifs with h <;> simp [Memory.wf, Memory.above, h]
  | cons c m ih =>
    obtain ⟨j, u⟩ := c
    have hw' := hw
    rw [Memory.wf_cons] at hw'
    unfold Memory.write
    split_ifs with h1 h2 h3 h4
    · exact (Memory.wf_cons _ _ _).2 ⟨hw'.1, Memory.above_write hw'.2.2 hw'.2.1 h1, ih hw'.2.2⟩
    · exact hw'.2.2
    · subst h2; exact (Memory.wf_cons _ _ _).2 ⟨h3, hw'.2⟩
    · exact hw
    · exact (Memory.wf_cons _ _ _).2 ⟨h4, (Memory.above_cons _ _ _ _).2 (by omega), hw⟩

theorem Memory.fits_iff (p : Params) (m : Memory) :
    m.fits p = true ↔ ∀ c ∈ m, c.1 < p.maxWords ∧ c.2.toNat < 2 ^ p.wordBits := by
  simp [Memory.fits]

/-- A write of a storage word to a word of the RAM stays in the RAM. -/
theorem Memory.fits_write {p : Params} {m : Memory} (hf : m.fits p = true) {k : Nat} {v : Word}
    (hk : k < p.maxWords) (hv : v.toNat < 2 ^ p.wordBits) : (m.write k v).fits p = true := by
  rw [Memory.fits_iff] at *
  induction m with
  | nil => unfold Memory.write; split_ifs <;> simp_all
  | cons c m ih =>
    obtain ⟨j, u⟩ := c
    simp only [List.mem_cons, forall_eq_or_imp] at hf
    unfold Memory.write
    split_ifs <;> try simp only [List.mem_cons, forall_eq_or_imp]
    · exact ⟨hf.1, ih hf.2⟩
    · exact hf.2
    · exact ⟨⟨hk, hv⟩, hf.2⟩
    · exact hf
    · exact ⟨⟨hk, hv⟩, hf⟩

/-- Every word read is a word of `WORD_BITS` bits. -/
def Memory.Narrow (p : Params) (m : Memory) : Prop := ∀ k, (m.read k).toNat < 2 ^ p.wordBits

/-- Storage that lies in the RAM reads as words of `WORD_BITS` bits. -/
theorem Memory.narrow_of_fits {p : Params} {m : Memory} (hf : m.fits p = true) : m.Narrow p := by
  intro k
  rw [Memory.fits_iff] at hf
  induction m with
  | nil => simp [Memory.unlisted]
  | cons c m ih =>
    obtain ⟨j, u⟩ := c
    simp only [List.mem_cons, forall_eq_or_imp] at hf
    rw [Memory.read_cons]
    split_ifs
    · exact hf.1.2
    · exact ih hf.2

/-- A write of a storage word keeps every word one. -/
theorem Memory.narrow_write {p : Params} {m : Memory} (hm : m.wf = true) (hn : m.Narrow p) {k : Nat} {v : Word}
    (hv : v.toNat < 2 ^ p.wordBits) : (m.write k v).Narrow p := by
  intro i
  rw [Memory.read_write hm]
  split_ifs
  · exact hv
  · exact hn i

/-- Canonical storage with equal words is equal storage. -/
theorem Memory.ext_of_wf {m m' : Memory} (h : m.wf = true) (h' : m'.wf = true)
    (he : ∀ k, m.read k = m'.read k) : m = m' := by
  induction m generalizing m' with
  | nil =>
    cases m' with
    | nil => rfl
    | cons c m' =>
      obtain ⟨j, u⟩ := c
      rw [Memory.wf_cons] at h'
      have := he j
      rw [Memory.read_nil, Memory.read_cons, if_pos rfl] at this
      exact absurd this.symm h'.1
  | cons c m ih =>
    obtain ⟨j, u⟩ := c
    rw [Memory.wf_cons] at h
    cases m' with
    | nil =>
      have := he j
      rw [Memory.read_nil, Memory.read_cons, if_pos rfl] at this
      exact absurd this h.1
    | cons c' m' =>
      obtain ⟨j', u'⟩ := c'
      rw [Memory.wf_cons] at h'
      have e1 := he j
      have e2 := he j'
      simp only [Memory.read_cons, if_true] at e1 e2
      have hj : j = j' := by
        rcases lt_trichotomy j j' with hl | hl | hl
        · rw [if_neg (by omega), Memory.read_of_above h'.2.2 h'.2.1 (by omega)] at e1
          exact absurd e1 h.1
        · exact hl
        · rw [if_neg (by omega), Memory.read_of_above h.2.2 h.2.1 (by omega)] at e2
          exact absurd e2.symm h'.1
      subst hj
      simp only [if_true] at e1
      subst e1
      congr 1
      refine ih h.2.2 h'.2.2 fun k => ?_
      have := he k
      simp only [Memory.read_cons] at this
      by_cases hk : j = k
      · rw [Memory.read_of_above h.2.2 h.2.1 (by omega), Memory.read_of_above h'.2.2 h'.2.1 (by omega)]
      · rwa [if_neg hk, if_neg hk] at this

/-- A list of entries at rising indexes, none of them as an unlisted one, is in canonical form. -/
theorem Memory.wf_of_pairwise {m : Memory} (hs : m.Pairwise fun c d => c.1 < d.1)
    (hv : ∀ c ∈ m, c.2 ≠ Memory.unlisted) : m.wf = true := by
  induction m with
  | nil => rfl
  | cons c m ih =>
    obtain ⟨j, u⟩ := c
    rw [List.pairwise_cons] at hs
    refine (Memory.wf_cons _ _ _).2 ⟨hv (j, u) (by simp), ?_, ih hs.2 fun d hd => hv d (by simp [hd])⟩
    cases m with
    | nil => rfl
    | cons d m => exact (Memory.above_cons _ _ _ _).2 (hs.1 d (by simp))

theorem wordMask_toNat (p : Params) : (wordMask p).toNat = 2 ^ p.wordBits - 1 := by
  obtain ⟨ws, _, _, _⟩ := p
  cases ws <;> rfl

/-- A value cut to a storage word is a storage word. -/
theorem and_wordMask_lt (p : Params) (v : Word) : (v &&& wordMask p).toNat < 2 ^ p.wordBits := by
  rw [BitVec.toNat_and, wordMask_toNat, Nat.and_two_pow_sub_one_eq_mod]
  exact Nat.mod_lt _ (Nat.two_pow_pos _)

/-- Storage of unspecified content is in canonical form (R29). -/
theorem Memory.wf_drawn (p : Params) (n : Nat) : (Memory.drawn p n).wf = true := by
  refine Memory.wf_of_pairwise (List.Pairwise.filter _ ?_) fun c hc => ?_
  · rw [List.pairwise_map]
    exact List.pairwise_lt_range
  · simpa using (List.mem_filter.1 hc).2

/-- Storage of unspecified content lies in the RAM (R29). -/
theorem Memory.fits_drawn (p : Params) (n : Nat) : (Memory.drawn p n).fits p = true := by
  rw [Memory.fits_iff]
  intro c hc
  obtain ⟨k, hk, rfl⟩ := List.mem_map.1 (List.mem_filter.1 hc).1
  exact ⟨List.mem_range.1 hk, and_wordMask_lt p _⟩

end Sys2Proof.Machine
end

