-- ==== Sys2Proof/Laws/Mux.lean ====
section
/-! SUPPORT. The subword mux in the terms of 20_memory.md R41 and R42: what an element read and an element write are,
bit by bit of the storage stream, and from that the laws of elements (41_access.md R99, R100) and of the three loops
over them. -/
namespace Sys2Proof.Machine

variable {p : Params} {w : Nat} {m : Memory}

theorem wordBits_eq (p : Params) : p.wordBits = 32 ∨ p.wordBits = 64 := by
  obtain ⟨ws, _, _, _⟩ := p
  cases ws
  · exact .inl rfl
  · exact .inr rfl

theorem maskW_toNat (hw : w ≤ 31) : (maskW w).toNat = 2 ^ w - 1 := by
  interval_cases w <;> rfl

theorem getLsbD_maskW (hw : w ≤ 31) (b : Nat) : (maskW w).getLsbD b = decide (b < w) := by
  rw [BitVec.getLsbD, maskW_toNat hw, Nat.testBit_two_pow_sub_one]

theorem getLsbD_zextVal (v : Val) (b : Nat) : (zextVal v).getLsbD b = v.getLsbD b := by
  unfold zextVal
  rw [BitVec.getLsbD_setWidth]
  by_cases h : b < 64
  · simp [h]
  · simp [h, BitVec.getLsbD_of_ge v b (by omega)]

theorem getLsbD_wordMask (p : Params) (b : Nat) : (wordMask p).getLsbD b = decide (b < p.wordBits) := by
  rw [BitVec.getLsbD, wordMask_toNat, Nat.testBit_two_pow_sub_one]

/-- A storage word has no bit at or above `WORD_BITS`. -/
theorem Memory.getLsbD_read (hn : m.Narrow p) (k : Nat) {b : Nat} (hb : p.wordBits ≤ b) :
    (m.read k).getLsbD b = false := by
  rw [BitVec.getLsbD]
  exact Nat.testBit_lt_two_pow (lt_of_lt_of_le (hn k) (Nat.pow_le_pow_right (by omega) hb))

/-- A value of at most `w` bits has no bit at or above `w`. -/
theorem getLsbD_of_lt {v : Val} (hv : v.toNat < 2 ^ w) {b : Nat} (hb : w ≤ b) : v.getLsbD b = false := by
  rw [BitVec.getLsbD]
  exact Nat.testBit_lt_two_pow (lt_of_lt_of_le hv (Nat.pow_le_pow_right (by omega) hb))

/-- The global bits of the two halves of an element (R42): where bit `b` of element `i` stands. -/
theorem bit_place (wb bp b : Nat) (hwb : wb = 32 ∨ wb = 64) :
    (bp % wb + b < wb → (bp + b) / wb = bp / wb ∧ (bp + b) % wb = bp % wb + b) ∧
    (wb ≤ bp % wb + b → b < wb → (bp + b) / wb = bp / wb + 1 ∧ (bp + b) % wb = b - (wb - bp % wb)) := by
  rcases hwb with rfl | rfl <;> omega

/-- R90's two cases, by whether the element spans (R80). -/
theorem elemRead_eq (p : Params) (w : Nat) (m : Memory) (i : Nat) :
    elemRead p w m i =
      if p.wordBits < i * w % p.wordBits + w then
        (((m.read (i * w / p.wordBits) >>> (i * w % p.wordBits)) |||
          (m.read (i * w / p.wordBits + 1) <<< (p.wordBits - i * w % p.wordBits))) &&& zextVal (maskW w)).setWidth 32
      else ((m.read (i * w / p.wordBits) >>> (i * w % p.wordBits)) &&& zextVal (maskW w)).setWidth 32 := by
  simp only [elemRead, locate, decide_eq_true_eq]
  split_ifs <;> rfl

/-- R91's two cases, by whether the element spans (R80). -/
theorem elemWrite_eq (p : Params) (w : Nat) (m : Memory) (i : Nat) (v : Val) :
    elemWrite p w m i v =
      if p.wordBits < i * w % p.wordBits + w then
        (m.write (i * w / p.wordBits)
          (((m.read (i * w / p.wordBits) &&& ~~~(zextVal (maskW w) <<< (i * w % p.wordBits))) |||
            (zextVal v <<< (i * w % p.wordBits))) &&& wordMask p)).write (i * w / p.wordBits + 1)
          ((m.read (i * w / p.wordBits + 1) &&& ~~~(zextVal (maskW w) >>> (p.wordBits - i * w % p.wordBits))) |||
            (zextVal v >>> (p.wordBits - i * w % p.wordBits)))
      else m.write (i * w / p.wordBits)
        (((m.read (i * w / p.wordBits) &&& ~~~(zextVal (maskW w) <<< (i * w % p.wordBits))) |||
          (zextVal v <<< (i * w % p.wordBits))) &&& wordMask p) := by
  simp only [elemWrite, locate, decide_eq_true_eq]

/-- R90 in the terms of R41 and R42: bit `b` of the element read is global bit `i·W + b`. -/
theorem getLsbD_elemRead (hw : w ≤ 31) (hn : m.Narrow p) (i b : Nat) :
    (elemRead p w m i).getLsbD b = (decide (b < w) && m.globalBit p (i * w + b)) := by
  have hwb := wordBits_eq p
  obtain ⟨h1, h2⟩ := bit_place p.wordBits (i * w) b hwb
  rw [elemRead_eq]
  unfold Memory.globalBit
  by_cases hb : b < w
  · have hb32 : b < 32 := by omega
    have hb64 : b < 64 := by omega
    by_cases hs : p.wordBits < i * w % p.wordBits + w
    · simp only [hs, if_true, BitVec.getLsbD_setWidth, BitVec.getLsbD_and, BitVec.getLsbD_or,
        BitVec.getLsbD_ushiftRight, BitVec.getLsbD_shiftLeft, getLsbD_zextVal, getLsbD_maskW hw, hb, hb32, hb64]
      by_cases hlo : i * w % p.wordBits + b < p.wordBits
      · rw [(h1 hlo).1, (h1 hlo).2, decide_eq_true (p := b < p.wordBits - i * w % p.wordBits) (by omega)]
        simp
      · have hge : p.wordBits ≤ i * w % p.wordBits + b := by omega
        rw [(h2 hge (by omega)).1, (h2 hge (by omega)).2, Memory.getLsbD_read hn _ hge,
          decide_eq_false (p := b < p.wordBits - i * w % p.wordBits) (by omega)]
        simp
    · have hlo : i * w % p.wordBits + b < p.wordBits := by omega
      simp only [hs, if_false, BitVec.getLsbD_setWidth, BitVec.getLsbD_and,
        BitVec.getLsbD_ushiftRight, getLsbD_zextVal, getLsbD_maskW hw, hb, hb32, decide_true, Bool.true_and,
        Bool.and_true]
      rw [(h1 hlo).1, (h1 hlo).2]
  · simp only [hb, decide_false, Bool.false_and]
    split_ifs <;>
      simp only [BitVec.getLsbD_setWidth, BitVec.getLsbD_and, getLsbD_zextVal, getLsbD_maskW hw, hb, decide_false,
        Bool.and_false]

theorem zextVal_toNat (v : Val) : (zextVal v).toNat = v.toNat := by
  unfold zextVal
  rw [BitVec.toNat_setWidth]
  exact Nat.mod_eq_of_lt (by omega)

/-- A write to an element keeps the canonical form of storage. -/
theorem wf_elemWrite (hm : m.wf = true) (i : Nat) (v : Val) : (elemWrite p w m i v).wf = true := by
  rw [elemWrite_eq]
  split_ifs
  · exact Memory.wf_write (Memory.wf_write hm _ _) _ _
  · exact Memory.wf_write hm _ _

/-- R91 in the terms of R41, R42 and R47: exactly the global bits `i·W .. i·W + W − 1` are written. -/
theorem globalBit_elemWrite (hw : w ≤ 31) (hm : m.wf = true) (i : Nat) {v : Val}
    (hv : v.toNat < 2 ^ w) (g : Nat) :
    (elemWrite p w m i v).globalBit p g =
      if i * w ≤ g ∧ g < i * w + w then v.getLsbD (g - i * w) else m.globalBit p g := by
  have hwb := wordBits_eq p
  have hg : g % p.wordBits < p.wordBits := Nat.mod_lt _ (by omega)
  have hg64 : g % p.wordBits < 64 := by omega
  rw [elemWrite_eq]
  unfold Memory.globalBit
  have hdm := Nat.div_add_mod g p.wordBits
  have hdi := Nat.div_add_mod (i * w) p.wordBits
  have hvz : ∀ b, w ≤ b → v.getLsbD b = false := fun b hb => getLsbD_of_lt hv hb
  generalize hbp : i * w = bp at *
  generalize hoff : bp % p.wordBits = off at *
  generalize hwi : bp / p.wordBits = wi at *
  generalize hgo : g % p.wordBits = go at *
  generalize hgi : g / p.wordBits = gi at *
  have hoffl : off < p.wordBits := by rw [← hoff]; exact Nat.mod_lt _ (by omega)
  have key : ∀ a : Nat, (gi = a → p.wordBits * gi = p.wordBits * a) := fun a h => by rw [h]
  have lin : gi = wi ∨ gi = wi + 1 ∨ (gi < wi ∧ p.wordBits * gi + p.wordBits ≤ p.wordBits * wi) ∨
      (wi + 1 < gi ∧ p.wordBits * wi + 2 * p.wordBits ≤ p.wordBits * gi) := by
    rcases hwb with h | h <;> rw [h] <;> omega
  have lin1 : p.wordBits * (wi + 1) = p.wordBits * wi + p.wordBits := by ring
  by_cases hs : p.wordBits < off + w
  · simp only [hs, if_true]
    rw [Memory.read_write (Memory.wf_write hm _ _), Memory.read_write hm]
    rcases lin with h | h | h | h
    · subst h
      rw [if_neg (by omega), if_pos rfl]
      simp only [BitVec.getLsbD_and, BitVec.getLsbD_or, BitVec.getLsbD_not, BitVec.getLsbD_shiftLeft,
        getLsbD_zextVal, getLsbD_maskW hw, getLsbD_wordMask, hg, hg64, decide_true, Bool.true_and, Bool.and_true]
      by_cases hin : off ≤ go
      · rw [if_pos ⟨by omega, by omega⟩, decide_eq_false (p := go < off) (by omega),
          decide_eq_true (p := go - off < w) (by omega)]
        have : g - bp = go - off := by omega
        simp [this]
      · rw [if_neg (by omega), decide_eq_true (p := go < off) (by omega)]
        simp
    · rw [if_pos h, h]
      have hk := key _ h
      simp only [BitVec.getLsbD_and, BitVec.getLsbD_or, BitVec.getLsbD_not, BitVec.getLsbD_ushiftRight,
        getLsbD_zextVal, getLsbD_maskW hw, hg64, decide_true, Bool.true_and]
      by_cases hin : p.wordBits - off + go < w
      · rw [if_pos ⟨by omega, by omega⟩, decide_eq_true hin]
        have : g - bp = p.wordBits - off + go := by omega
        simp [this]
      · rw [if_neg (by omega), decide_eq_false hin, hvz _ (by omega)]
        simp
    · rw [if_neg (by omega), if_neg (by omega), if_neg (by omega)]
    · rw [if_neg (by omega), if_neg (by omega), if_neg (by omega)]
  · simp only [hs, if_false]
    rw [Memory.read_write hm]
    rcases lin with h | h | h | h
    · subst h
      rw [if_pos rfl]
      simp only [BitVec.getLsbD_and, BitVec.getLsbD_or, BitVec.getLsbD_not, BitVec.getLsbD_shiftLeft,
        getLsbD_zextVal, getLsbD_maskW hw, getLsbD_wordMask, hg, hg64, decide_true, Bool.true_and, Bool.and_true]
      by_cases hin : off ≤ go
      · rw [decide_eq_false (p := go < off) (by omega)]
        by_cases hin2 : go - off < w
        · rw [if_pos ⟨by omega, by omega⟩, decide_eq_true hin2]
          have : g - bp = go - off := by omega
          simp [this]
        · rw [if_neg (by omega), decide_eq_false hin2, hvz _ (by omega)]
          simp
      · rw [if_neg (by omega), decide_eq_true (p := go < off) (by omega)]
        simp
    · have hk := key _ h
      rw [if_neg (by omega), if_neg (by omega)]
    · rw [if_neg (by omega), if_neg (by omega)]
    · rw [if_neg (by omega), if_neg (by omega)]

/-! ## Elements -/

/-- An element read has at most W bits (R90). -/
theorem elemRead_lt (hw : w ≤ 31) (hn : m.Narrow p) (i : Nat) : (elemRead p w m i).toNat < 2 ^ w := by
  refine Nat.lt_pow_two_of_testBit _ fun b hb => ?_
  have := getLsbD_elemRead hw hn i b
  rw [decide_eq_false (by omega), Bool.false_and] at this
  exact this

/-- Elements are equal when the W global bits under them are. -/
theorem elemRead_congr {m' : Memory} (hw : w ≤ 31) (hn : m.Narrow p) (hn' : m'.Narrow p) (i j : Nat)
    (h : ∀ b, b < w → m.globalBit p (i * w + b) = m'.globalBit p (j * w + b)) :
    elemRead p w m i = elemRead p w m' j := by
  refine BitVec.eq_of_getLsbD_eq fun b _ => ?_
  rw [getLsbD_elemRead hw hn, getLsbD_elemRead hw hn']
  by_cases hb : b < w
  · rw [h b hb]
  · simp [hb]

/-- Distinct elements have disjoint global bits (R42). -/
theorem elem_disjoint {i j : Nat} (h : i ≠ j) : i * w + w ≤ j * w ∨ j * w + w ≤ i * w := by
  rcases Nat.lt_or_gt_of_ne h with h | h
  · exact .inl (by have := Nat.mul_le_mul_right w (Nat.succ_le_of_lt h); rw [Nat.succ_mul] at this; exact this)
  · exact .inr (by have := Nat.mul_le_mul_right w (Nat.succ_le_of_lt h); rw [Nat.succ_mul] at this; exact this)

theorem zextVal_shift_lt {v : Val} {lo : Nat} (p : Params) : (zextVal v >>> lo).toNat < 2 ^ p.wordBits := by
  rw [BitVec.toNat_ushiftRight, zextVal_toNat]
  refine lt_of_le_of_lt (Nat.shiftRight_le _ _) (lt_of_lt_of_le v.isLt (Nat.pow_le_pow_right (by omega) ?_))
  rcases wordBits_eq p with h | h <;> omega

/-- The second word of a spanning write stays a storage word. -/
theorem high_word_lt (hn : m.Narrow p) (k : Nat) (x : Word) (v : Val) (lo : Nat) :
    ((m.read k &&& x) ||| (zextVal v >>> lo)).toNat < 2 ^ p.wordBits := by
  rw [BitVec.toNat_or, BitVec.toNat_and]
  exact Nat.or_lt_two_pow (lt_of_le_of_lt Nat.and_le_left (hn k)) (zextVal_shift_lt p)

/-- A write to an element leaves every word a storage word. -/
theorem narrow_elemWrite (hm : m.wf = true) (hn : m.Narrow p) (i : Nat) (v : Val) :
    (elemWrite p w m i v).Narrow p := by
  rw [elemWrite_eq]
  have hlow := fun x : Word => and_wordMask_lt p x
  split_ifs
  · exact Memory.narrow_write (Memory.wf_write hm _ _) (Memory.narrow_write hm hn (hlow _)) (high_word_lt hn _ _ _ _)
  · exact Memory.narrow_write hm hn (hlow _)

theorem lastWord_eq (p : Params) (w i : Nat) :
    lastWord p w i = i * w / p.wordBits + (if p.wordBits < i * w % p.wordBits + w then 1 else 0) := by
  simp [lastWord, locate]

/-- A write to an element whose words exist stays in the RAM. -/
theorem fits_elemWrite (hf : m.fits p = true) {i : Nat} (hi : lastWord p w i < p.maxWords) (v : Val) :
    (elemWrite p w m i v).fits p = true := by
  rw [lastWord_eq] at hi
  rw [elemWrite_eq]
  have hlow := fun x : Word => and_wordMask_lt p x
  split_ifs with h
  · rw [if_pos h] at hi
    exact Memory.fits_write (Memory.fits_write hf (by omega) (hlow _)) hi
      (high_word_lt (Memory.narrow_of_fits hf) _ _ _ _)
  · rw [if_neg h] at hi
    exact Memory.fits_write hf (by omega) (hlow _)

/-- Round trip and neighbour isolation (R99, R100): after a write to element `i` it reads as written, and every other
element as before. -/
theorem elemRead_elemWrite (hw : w ≤ 31) (hm : m.wf = true) (hn : m.Narrow p) (i : Nat) {v : Val}
    (hv : v.toNat < 2 ^ w) (j : Nat) :
    elemRead p w (elemWrite p w m i v) j = if j = i then v else elemRead p w m j := by
  have hn' := narrow_elemWrite (w := w) hm hn i v
  split_ifs with h
  · subst h
    refine BitVec.eq_of_getLsbD_eq fun b _ => ?_
    rw [getLsbD_elemRead hw hn', globalBit_elemWrite hw hm _ hv]
    by_cases hb : b < w
    · rw [if_pos ⟨by omega, by omega⟩]
      simp [hb]
    · simp [hb, getLsbD_of_lt hv (Nat.le_of_not_lt hb)]
  · refine elemRead_congr hw hn' hn j j fun b hb => ?_
    rw [globalBit_elemWrite hw hm _ hv, if_neg]
    rcases elem_disjoint (w := w) h <;> omega

/-! ## The loops of NEW_FILLED, REMOVE and INSERT -/

theorem wf_fillElems (hm : m.wf = true) (v : Val) (n : Nat) : (fillElems p w m v n).wf = true := by
  induction n with
  | zero => exact hm
  | succ n ih => exact wf_elemWrite ih _ _

theorem narrow_fillElems (hm : m.wf = true) (hn : m.Narrow p) (v : Val) (n : Nat) :
    (fillElems p w m v n).Narrow p := by
  induction n with
  | zero => exact hn
  | succ n ih => exact narrow_elemWrite (wf_fillElems hm v n) ih _ _

/-- What the loop of R115 leaves: the first `n` elements are `v`, every other one is as before. -/
theorem elemRead_fillElems (hw : w ≤ 31) (hm : m.wf = true) (hn : m.Narrow p) {v : Val} (hv : v.toNat < 2 ^ w)
    (n j : Nat) : elemRead p w (fillElems p w m v n) j = if j < n then v else elemRead p w m j := by
  induction n with
  | zero => simp [fillElems]
  | succ n ih =>
    rw [fillElems, elemRead_elemWrite hw (wf_fillElems hm v n) (narrow_fillElems hm hn v n) n hv, ih]
    split_ifs <;> first | rfl | omega

theorem wf_shiftDown (hm : m.wf = true) (a n : Nat) : (shiftDown p w m a n).wf = true := by
  induction n with
  | zero => exact hm
  | succ n ih => exact wf_elemWrite ih _ _

theorem narrow_shiftDown (hm : m.wf = true) (hn : m.Narrow p) (a n : Nat) : (shiftDown p w m a n).Narrow p := by
  induction n with
  | zero => exact hn
  | succ n ih => exact narrow_elemWrite (wf_shiftDown hm a n) ih _ _

/-- What the loop of R131 leaves: elements `a .. a + n − 1` are their upper neighbours of before. -/
theorem elemRead_shiftDown (hw : w ≤ 31) (hm : m.wf = true) (hn : m.Narrow p) (a n j : Nat) :
    elemRead p w (shiftDown p w m a n) j =
      if a ≤ j ∧ j < a + n then elemRead p w m (j + 1) else elemRead p w m j := by
  induction n generalizing j with
  | zero => rw [shiftDown, if_neg (by omega)]
  | succ n ih =>
    have hn' := narrow_shiftDown (w := w) hm hn a n
    simp only [shiftDown]
    rw [elemRead_elemWrite hw (wf_shiftDown hm a n) hn' _ (elemRead_lt hw hn' _), ih, ih]
    by_cases hj : j = a + n
    · subst hj
      rw [if_pos rfl, if_neg (by omega), if_pos (by omega)]
    · rw [if_neg hj]
      split_ifs <;> first | rfl | omega

theorem wf_shiftUp (hm : m.wf = true) (a n : Nat) : (shiftUp p w m a n).wf = true := by
  induction n generalizing m with
  | zero => exact hm
  | succ n ih => exact ih (wf_elemWrite hm _ _)

theorem narrow_shiftUp (hm : m.wf = true) (hn : m.Narrow p) (a n : Nat) : (shiftUp p w m a n).Narrow p := by
  induction n generalizing m with
  | zero => exact hn
  | succ n ih => exact ih (wf_elemWrite hm _ _) (narrow_elemWrite hm hn _ _)

/-- What the loop of R132 leaves: elements `a + 1 .. a + n` are their lower neighbours of before. -/
theorem elemRead_shiftUp (hw : w ≤ 31) (hm : m.wf = true) (hn : m.Narrow p) (a n j : Nat) :
    elemRead p w (shiftUp p w m a n) j =
      if a < j ∧ j ≤ a + n then elemRead p w m (j - 1) else elemRead p w m j := by
  induction n generalizing m j with
  | zero => rw [shiftUp, if_neg (by omega)]
  | succ n ih =>
    have hv := elemRead_lt (p := p) hw hn (a + n)
    rw [shiftUp, ih (wf_elemWrite hm _ _) (narrow_elemWrite hm hn _ _), elemRead_elemWrite hw hm hn _ hv,
      elemRead_elemWrite hw hm hn _ hv]
    split_ifs <;> first | rfl | omega | (congr 1; omega)

/-- The loop of R115 leaves every bit above its elements. -/
theorem globalBit_fillElems (hw : w ≤ 31) (hm : m.wf = true) {v : Val} (hv : v.toNat < 2 ^ w) (n g : Nat)
    (hg : n * w ≤ g) : (fillElems p w m v n).globalBit p g = m.globalBit p g := by
  induction n with
  | zero => rfl
  | succ n ih =>
    rw [Nat.succ_mul] at hg
    rw [fillElems, globalBit_elemWrite hw (wf_fillElems hm v n) _ hv, if_neg (by omega), ih (by omega)]

/-- The loop of R131 leaves every bit outside the elements it writes. -/
theorem globalBit_shiftDown (hw : w ≤ 31) (hm : m.wf = true) (hn : m.Narrow p) (a n g : Nat)
    (hg : g < a * w ∨ (a + n) * w ≤ g) : (shiftDown p w m a n).globalBit p g = m.globalBit p g := by
  induction n with
  | zero => rfl
  | succ n ih =>
    have e1 : (a + (n + 1)) * w = a * w + n * w + w := by ring
    have e2 : (a + n) * w = a * w + n * w := by ring
    rw [e1] at hg
    have hn' := narrow_shiftDown (w := w) hm hn a n
    rw [shiftDown, globalBit_elemWrite hw (wf_shiftDown hm a n) _ (elemRead_lt hw hn' _), e2, if_neg (by omega),
      ih (by omega)]

/-- The loop of R132 leaves every bit outside the elements it writes. -/
theorem globalBit_shiftUp (hw : w ≤ 31) (hm : m.wf = true) (hn : m.Narrow p) (a n g : Nat)
    (hg : g < a * w ∨ (a + n + 1) * w ≤ g) : (shiftUp p w m a n).globalBit p g = m.globalBit p g := by
  induction n generalizing m with
  | zero => rfl
  | succ n ih =>
    have e1 : (a + (n + 1) + 1) * w = a * w + n * w + w + w := by ring
    have e2 : (a + n + 1) * w = a * w + n * w + w := by ring
    rw [e1] at hg
    rw [shiftUp, ih (wf_elemWrite hm _ _) (narrow_elemWrite hm hn _ _) (by omega),
      globalBit_elemWrite hw hm _ (elemRead_lt hw hn _), e2, if_neg (by omega)]

/-! ## Which words elements need (R33, R83, R110) -/

/-- `ceil`: `k` words hold `n` elements exactly when their bits fit. -/
theorem wordsFor_le_iff (p : Params) (w n k : Nat) : wordsFor p w n ≤ k ↔ n * w ≤ k * p.wordBits := by
  unfold wordsFor ceilDiv
  have hwb := wordBits_eq p
  generalize n * w = x
  have h0 : 0 < p.wordBits := by omega
  rw [← Nat.lt_succ_iff, Nat.div_lt_iff_lt_mul h0, Nat.succ_mul]
  omega

/-- The last word of element `i` is below `k` exactly when `k` words hold elements `0 .. i`. -/
theorem lastWord_lt_iff (p : Params) {w : Nat} (h1 : 1 ≤ w) (hw : w ≤ 31) (i k : Nat) :
    lastWord p w i < k ↔ (i + 1) * w ≤ k * p.wordBits := by
  rw [lastWord_eq, Nat.succ_mul]
  have hwb := wordBits_eq p
  have hd := Nat.div_add_mod (i * w) p.wordBits
  have hm : i * w % p.wordBits < p.wordBits := Nat.mod_lt _ (by omega)
  generalize i * w / p.wordBits = q at *
  generalize i * w % p.wordBits = r at *
  generalize i * w = x at *
  rcases hwb with h | h <;> rw [h] at hd hm ⊢ <;> split_ifs <;> omega

/-- The words of an element below another one exist with it. -/
theorem lastWord_mono (p : Params) {w : Nat} (h1 : 1 ≤ w) (hw : w ≤ 31) {i j : Nat} (hij : i ≤ j) {k : Nat}
    (h : lastWord p w j < k) : lastWord p w i < k := by
  rw [lastWord_lt_iff p h1 hw] at *
  exact le_trans (Nat.mul_le_mul_right _ (by omega)) h

theorem fits_fillElems (h1 : 1 ≤ w) (hw : w ≤ 31) (hf : m.fits p = true) (v : Val) (n : Nat)
    (hn : wordsFor p w n ≤ p.maxWords) : (fillElems p w m v n).fits p = true := by
  induction n with
  | zero => exact hf
  | succ n ih =>
    rw [wordsFor_le_iff] at hn
    refine fits_elemWrite (ih ?_) ((lastWord_lt_iff p h1 hw n _).2 hn) v
    rw [wordsFor_le_iff]
    exact le_trans (Nat.mul_le_mul_right _ (by omega)) hn

theorem fits_shiftDown (h1 : 1 ≤ w) (hw : w ≤ 31) (hf : m.fits p = true) (a n : Nat)
    (hl : lastWord p w (a + n) < p.maxWords) : (shiftDown p w m a n).fits p = true := by
  induction n with
  | zero => exact hf
  | succ n ih =>
    have := lastWord_mono p h1 hw (i := a + n) (j := a + (n + 1)) (by omega) hl
    exact fits_elemWrite (ih this) this _

theorem fits_shiftUp (h1 : 1 ≤ w) (hw : w ≤ 31) (hf : m.fits p = true) (a n : Nat)
    (hl : lastWord p w (a + n) < p.maxWords) : (shiftUp p w m a n).fits p = true := by
  induction n generalizing m with
  | zero => exact hf
  | succ n ih =>
    exact ih (fits_elemWrite hf hl _) (lastWord_mono p h1 hw (i := a + n) (j := a + (n + 1)) (by omega) hl)

end Sys2Proof.Machine
end

