-- ==== Sys2Proof/Laws/State.lean ====
section
/-! SUPPORT. One lemma per field per update of State, true by `rfl`, so that no later proof unfolds a record update. -/
namespace Sys2Proof.Machine

variable (s : State)

/-! ## respond -/

@[simp] theorem respond_params (st : Status) (sm : Bool) (a : Word) (b : BitVec 8) : (respond st sm a b s).params = s.params := rfl
@[simp] theorem respond_wReg (st : Status) (sm : Bool) (a : Word) (b : BitVec 8) : (respond st sm a b s).wReg = s.wReg := rfl
@[simp] theorem respond_length (st : Status) (sm : Bool) (a : Word) (b : BitVec 8) : (respond st sm a b s).length = s.length := rfl
@[simp] theorem respond_words (st : Status) (sm : Bool) (a : Word) (b : BitVec 8) : (respond st sm a b s).words = s.words := rfl
@[simp] theorem respond_iterPos (st : Status) (sm : Bool) (a : Word) (b : BitVec 8) : (respond st sm a b s).iterPos = s.iterPos := rfl
@[simp] theorem respond_iterValid (st : Status) (sm : Bool) (a : Word) (b : BitVec 8) : (respond st sm a b s).iterValid = s.iterValid := rfl
@[simp] theorem respond_errFlags (st : Status) (sm : Bool) (a : Word) (b : BitVec 8) : (respond st sm a b s).errFlags = s.errFlags := rfl
@[simp] theorem respond_mem (st : Status) (sm : Bool) (a : Word) (b : BitVec 8) : (respond st sm a b s).mem = s.mem := rfl
@[simp] theorem respond_busy (st : Status) (sm : Bool) (a : Word) (b : BitVec 8) : (respond st sm a b s).busy = s.busy := rfl
@[simp] theorem respond_rsp (st : Status) (sm : Bool) (a : Word) (b : BitVec 8) : (respond st sm a b s).rsp = .some ⟨st, sm, a, b⟩ := rfl
@[simp] theorem respond_pending (st : Status) (sm : Bool) (a : Word) (b : BitVec 8) : (respond st sm a b s).pending = s.pending := rfl
@[simp] theorem respond_offers (st : Status) (sm : Bool) (a : Word) (b : BitVec 8) : (respond st sm a b s).offers = s.offers := rfl
@[simp] theorem respond_pins (st : Status) (sm : Bool) (a : Word) (b : BitVec 8) : (respond st sm a b s).pins = s.pins := rfl
@[simp] theorem respond_draws (st : Status) (sm : Bool) (a : Word) (b : BitVec 8) : (respond st sm a b s).draws = s.draws := rfl

/-! ## answer -/

@[simp] theorem answer_params (v : Nat) : (answer v s).params = s.params := rfl
@[simp] theorem answer_wReg (v : Nat) : (answer v s).wReg = s.wReg := rfl
@[simp] theorem answer_length (v : Nat) : (answer v s).length = s.length := rfl
@[simp] theorem answer_words (v : Nat) : (answer v s).words = s.words := rfl
@[simp] theorem answer_iterPos (v : Nat) : (answer v s).iterPos = s.iterPos := rfl
@[simp] theorem answer_iterValid (v : Nat) : (answer v s).iterValid = s.iterValid := rfl
@[simp] theorem answer_errFlags (v : Nat) : (answer v s).errFlags = s.errFlags := rfl
@[simp] theorem answer_mem (v : Nat) : (answer v s).mem = s.mem := rfl
@[simp] theorem answer_busy (v : Nat) : (answer v s).busy = s.busy := rfl
@[simp] theorem answer_rsp (v : Nat) : (answer v s).rsp = .some ⟨.ok, true, BitVec.ofNat 64 v, 0⟩ := rfl
@[simp] theorem answer_pending (v : Nat) : (answer v s).pending = s.pending := rfl
@[simp] theorem answer_offers (v : Nat) : (answer v s).offers = s.offers := rfl
@[simp] theorem answer_pins (v : Nat) : (answer v s).pins = s.pins := rfl
@[simp] theorem answer_draws (v : Nat) : (answer v s).draws = s.draws := rfl

/-! ## acknowledge -/

@[simp] theorem acknowledge_params : (acknowledge s).params = s.params := rfl
@[simp] theorem acknowledge_wReg : (acknowledge s).wReg = s.wReg := rfl
@[simp] theorem acknowledge_length : (acknowledge s).length = s.length := rfl
@[simp] theorem acknowledge_words : (acknowledge s).words = s.words := rfl
@[simp] theorem acknowledge_iterPos : (acknowledge s).iterPos = s.iterPos := rfl
@[simp] theorem acknowledge_iterValid : (acknowledge s).iterValid = s.iterValid := rfl
@[simp] theorem acknowledge_errFlags : (acknowledge s).errFlags = s.errFlags := rfl
@[simp] theorem acknowledge_mem : (acknowledge s).mem = s.mem := rfl
@[simp] theorem acknowledge_busy : (acknowledge s).busy = s.busy := rfl
@[simp] theorem acknowledge_rsp : (acknowledge s).rsp = .some ⟨.ok, false, 0, 0⟩ := rfl
@[simp] theorem acknowledge_pending : (acknowledge s).pending = s.pending := rfl
@[simp] theorem acknowledge_offers : (acknowledge s).offers = s.offers := rfl
@[simp] theorem acknowledge_pins : (acknowledge s).pins = s.pins := rfl
@[simp] theorem acknowledge_draws : (acknowledge s).draws = s.draws := rfl

/-! ## recordErr -/

@[simp] theorem recordErr_params (e : Status) : (recordErr e s).params = s.params := rfl
@[simp] theorem recordErr_wReg (e : Status) : (recordErr e s).wReg = s.wReg := rfl
@[simp] theorem recordErr_length (e : Status) : (recordErr e s).length = s.length := rfl
@[simp] theorem recordErr_words (e : Status) : (recordErr e s).words = s.words := rfl
@[simp] theorem recordErr_iterPos (e : Status) : (recordErr e s).iterPos = s.iterPos := rfl
@[simp] theorem recordErr_iterValid (e : Status) : (recordErr e s).iterValid = s.iterValid := rfl
@[simp] theorem recordErr_errFlags (e : Status) : (recordErr e s).errFlags = s.errFlags ||| errBit e := rfl
@[simp] theorem recordErr_mem (e : Status) : (recordErr e s).mem = s.mem := rfl
@[simp] theorem recordErr_busy (e : Status) : (recordErr e s).busy = s.busy := rfl
@[simp] theorem recordErr_rsp (e : Status) : (recordErr e s).rsp = s.rsp := rfl
@[simp] theorem recordErr_pending (e : Status) : (recordErr e s).pending = s.pending := rfl
@[simp] theorem recordErr_offers (e : Status) : (recordErr e s).offers = s.offers := rfl
@[simp] theorem recordErr_pins (e : Status) : (recordErr e s).pins = s.pins := rfl
@[simp] theorem recordErr_draws (e : Status) : (recordErr e s).draws = s.draws := rfl

/-! ## failWith -/

@[simp] theorem failWith_params (e : Status) : (failWith e s).params = s.params := rfl
@[simp] theorem failWith_wReg (e : Status) : (failWith e s).wReg = s.wReg := rfl
@[simp] theorem failWith_length (e : Status) : (failWith e s).length = s.length := rfl
@[simp] theorem failWith_words (e : Status) : (failWith e s).words = s.words := rfl
@[simp] theorem failWith_iterPos (e : Status) : (failWith e s).iterPos = s.iterPos := rfl
@[simp] theorem failWith_iterValid (e : Status) : (failWith e s).iterValid = s.iterValid := rfl
@[simp] theorem failWith_errFlags (e : Status) : (failWith e s).errFlags = s.errFlags ||| errBit e := rfl
@[simp] theorem failWith_mem (e : Status) : (failWith e s).mem = s.mem := rfl
@[simp] theorem failWith_busy (e : Status) : (failWith e s).busy = s.busy := rfl
@[simp] theorem failWith_rsp (e : Status) : (failWith e s).rsp = .some ⟨e, false, 0, 0⟩ := rfl
@[simp] theorem failWith_pending (e : Status) : (failWith e s).pending = s.pending := rfl
@[simp] theorem failWith_offers (e : Status) : (failWith e s).offers = s.offers := rfl
@[simp] theorem failWith_pins (e : Status) : (failWith e s).pins = s.pins := rfl
@[simp] theorem failWith_draws (e : Status) : (failWith e s).draws = s.draws := rfl

/-! ## invalidateIter -/

@[simp] theorem invalidateIter_params : (invalidateIter s).params = s.params := rfl
@[simp] theorem invalidateIter_wReg : (invalidateIter s).wReg = s.wReg := rfl
@[simp] theorem invalidateIter_length : (invalidateIter s).length = s.length := rfl
@[simp] theorem invalidateIter_words : (invalidateIter s).words = s.words := rfl
@[simp] theorem invalidateIter_iterPos : (invalidateIter s).iterPos = s.iterPos := rfl
@[simp] theorem invalidateIter_iterValid : (invalidateIter s).iterValid = false := rfl
@[simp] theorem invalidateIter_errFlags : (invalidateIter s).errFlags = s.errFlags := rfl
@[simp] theorem invalidateIter_mem : (invalidateIter s).mem = s.mem := rfl
@[simp] theorem invalidateIter_busy : (invalidateIter s).busy = s.busy := rfl
@[simp] theorem invalidateIter_rsp : (invalidateIter s).rsp = s.rsp := rfl
@[simp] theorem invalidateIter_pending : (invalidateIter s).pending = s.pending := rfl
@[simp] theorem invalidateIter_offers : (invalidateIter s).offers = s.offers := rfl
@[simp] theorem invalidateIter_pins : (invalidateIter s).pins = s.pins := rfl
@[simp] theorem invalidateIter_draws : (invalidateIter s).draws = s.draws := rfl

/-! ## takeResponse -/

@[simp] theorem takeResponse_params : (takeResponse s).params = s.params := rfl
@[simp] theorem takeResponse_wReg : (takeResponse s).wReg = s.wReg := rfl
@[simp] theorem takeResponse_length : (takeResponse s).length = s.length := rfl
@[simp] theorem takeResponse_words : (takeResponse s).words = s.words := rfl
@[simp] theorem takeResponse_iterPos : (takeResponse s).iterPos = s.iterPos := rfl
@[simp] theorem takeResponse_iterValid : (takeResponse s).iterValid = s.iterValid := rfl
@[simp] theorem takeResponse_errFlags : (takeResponse s).errFlags = s.errFlags := rfl
@[simp] theorem takeResponse_mem : (takeResponse s).mem = s.mem := rfl
@[simp] theorem takeResponse_busy : (takeResponse s).busy = false := rfl
@[simp] theorem takeResponse_rsp : (takeResponse s).rsp = none := rfl
@[simp] theorem takeResponse_pending : (takeResponse s).pending = s.pending := rfl
@[simp] theorem takeResponse_offers : (takeResponse s).offers = s.offers := rfl
@[simp] theorem takeResponse_pins : (takeResponse s).pins = s.pins := rfl
@[simp] theorem takeResponse_draws : (takeResponse s).draws = s.draws := rfl

/-! ## startCommand -/

@[simp] theorem startCommand_params (c : Command) (n : Nat) : (startCommand c n s).params = s.params := rfl
@[simp] theorem startCommand_wReg (c : Command) (n : Nat) : (startCommand c n s).wReg = s.wReg := rfl
@[simp] theorem startCommand_length (c : Command) (n : Nat) : (startCommand c n s).length = s.length := rfl
@[simp] theorem startCommand_words (c : Command) (n : Nat) : (startCommand c n s).words = s.words := rfl
@[simp] theorem startCommand_iterPos (c : Command) (n : Nat) : (startCommand c n s).iterPos = s.iterPos := rfl
@[simp] theorem startCommand_iterValid (c : Command) (n : Nat) : (startCommand c n s).iterValid = (s.iterValid && !clearsCursor c) := rfl
@[simp] theorem startCommand_errFlags (c : Command) (n : Nat) : (startCommand c n s).errFlags = s.errFlags := rfl
@[simp] theorem startCommand_mem (c : Command) (n : Nat) : (startCommand c n s).mem = s.mem := rfl
@[simp] theorem startCommand_busy (c : Command) (n : Nat) : (startCommand c n s).busy = true := rfl
@[simp] theorem startCommand_rsp (c : Command) (n : Nat) : (startCommand c n s).rsp = s.rsp := rfl
@[simp] theorem startCommand_pending (c : Command) (n : Nat) : (startCommand c n s).pending = some ⟨c, n⟩ := rfl
@[simp] theorem startCommand_offers (c : Command) (n : Nat) : (startCommand c n s).offers = s.offers := rfl
@[simp] theorem startCommand_pins (c : Command) (n : Nat) : (startCommand c n s).pins = s.pins := rfl
@[simp] theorem startCommand_draws (c : Command) (n : Nat) : (startCommand c n s).draws = s.draws := rfl

/-! ## writeElem and dropPins -/

@[simp] theorem writeElem_params (i : Nat) (v : Val) : (s.writeElem i v).params = s.params := rfl
@[simp] theorem writeElem_wReg (i : Nat) (v : Val) : (s.writeElem i v).wReg = s.wReg := rfl
@[simp] theorem writeElem_length (i : Nat) (v : Val) : (s.writeElem i v).length = s.length := rfl
@[simp] theorem writeElem_words (i : Nat) (v : Val) : (s.writeElem i v).words = s.words := rfl
@[simp] theorem writeElem_iterPos (i : Nat) (v : Val) : (s.writeElem i v).iterPos = s.iterPos := rfl
@[simp] theorem writeElem_iterValid (i : Nat) (v : Val) : (s.writeElem i v).iterValid = s.iterValid := rfl
@[simp] theorem writeElem_errFlags (i : Nat) (v : Val) : (s.writeElem i v).errFlags = s.errFlags := rfl
@[simp] theorem writeElem_mem (i : Nat) (v : Val) : (s.writeElem i v).mem = elemWrite s.params s.w s.mem i v := rfl
@[simp] theorem writeElem_busy (i : Nat) (v : Val) : (s.writeElem i v).busy = s.busy := rfl
@[simp] theorem writeElem_rsp (i : Nat) (v : Val) : (s.writeElem i v).rsp = s.rsp := rfl
@[simp] theorem writeElem_pending (i : Nat) (v : Val) : (s.writeElem i v).pending = s.pending := rfl
@[simp] theorem writeElem_offers (i : Nat) (v : Val) : (s.writeElem i v).offers = s.offers := rfl
@[simp] theorem writeElem_pins (i : Nat) (v : Val) : (s.writeElem i v).pins = s.pins := rfl
@[simp] theorem writeElem_draws (i : Nat) (v : Val) : (s.writeElem i v).draws = s.draws := rfl
@[simp] theorem dropPins_params : s.dropPins.params = s.params := rfl
@[simp] theorem dropPins_wReg : s.dropPins.wReg = s.wReg := rfl
@[simp] theorem dropPins_length : s.dropPins.length = s.length := rfl
@[simp] theorem dropPins_words : s.dropPins.words = s.words := rfl
@[simp] theorem dropPins_iterPos : s.dropPins.iterPos = s.iterPos := rfl
@[simp] theorem dropPins_iterValid : s.dropPins.iterValid = s.iterValid := rfl
@[simp] theorem dropPins_errFlags : s.dropPins.errFlags = s.errFlags := rfl
@[simp] theorem dropPins_mem : s.dropPins.mem = s.mem := rfl
@[simp] theorem dropPins_busy : s.dropPins.busy = s.busy := rfl
@[simp] theorem dropPins_rsp : s.dropPins.rsp = s.rsp := rfl
@[simp] theorem dropPins_pending : s.dropPins.pending = s.pending := rfl
@[simp] theorem dropPins_offers : s.dropPins.offers = s.offers := rfl
@[simp] theorem dropPins_pins : s.dropPins.pins = s.pins.tail := rfl
@[simp] theorem dropPins_draws : s.dropPins.draws = s.draws := rfl

/-! ## Reset -/

@[simp] theorem resetWith_params (p : Params) (m : Memory) : (State.resetWith p m).params = p := rfl
@[simp] theorem resetWith_wReg (p : Params) (m : Memory) : (State.resetWith p m).wReg = 0 := rfl
@[simp] theorem resetWith_length (p : Params) (m : Memory) : (State.resetWith p m).length = 0 := rfl
@[simp] theorem resetWith_words (p : Params) (m : Memory) : (State.resetWith p m).words = 0 := rfl
@[simp] theorem resetWith_iterPos (p : Params) (m : Memory) : (State.resetWith p m).iterPos = 0 := rfl
@[simp] theorem resetWith_iterValid (p : Params) (m : Memory) : (State.resetWith p m).iterValid = false := rfl
@[simp] theorem resetWith_errFlags (p : Params) (m : Memory) : (State.resetWith p m).errFlags = 0 := rfl
@[simp] theorem resetWith_mem (p : Params) (m : Memory) : (State.resetWith p m).mem = m := rfl
@[simp] theorem resetWith_busy (p : Params) (m : Memory) : (State.resetWith p m).busy = false := rfl
@[simp] theorem resetWith_rsp (p : Params) (m : Memory) : (State.resetWith p m).rsp = none := rfl
@[simp] theorem resetWith_pending (p : Params) (m : Memory) : (State.resetWith p m).pending = none := rfl
@[simp] theorem resetWith_offers (p : Params) (m : Memory) : (State.resetWith p m).offers = [] := rfl
@[simp] theorem resetWith_pins (p : Params) (m : Memory) : (State.resetWith p m).pins = [] := rfl
@[simp] theorem resetWith_draws (p : Params) (m : Memory) : (State.resetWith p m).draws = 0 := rfl

/-! ## Values that depend on a few fields only -/

@[simp] theorem invalidateIter_w : (invalidateIter s).w = s.w := rfl
@[simp] theorem invalidateIter_capacity : (invalidateIter s).capacity = s.capacity := rfl
@[simp] theorem invalidateIter_occWords : (invalidateIter s).occWords = s.occWords := rfl
@[simp] theorem invalidateIter_elem (i : Nat) : (invalidateIter s).elem i = s.elem i := rfl

/-! ## The responses in the words of statements -/

theorem acknowledge_eq_acked : acknowledge s = acked s := rfl

theorem answer_eq_answered (v : Nat) : answer v s = answered s (BitVec.ofNat 64 v) := rfl

/-- `raise` sets the bit of ERR_FLAGS its code numbers (R172). -/
theorem failWith_eq_failed {e : Status} (h : e ≠ .ok) : failWith e s = failed s e e.code.toNat := by
  cases e <;> first | exact absurd rfl h | rfl

theorem entered_of_mutating {i : Instr} (h : mutating i = true) : entered i s = invalidateIter s := by
  simp [entered, invalidateIter, h]

theorem entered_of_not_mutating {i : Instr} (h : mutating i = false) : entered i s = s := by
  simp [entered, h]

theorem clearsCursor_of_decode {c : Command} {i : Instr} (h : decode c = some i) : clearsCursor c = mutating i := by
  rw [clearsCursor, h]

theorem clearsCursor_of_illegal {c : Command} (h : decode c = none) : clearsCursor c = false := by
  rw [clearsCursor, h]

end Sys2Proof.Machine
end

