-- ==== Sys2Proof/Laws/Ops.lean ====
section
/-! SUPPORT. One lemma for each shared operation, saying all it can do: the checks, the capacity manager, the value
operand and the access guard. -/
namespace Sys2Proof.Machine

variable {s : State}

/-! ## The checks -/

theorem whenLive_of_dead (h : s.wReg = 0) (k : Result) : whenLive s k = raise .notConstructed s := if_pos h

theorem whenLive_of_live (h : s.wReg ≠ 0) (k : Result) : whenLive s k = k := if_neg h

theorem whenConstructible_of_live (h : s.wReg ≠ 0) (wf : Width) (k : Result) :
    whenConstructible s wf k = raise .alreadyConstructed s := if_pos h

theorem whenConstructible_zero (h : s.wReg = 0) (k : Result) : whenConstructible s 0 k = raise .badWidth s := by
  simp [whenConstructible, h]

theorem whenConstructible_of_dead (h : s.wReg = 0) {wf : Width} (hw : wf ≠ 0) (k : Result) :
    whenConstructible s wf k = k := by
  rw [whenConstructible, if_neg (not_not.2 h), if_neg hw]

theorem whenBelow_of_lt {a bound : Nat} (h : a < bound) (k : Result) : whenBelow s a bound k = k :=
  if_neg (by omega)

theorem whenBelow_of_le {a bound : Nat} (h : bound ≤ a) (k : Result) :
    whenBelow s a bound k = raise .indexOutOfRange s := if_pos h

@[simp] theorem orRaise_ok {α : Type} (v : α) (k : α → Result) : orRaise s (.ok v) k = k v := rfl

@[simp] theorem orRaise_error {α : Type} (e : Status) (k : α → Result) :
    orRaise s (.error e : Except Status α) k = raise e s := rfl

theorem withWord_of_lt {j : Nat} (h : j < s.params.maxWords) (k : Result) : withWord s j k = k := if_pos h

/-! ## What a shared operation can do, when it answers a next state -/

variable {t : State}

theorem raise_next {e : Status} (h : raise e s = .next t) : t = failWith e s := (Host.Outcome.next.inj h).symm

theorem whenLive_next {k : Result} (h : whenLive s k = .next t) :
    (s.wReg = 0 ∧ t = failWith .notConstructed s) ∨ (s.wReg ≠ 0 ∧ k = .next t) := by
  by_cases h0 : s.wReg = 0
  · rw [whenLive_of_dead h0] at h; exact .inl ⟨h0, raise_next h⟩
  · rw [whenLive_of_live h0] at h; exact .inr ⟨h0, h⟩

theorem whenConstructible_next {wf : Width} {k : Result} (h : whenConstructible s wf k = .next t) :
    (s.wReg ≠ 0 ∧ t = failWith .alreadyConstructed s) ∨ (s.wReg = 0 ∧ wf = 0 ∧ t = failWith .badWidth s) ∨
    (s.wReg = 0 ∧ wf ≠ 0 ∧ k = .next t) := by
  by_cases h0 : s.wReg = 0
  · by_cases hw : wf = 0
    · subst hw; rw [whenConstructible_zero h0] at h; exact .inr (.inl ⟨h0, rfl, raise_next h⟩)
    · rw [whenConstructible_of_dead h0 hw] at h; exact .inr (.inr ⟨h0, hw, h⟩)
  · rw [whenConstructible_of_live h0] at h; exact .inl ⟨h0, raise_next h⟩

theorem whenBelow_next {a bound : Nat} {k : Result} (h : whenBelow s a bound k = .next t) :
    (bound ≤ a ∧ t = failWith .indexOutOfRange s) ∨ (a < bound ∧ k = .next t) := by
  by_cases h0 : bound ≤ a
  · rw [whenBelow_of_le h0] at h; exact .inl ⟨h0, raise_next h⟩
  · rw [whenBelow_of_lt (by omega)] at h; exact .inr ⟨by omega, h⟩

theorem withWord_next {j : Nat} {k : Result} (h : withWord s j k = .next t) : k = .next t := by
  unfold withWord at h
  split_ifs at h
  exact h

theorem withElem_next {i : Nat} {k : Result} (h : withElem s i k = .next t) : k = .next t := withWord_next h

theorem orRaise_next {α : Type} {c : Except Status α} {k : α → Result} (h : orRaise s c k = .next t) :
    (∃ e, c = .error e ∧ t = failWith e s) ∨ (∃ v, c = .ok v ∧ k v = .next t) := by
  cases c with
  | error e => exact .inl ⟨e, rfl, raise_next h⟩
  | ok v => exact .inr ⟨v, rfl, h⟩

/-! ## The value operand (R92) -/

theorem lowBits_toNat (w : Nat) (v : Val) : (lowBits w v).toNat = v.toNat % 2 ^ w := by
  unfold lowBits
  rw [BitVec.toNat_ofNat, Nat.mod_eq_of_lt]
  exact lt_of_le_of_lt (Nat.mod_le _ _) v.isLt

theorem lowBits_lt (w : Nat) (v : Val) : (lowBits w v).toNat < 2 ^ w := by
  rw [lowBits_toNat w v]
  exact Nat.mod_lt _ (Nat.two_pow_pos w)

theorem and_maskW (w : Nat) (v : Val) (hw : w ≤ 31) : v &&& maskW w = lowBits w v := by
  apply BitVec.eq_of_toNat_eq
  rw [BitVec.toNat_and, maskW_toNat hw, Nat.and_two_pow_sub_one_eq_mod, lowBits_toNat w v]

theorem lowBits_of_lt {w : Nat} {v : Val} (h : v.toNat < 2 ^ w) : lowBits w v = v := by
  apply BitVec.eq_of_toNat_eq
  rw [lowBits_toNat w v, Nat.mod_eq_of_lt h]

theorem maskW_lt_iff {w : Nat} (v : Val) (hw : w ≤ 31) : maskW w < v ↔ 2 ^ w ≤ v.toNat := by
  rw [BitVec.lt_def, maskW_toNat hw]
  have := Nat.two_pow_pos w
  omega

/-- A value the build accepts is stored as its low W bits. -/
theorem condVal_of_accepts {p : Params} {w : Nat} {v : Val} (hw : w ≤ 31) (h : accepts p w v) :
    condVal p w v = .ok (lowBits w v) := by
  unfold condVal
  rw [and_maskW w v hw, if_neg]
  rintro ⟨hr, hv⟩
  rw [maskW_lt_iff v hw] at hv
  rcases h with h | h
  · rw [hr] at h; cases h
  · omega

/-- Under REJECT a value wider than W bits fails. -/
theorem condVal_of_reject {p : Params} {w : Nat} {v : Val} (hw : w ≤ 31) (hr : p.truncPolicy = .reject)
    (h : 2 ^ w ≤ v.toNat) : condVal p w v = .error .valueTooWide := by
  unfold condVal
  rw [if_pos ⟨hr, (maskW_lt_iff v hw).2 h⟩]

theorem accepts_or_reject (p : Params) (w : Nat) (v : Val) :
    accepts p w v ∨ (p.truncPolicy = .reject ∧ 2 ^ w ≤ v.toNat) := by
  unfold accepts
  cases p.truncPolicy
  · exact .inl (.inl rfl)
  · by_cases h : v.toNat < 2 ^ w
    · exact .inl (.inr h)
    · exact .inr ⟨rfl, by omega⟩

/-- All `Cond` can answer (R92). -/
theorem condVal_ok {p : Params} {w : Nat} {v v' : Val} (hw : w ≤ 31) (h : condVal p w v = .ok v') :
    accepts p w v ∧ v' = lowBits w v := by
  rcases accepts_or_reject p w v with ha | ⟨hr, hb⟩
  · rw [condVal_of_accepts hw ha] at h
    exact ⟨ha, (Except.ok.inj h).symm⟩
  · rw [condVal_of_reject hw hr hb] at h
    cases h

theorem condVal_error {p : Params} {w : Nat} {v : Val} {e : Status} (h : condVal p w v = .error e) : e ≠ .ok := by
  unfold condVal at h
  split_ifs at h
  cases h
  exact fun h => by cases h

/-! ## The derived registers -/

theorem w_le (s : State) : s.w ≤ 31 := by
  have := s.wReg.isLt
  unfold State.w
  omega

theorem one_le_w (h : s.wReg ≠ 0) : 1 ≤ s.w := by
  unfold State.w
  rcases Nat.eq_zero_or_pos s.wReg.toNat with h0 | h0
  · exact absurd (BitVec.eq_of_toNat_eq (by simpa using h0)) h
  · exact h0

theorem w_of_dead (h : s.wReg = 0) : s.w = 0 := by
  unfold State.w
  rw [h]; rfl

theorem capacity_of_live (h : s.wReg ≠ 0) : s.capacity = s.words * s.params.wordBits / s.w := if_neg h

theorem capacity_of_dead (h : s.wReg = 0) : s.capacity = 0 := if_pos h

/-- R25: CAPACITY is the largest element count whose bits fit in the allocated words. -/
theorem le_capacity_iff (h : s.wReg ≠ 0) (n : Nat) : n ≤ s.capacity ↔ n * s.w ≤ s.words * s.params.wordBits := by
  rw [capacity_of_live h, Nat.le_div_iff_mul_le (one_le_w h)]

/-- R83: an element below CAPACITY lies in allocated words. -/
theorem lastWord_lt_words (h : s.wReg ≠ 0) {i : Nat} (hi : i < s.capacity) :
    lastWord s.params s.w i < s.words := by
  rw [lastWord_lt_iff s.params (one_le_w h) (w_le s)]
  exact (le_capacity_iff h (i + 1)).1 hi

/-- In a sound state the words of an element below CAPACITY exist. -/
theorem withElem_of_lt (hi : ArrayInv s) (h : s.wReg ≠ 0) {i : Nat} (hc : i < s.capacity) (k : Result) :
    withElem s i k = k :=
  withWord_of_lt (lt_of_lt_of_le (lastWord_lt_words h hc) hi.wordsLe) k

theorem params_bounds {p : Params} (h : p.wf = true) :
    1 ≤ p.maxWords ∧ p.maxWords * p.wordBits < 2 ^ p.idxBits ∧ p.idxBits ≤ 64 := by
  simpa [Params.wf, and_assoc] using h

/-- R25: every capacity fits the index/size type. -/
theorem capacity_lt (hi : ArrayInv s) : s.capacity < 2 ^ s.params.idxBits := by
  have hp := params_bounds hi.params
  by_cases h : s.wReg = 0
  · rw [capacity_of_dead h]; exact Nat.two_pow_pos _
  · rw [capacity_of_live h]
    refine lt_of_le_of_lt (Nat.div_le_self _ _) (lt_of_le_of_lt ?_ hp.2.1)
    exact Nat.mul_le_mul_right _ hi.wordsLe

/-- R33: the occupied words are allocated. -/
theorem occWords_le_words (hi : ArrayInv s) : s.occWords ≤ s.words := by
  unfold State.occWords
  rw [wordsFor_le_iff]
  by_cases h : s.wReg = 0
  · rw [(hi.dead h).1]; simp
  · exact (le_capacity_iff h _).1 hi.lengthLe

/-! ## The capacity manager -/

theorem checkCap_of_le {p : Params} {n : Nat} (h : n ≤ p.capMax) : checkCap p n = .ok () := if_neg (by omega)

theorem checkCap_of_lt {p : Params} {n : Nat} (h : p.capMax < n) : checkCap p n = .error .capacityOverflow := if_pos h

theorem grow_of_le {n : Nat} (h : wordsFor s.params s.w n ≤ s.params.maxWords) :
    grow s n = .ok { s with words := newWords s.params s.words (wordsFor s.params s.w n) } := if_neg (by omega)

theorem grow_of_lt {n : Nat} (h : s.params.maxWords < wordsFor s.params s.w n) :
    grow s n = .error .allocFailed := if_pos h

theorem le_newWords (p : Params) (words need : Nat) : need ≤ newWords p words need := le_max_left _ _

theorem newWords_le {p : Params} {words need : Nat} (h : need ≤ p.maxWords) : newWords p words need ≤ p.maxWords :=
  max_le h (min_le_right _ _)

/-- R111(b): growth never shrinks, since the words held fit in the RAM. -/
theorem words_le_newWords {p : Params} {words need : Nat} (h : words ≤ p.maxWords) :
    words ≤ newWords p words need := by
  unfold newWords
  omega

theorem checkCap_error {p : Params} {n : Nat} {e : Status} (h : checkCap p n = .error e) : e ≠ .ok := by
  unfold checkCap at h
  split_ifs at h
  cases h
  exact fun h => by cases h

theorem grow_error {n : Nat} {e : Status} (h : grow s n = .error e) : e ≠ .ok := by
  unfold grow at h
  simp only [] at h
  split_ifs at h
  cases h
  exact fun h => by cases h

/-- All `Grow` can do when it succeeds: the words needed fit the RAM, and only WORDS changes (R110). -/
theorem grow_ok {n : Nat} {g : State} (h : grow s n = .ok g) :
    wordsFor s.params s.w n ≤ s.params.maxWords ∧
    g = { s with words := newWords s.params s.words (wordsFor s.params s.w n) } := by
  by_cases hn : wordsFor s.params s.w n ≤ s.params.maxWords
  · rw [grow_of_le hn] at h
    exact ⟨hn, (Except.ok.inj h).symm⟩
  · rw [grow_of_lt (by omega)] at h
    cases h

/-- WORDS after the room check of PUSH and INSERT: as before where there was room, grown by R110 where there was not
and the RAM has the words. -/
def Room (s : State) (k : Nat) : Prop :=
  (s.length ≠ s.capacity ∧ k = s.words) ∨
  (s.length = s.capacity ∧ wordsFor s.params s.w (s.length + 1) ≤ s.params.maxWords ∧
    k = newWords s.params s.words (wordsFor s.params s.w (s.length + 1)))

theorem roomForOne_ok {g : State} (h : roomForOne s = .ok g) : ∃ k, Room s k ∧ g = { s with words := k } := by
  unfold roomForOne at h
  split_ifs at h with hl
  · unfold checkedGrow at h
    split at h
    · cases h
    · obtain ⟨hn, hg⟩ := grow_ok h
      exact ⟨_, .inr ⟨hl, hn, rfl⟩, hg⟩
  · exact ⟨_, .inl ⟨hl, rfl⟩, (Except.ok.inj h).symm⟩

theorem roomForOne_error {e : Status} (h : roomForOne s = .error e) : e ≠ .ok := by
  unfold roomForOne at h
  split_ifs at h
  unfold checkedGrow at h
  split at h
  · rename_i hc
    cases h
    exact checkCap_error hc
  · exact grow_error h

/-- What the room check of PUSH and INSERT answers in a sound live state: there is room; or the RAM is too small; or
WORDS grows by R110 and then there is room. -/
theorem roomForOne_cases (hi : ArrayInv s) (h : s.wReg ≠ 0) :
    (s.length < s.capacity ∧ roomForOne s = .ok s) ∨
    (s.length = s.capacity ∧ s.params.maxWords < wordsFor s.params s.w (s.length + 1) ∧
      roomForOne s = .error .allocFailed) ∨
    (s.length = s.capacity ∧ wordsFor s.params s.w (s.length + 1) ≤ s.params.maxWords ∧
      roomForOne s =
        .ok { s with words := newWords s.params s.words (wordsFor s.params s.w (s.length + 1)) }) := by
  have hp := params_bounds hi.params
  have hcap := capacity_lt hi
  rcases Nat.lt_or_eq_of_le hi.lengthLe with hl | hl
  · exact .inl ⟨hl, if_neg (by omega)⟩
  · right
    have hover : s.length + 1 ≤ s.params.capMax := by
      have h1 : s.capacity ≤ s.params.maxWords * s.params.wordBits := by
        rw [capacity_of_live h]
        exact le_trans (Nat.div_le_self _ _) (Nat.mul_le_mul_right _ hi.wordsLe)
      by_contra hc
      unfold Params.capMax at hc
      have := Nat.two_pow_pos s.params.idxBits
      -- then CAPACITY = 2^IDX_BITS − 1 = MAX_WORDS · WORD_BITS, which WORD_BITS can not divide
      have he : s.params.maxWords * s.params.wordBits = 2 ^ s.params.idxBits - 1 := by omega
      have h5 : 5 ≤ s.params.idxBits := by
        by_contra h5
        have : 2 ^ s.params.idxBits ≤ 2 ^ 4 := Nat.pow_le_pow_right (by omega) (by omega)
        have : 1 * 32 ≤ s.params.maxWords * s.params.wordBits :=
          Nat.mul_le_mul hp.1 (by rcases wordBits_eq s.params with h | h <;> omega)
        omega
      obtain ⟨k, hk⟩ := Nat.exists_eq_add_of_le h5
      have hpow : 2 ^ s.params.idxBits = 32 * 2 ^ k := by rw [hk, pow_add]; norm_num
      rcases wordBits_eq s.params with hb | hb <;> rw [hb] at he <;> omega
    have hroom : roomForOne s = grow s (s.length + 1) := by
      rw [roomForOne, if_pos hl, checkedGrow, checkCap_of_le hover]
    rw [hroom]
    by_cases hn : wordsFor s.params s.w (s.length + 1) ≤ s.params.maxWords
    · exact .inr ⟨hl, hn, grow_of_le hn⟩
    · exact .inl ⟨hl, by omega, grow_of_lt (by omega)⟩

/-- R110: after Grow there is room for what was required. -/
theorem le_capacity_grown (h : s.wReg ≠ 0) {n k : Nat} (hn : wordsFor s.params s.w n ≤ k) :
    n ≤ ({ s with words := k } : State).capacity := by
  rw [le_capacity_iff (s := { s with words := k }) h]
  exact (wordsFor_le_iff _ _ _ _).1 hn

/-- In a sound live state the room check leaves room, and keeps the state sound. -/
theorem room_sound (hi : ArrayInv s) (h : s.wReg ≠ 0) {k : Nat} (hk : Room s k) :
    s.length < ({ s with words := k } : State).capacity ∧ s.words ≤ k ∧ k ≤ s.params.maxWords := by
  rcases hk with ⟨hl, rfl⟩ | ⟨_, hn, rfl⟩
  · exact ⟨lt_of_le_of_ne hi.lengthLe hl, le_refl _, hi.wordsLe⟩
  · exact ⟨le_capacity_grown h (le_newWords _ _ _), words_le_newWords hi.wordsLe, newWords_le hn⟩

/-! ## Sound states -/

theorem ArrayInv.invalidateIter (hi : ArrayInv s) : ArrayInv (invalidateIter s) :=
  { hi with iterLe := fun h => absurd h (by simp) }

theorem ArrayInv.narrow (hi : ArrayInv s) : s.mem.Narrow s.params := Memory.narrow_of_fits hi.memFits

/-- A response touches nothing the array's invariants speak of. -/
theorem ArrayInv.respond (hi : ArrayInv s) (st : Status) (sm : Bool) (a : Word) (b : BitVec 8) :
    ArrayInv (respond st sm a b s) := { hi with }

theorem errBit_hard (e : Status) : errBit e &&& 0xFC01 = 0 := by cases e <;> rfl

theorem or_and_distrib (x y m : ErrFlags) : (x ||| y) &&& m = (x &&& m) ||| (y &&& m) := by
  ext b hb
  simp [Bool.and_or_distrib_right]

/-- Recording an error keeps the hardwired bits of ERR_FLAGS. -/
theorem ArrayInv.failWith (hi : ArrayInv s) (e : Status) : ArrayInv (failWith e s) :=
  { hi with
    errHard := by
      rw [failWith_errFlags, or_and_distrib, hi.errHard, errBit_hard]
      rfl }

/-- Growing WORDS within the RAM keeps a live state sound. -/
theorem ArrayInv.grown (hi : ArrayInv s) (h : s.wReg ≠ 0) {k : Nat} (hk : s.words ≤ k) (hm : k ≤ s.params.maxWords) :
    ArrayInv { s with words := k } := by
  have hle : s.capacity ≤ ({ s with words := k } : State).capacity := by
    rw [le_capacity_iff (s := { s with words := k }) h]
    exact le_trans ((le_capacity_iff h _).1 (le_refl _)) (Nat.mul_le_mul_right _ hk)
  exact { hi with
    lengthLe := le_trans hi.lengthLe hle
    dead := fun h0 => absurd h0 h
    wordsLe := hm
    iterPosLe := le_trans hi.iterPosLe hle }

end Sys2Proof.Machine
end

