-- ==== Sys2Proof/Laws/Exec.lean ====
section
/-! SUPPORT. Said once, what any command can do: when it answers a next state, it has raised an error in the state its
checks leave, or it has had its effect. Every invariant of the commands is derived from this, without unfolding a
meaning again. -/
namespace Sys2Proof.Machine

/-- The effect of a command that succeeds: what its checks have found of `s`, and the state `t` it leaves. -/
def Effect (i : Instr) (s t : State) : Prop :=
  let c := invalidateIter s
  match i with
  | .nop => t = acknowledge s
  | .status => t = answer s.errFlags.toNat s
  | .new wf => s.wReg = 0 ∧ wf ≠ 0 ∧ t = acknowledge { c with wReg := wf, length := 0, words := 0, iterPos := 0 }
  | .withCapacity wf a => s.wReg = 0 ∧ wf ≠ 0 ∧ wordsFor s.params wf.toNat a ≤ s.params.maxWords ∧
      t = acknowledge { c with wReg := wf, length := 0, words := wordsFor s.params wf.toNat a, iterPos := 0 }
  | .newFilled wf a b => s.wReg = 0 ∧ wf ≠ 0 ∧ accepts s.params wf.toNat b ∧
      wordsFor s.params wf.toNat a ≤ s.params.maxWords ∧
      t = acknowledge { c with
        wReg := wf, length := a, words := wordsFor s.params wf.toNat a, iterPos := 0
        mem := fillElems s.params wf.toNat s.mem (lowBits wf.toNat b) a }
  | .drop => s.wReg ≠ 0 ∧ t = acknowledge { c with wReg := 0, length := 0, words := 0, iterPos := 0 }
  | .get a => s.wReg ≠ 0 ∧ a < s.length ∧ t = answer (s.elem a).toNat s
  | .set a b => s.wReg ≠ 0 ∧ a < s.length ∧ accepts s.params s.w b ∧
      t = acknowledge { c with mem := elemWrite s.params s.w s.mem a (lowBits s.w b) }
  | .len => s.wReg ≠ 0 ∧ t = answer s.length s
  | .capacity => s.wReg ≠ 0 ∧ t = answer s.capacity s
  | .isEmpty => s.wReg ≠ 0 ∧ t = answer (if s.length = 0 then 1 else 0) s
  | .width => s.wReg ≠ 0 ∧ t = answer s.w s
  | .push b => s.wReg ≠ 0 ∧ accepts s.params s.w b ∧ ∃ k, Room s k ∧
      t = acknowledge { c with
        words := k, length := s.length + 1, mem := elemWrite s.params s.w s.mem s.length (lowBits s.w b) }
  | .pop => s.wReg ≠ 0 ∧ ((s.length = 0 ∧ t = acknowledge c) ∨
      (s.length ≠ 0 ∧ t = answer (s.elem (s.length - 1)).toNat { c with length := s.length - 1 }))
  | .insert a b => s.wReg ≠ 0 ∧ a ≤ s.length ∧ accepts s.params s.w b ∧ ∃ k, Room s k ∧
      t = acknowledge { c with
        words := k, length := s.length + 1
        mem := elemWrite s.params s.w (shiftUp s.params s.w s.mem a (s.length - a)) a (lowBits s.w b) }
  | .remove a => s.wReg ≠ 0 ∧ a < s.length ∧ t = answer (s.elem a).toNat { c with
        length := s.length - 1, mem := shiftDown s.params s.w s.mem a (s.length - 1 - a) }
  | .truncate a => s.wReg ≠ 0 ∧ t = acknowledge { c with length := if a < s.length then a else s.length }
  | .reserve a => s.wReg ≠ 0 ∧ ((s.length + a ≤ s.capacity ∧ t = acknowledge c) ∨
      (s.capacity < s.length + a ∧ wordsFor s.params s.w (s.length + a) ≤ s.params.maxWords ∧
        t = acknowledge { c with
          words := newWords s.params s.words (wordsFor s.params s.w (s.length + a)) }))
  | .clear => s.wReg ≠ 0 ∧ t = acknowledge { c with length := 0 }
  | .iterStart => s.wReg ≠ 0 ∧ t = acknowledge { s with iterPos := 0, iterValid := true }
  | .iterNext => s.wReg ≠ 0 ∧ s.iterValid = true ∧ ((s.length ≤ s.iterPos ∧ t = acknowledge s) ∨
      (s.iterPos < s.length ∧ t = answer (s.elem s.iterPos).toNat { s with iterPos := s.iterPos + 1 }))
  | .decode a => s.wReg ≠ 0 ∧ t = respond .ok true (BitVec.ofNat 64 (locate s.params s.w a).wordIdx)
      (locationByte (locate s.params s.w a)) s
  | .rawLen => s.wReg ≠ 0 ∧ t = answer s.occWords s
  | .rawRead a => s.wReg ≠ 0 ∧ a < s.occWords ∧ t = respond .ok true
      ((s.mem.read a &&& definedMask s.params (definedBits s a)) |||
        (drawWord s.params s.draws &&& ~~~definedMask s.params (definedBits s a))) 0 { s with draws := s.draws + 1 }

/-- The command has raised an error: nothing but ERR_FLAGS, the response and, if mutating-class, ITER_VALID. -/
def Raised (i : Instr) (s t : State) : Prop := ∃ e, e ≠ .ok ∧ t = failWith e (entered i s)

variable {s t : State}

theorem next_inj {s' : State} (h : (.next s' : Result) = .next t) : t = s' := (Host.Outcome.next.inj h).symm

theorem raised_mutating {i : Instr} (hm : mutating i = true) {e : Status} (he : e ≠ .ok)
    (h : t = failWith e (invalidateIter s)) : Raised i s t := ⟨e, he, by rw [entered_of_mutating s hm]; exact h⟩

theorem raised_reading {i : Instr} (hm : mutating i = false) {e : Status} (he : e ≠ .ok) (h : t = failWith e s) :
    Raised i s t := ⟨e, he, by rw [entered_of_not_mutating s hm]; exact h⟩

/-- Close the branches of a constructor that raise, and hand on the one that does not. -/
theorem constructor_cases {i : Instr} (hm : mutating i = true) {wf : Width} {k : Result}
    (h : whenConstructible (invalidateIter s) wf k = .next t) :
    Raised i s t ∨ (s.wReg = 0 ∧ wf ≠ 0 ∧ k = .next t) := by
  rcases whenConstructible_next h with ⟨_, h⟩ | ⟨_, _, h⟩ | h
  · exact .inl (raised_mutating hm (by decide) h)
  · exact .inl (raised_mutating hm (by decide) h)
  · exact .inr h

/-- Close the branch of a mutating-class command that is not live. -/
theorem live_cases_mutating {i : Instr} (hm : mutating i = true) {k : Result}
    (h : whenLive (invalidateIter s) k = .next t) : Raised i s t ∨ (s.wReg ≠ 0 ∧ k = .next t) := by
  rcases whenLive_next h with ⟨_, h⟩ | h
  · exact .inl (raised_mutating hm (by decide) h)
  · exact .inr h

/-- Close the branch of another command that is not live. -/
theorem live_cases_reading {i : Instr} (hm : mutating i = false) {k : Result} (h : whenLive s k = .next t) :
    Raised i s t ∨ (s.wReg ≠ 0 ∧ k = .next t) := by
  rcases whenLive_next h with ⟨_, h⟩ | h
  · exact .inl (raised_reading hm (by decide) h)
  · exact .inr h

/-- All any command can do when it answers a next state. -/
theorem exec_next_cases (i : Instr) (h : exec i s = .next t) : Raised i s t ∨ Effect i s t := by
  cases i with
  | nop => exact .inr (next_inj h)
  | status => exact .inr (next_inj h)
  | new wf =>
    rcases constructor_cases (i := .new wf) rfl h with h | ⟨h0, hw, h⟩
    · exact .inl h
    · exact .inr ⟨h0, hw, next_inj h⟩
  | withCapacity wf a =>
    rcases constructor_cases (i := .withCapacity wf a) rfl h with h | ⟨h0, hw, h⟩
    · exact .inl h
    · simp only [] at h
      split_ifs at h with hn
      · exact .inl (raised_mutating rfl (by decide) (raise_next h))
      · exact .inr ⟨h0, hw, Nat.le_of_not_lt hn, next_inj h⟩
  | newFilled wf a b =>
    rcases constructor_cases (i := .newFilled wf a b) rfl h with h | ⟨h0, hw, h⟩
    · exact .inl h
    · rcases orRaise_next h with ⟨e, he, h⟩ | ⟨v, hv, h⟩
      · exact .inl (raised_mutating rfl (condVal_error he) h)
      · obtain ⟨ha, rfl⟩ := condVal_ok (by have := wf.isLt; omega) hv
        simp only [] at h
        split_ifs at h with hn
        · exact .inl (raised_mutating rfl (by decide) (raise_next h))
        · exact .inr ⟨h0, hw, ha, Nat.le_of_not_lt hn, next_inj h⟩
  | drop =>
    rcases live_cases_mutating (i := .drop) rfl h with h | ⟨h0, h⟩
    · exact .inl h
    · exact .inr ⟨h0, next_inj h⟩
  | get a =>
    rcases live_cases_reading (i := .get a) rfl h with h | ⟨h0, h⟩
    · exact .inl h
    · rcases whenBelow_next h with ⟨_, h⟩ | ⟨hl, h⟩
      · exact .inl (raised_reading rfl (by decide) h)
      · exact .inr ⟨h0, hl, next_inj (withElem_next h)⟩
  | set a b =>
    rcases live_cases_mutating (i := .set a b) rfl h with h | ⟨h0, h⟩
    · exact .inl h
    · rcases whenBelow_next h with ⟨_, h⟩ | ⟨hl, h⟩
      · exact .inl (raised_mutating rfl (by decide) h)
      · rcases orRaise_next h with ⟨e, he, h⟩ | ⟨v, hv, h⟩
        · exact .inl (raised_mutating rfl (condVal_error he) h)
        · obtain ⟨ha, rfl⟩ := condVal_ok (w_le _) hv
          exact .inr ⟨h0, hl, ha, next_inj (withElem_next h)⟩
  | len =>
    rcases live_cases_reading (i := .len) rfl h with h | ⟨h0, h⟩
    · exact .inl h
    · exact .inr ⟨h0, next_inj h⟩
  | capacity =>
    rcases live_cases_reading (i := .capacity) rfl h with h | ⟨h0, h⟩
    · exact .inl h
    · exact .inr ⟨h0, next_inj h⟩
  | isEmpty =>
    rcases live_cases_reading (i := .isEmpty) rfl h with h | ⟨h0, h⟩
    · exact .inl h
    · exact .inr ⟨h0, next_inj h⟩
  | width =>
    rcases live_cases_reading (i := .width) rfl h with h | ⟨h0, h⟩
    · exact .inl h
    · exact .inr ⟨h0, next_inj h⟩
  | push b =>
    rcases live_cases_mutating (i := .push b) rfl h with h | ⟨h0, h⟩
    · exact .inl h
    · rcases orRaise_next h with ⟨e, he, h⟩ | ⟨v, hv, h⟩
      · exact .inl (raised_mutating rfl (condVal_error he) h)
      · obtain ⟨ha, rfl⟩ := condVal_ok (w_le _) hv
        rcases orRaise_next h with ⟨e, he, h⟩ | ⟨g, hg, h⟩
        · exact .inl (raised_mutating rfl (roomForOne_error he) h)
        · obtain ⟨k, hk, rfl⟩ := roomForOne_ok hg
          exact .inr ⟨h0, ha, k, hk, next_inj (withElem_next h)⟩
  | pop =>
    rcases live_cases_mutating (i := .pop) rfl h with h | ⟨h0, h⟩
    · exact .inl h
    · split_ifs at h with hl
      · exact .inr ⟨h0, .inl ⟨hl, next_inj h⟩⟩
      · exact .inr ⟨h0, .inr ⟨hl, next_inj (withElem_next h)⟩⟩
  | insert a b =>
    rcases live_cases_mutating (i := .insert a b) rfl h with h | ⟨h0, h⟩
    · exact .inl h
    · rcases whenBelow_next h with ⟨_, h⟩ | ⟨hl, h⟩
      · exact .inl (raised_mutating rfl (by decide) h)
      · rcases orRaise_next h with ⟨e, he, h⟩ | ⟨v, hv, h⟩
        · exact .inl (raised_mutating rfl (condVal_error he) h)
        · obtain ⟨ha, rfl⟩ := condVal_ok (w_le _) hv
          rcases orRaise_next h with ⟨e, he, h⟩ | ⟨g, hg, h⟩
          · exact .inl (raised_mutating rfl (roomForOne_error he) h)
          · obtain ⟨k, hk, rfl⟩ := roomForOne_ok hg
            exact .inr ⟨h0, Nat.le_of_lt_succ hl, ha, k, hk, next_inj (withElem_next h)⟩
  | remove a =>
    rcases live_cases_mutating (i := .remove a) rfl h with h | ⟨h0, h⟩
    · exact .inl h
    · rcases whenBelow_next h with ⟨_, h⟩ | ⟨hl, h⟩
      · exact .inl (raised_mutating rfl (by decide) h)
      · exact .inr ⟨h0, hl, next_inj (withElem_next h)⟩
  | truncate a =>
    rcases live_cases_mutating (i := .truncate a) rfl h with h | ⟨h0, h⟩
    · exact .inl h
    · exact .inr ⟨h0, next_inj h⟩
  | reserve a =>
    rcases live_cases_mutating (i := .reserve a) rfl h with h | ⟨h0, h⟩
    · exact .inl h
    · rcases orRaise_next h with ⟨e, he, h⟩ | ⟨v, hv, h⟩
      · exact .inl (raised_mutating rfl (checkCap_error he) h)
      · split_ifs at h with hl
        · rcases orRaise_next h with ⟨e, he, h⟩ | ⟨g, hg, h⟩
          · exact .inl (raised_mutating rfl (grow_error he) h)
          · obtain ⟨hn, rfl⟩ := grow_ok hg
            exact .inr ⟨h0, .inr ⟨hl, hn, next_inj h⟩⟩
        · exact .inr ⟨h0, .inl ⟨Nat.le_of_not_lt hl, next_inj h⟩⟩
  | clear =>
    rcases live_cases_mutating (i := .clear) rfl h with h | ⟨h0, h⟩
    · exact .inl h
    · exact .inr ⟨h0, next_inj h⟩
  | iterStart =>
    rcases live_cases_reading (i := .iterStart) rfl h with h | ⟨h0, h⟩
    · exact .inl h
    · exact .inr ⟨h0, next_inj h⟩
  | iterNext =>
    rcases live_cases_reading (i := .iterNext) rfl h with h | ⟨h0, h⟩
    · exact .inl h
    · split_ifs at h with hv hl
      · exact .inl (raised_reading rfl (by decide) (raise_next h))
      · exact .inr ⟨h0, by simpa using hv, .inl ⟨hl, next_inj h⟩⟩
      · exact .inr ⟨h0, by simpa using hv, .inr ⟨Nat.lt_of_not_le hl, next_inj (withElem_next h)⟩⟩
  | decode a =>
    rcases live_cases_reading (i := .decode a) rfl h with h | ⟨h0, h⟩
    · exact .inl h
    · exact .inr ⟨h0, next_inj h⟩
  | rawLen =>
    rcases live_cases_reading (i := .rawLen) rfl h with h | ⟨h0, h⟩
    · exact .inl h
    · exact .inr ⟨h0, next_inj h⟩
  | rawRead a =>
    rcases live_cases_reading (i := .rawRead a) rfl h with h | ⟨h0, h⟩
    · exact .inl h
    · rcases whenBelow_next h with ⟨_, h⟩ | ⟨hl, h⟩
      · exact .inl (raised_reading rfl (by decide) h)
      · exact .inr ⟨h0, hl, next_inj (withWord_next h)⟩

/-- Clearing ITER_VALID before a mutating-class command runs, as acceptance does, changes nothing of its outcome. -/
theorem exec_entered (i : Instr) (s : State) : exec i (entered i s) = exec i s := by
  cases h : mutating i
  · rw [entered_of_not_mutating s h]
  · rw [entered_of_mutating s h]
    cases i <;> first | (cases h; done) | rfl

/-- The bit a failing status sets: bit c for code c (R172). -/
theorem errBit_eq (e : Status) (h : e ≠ .ok) : errBit e = BitVec.ofNat 16 (2 ^ e.code.toNat) := by
  cases e <;> first | exact absurd rfl h | rfl

/-- What every successful command answers and leaves alone: it answers OK, and touches neither the build, BUSY, the
command in progress, the host's inputs nor ERR_FLAGS. -/
theorem effect_frame {i : Instr} (h : Effect i s t) :
    (∃ r, t.rsp = some r ∧ r.status = .ok ∧ (r.b ≠ 0 → ∃ a, i = .decode a) ∧ (r.some = false → r.a = 0)) ∧
    t.params = s.params ∧ t.busy = s.busy ∧ t.pending = s.pending ∧ t.offers = s.offers ∧ t.pins = s.pins ∧
    t.errFlags = s.errFlags ∧ ((∀ a, i ≠ .rawRead a) → t.draws = s.draws) ∧ (mutating i = true → t.iterValid = false) ∧
    (mutating i = false → i ≠ .iterStart → t.iterValid = s.iterValid) ∧ (i = .iterStart → t.iterValid = true ∧ s.wReg ≠ 0) := by
  cases i <;> simp only [Effect] at h
  case push => obtain ⟨-, -, k, -, rfl⟩ := h; simp [mutating]
  case insert => obtain ⟨-, -, -, k, -, rfl⟩ := h; simp [mutating]
  case pop => obtain ⟨-, ⟨-, rfl⟩ | ⟨-, rfl⟩⟩ := h <;> simp [mutating]
  case reserve => obtain ⟨-, ⟨-, rfl⟩ | ⟨-, -, rfl⟩⟩ := h <;> simp [mutating]
  case iterNext => obtain ⟨-, -, ⟨-, rfl⟩ | ⟨-, rfl⟩⟩ := h <;> simp [mutating]
  case iterStart => obtain ⟨h0, rfl⟩ := h; refine ⟨⟨_, rfl, rfl, ?_, ?_⟩, ?_⟩ <;> simp [mutating]; exact h0
  case nop => subst h; simp [mutating]
  case status => subst h; simp [mutating]
  case new => obtain ⟨-, -, rfl⟩ := h; simp [mutating]
  case withCapacity => obtain ⟨-, -, -, rfl⟩ := h; simp [mutating]
  case newFilled => obtain ⟨-, -, -, -, rfl⟩ := h; simp [mutating]
  case set => obtain ⟨-, -, -, rfl⟩ := h; simp [mutating]
  case get => obtain ⟨-, -, rfl⟩ := h; simp [mutating]
  case remove => obtain ⟨-, -, rfl⟩ := h; simp [mutating]
  case rawRead => obtain ⟨-, -, rfl⟩ := h; simp [mutating]
  all_goals obtain ⟨-, rfl⟩ := h; simp [mutating]

end Sys2Proof.Machine
end

