-- ==== Sys2Proof/Laws/PerInstr.lean ====
section
/-! SUPPORT. The family EncodedWord: what holds of the encoding of every instruction, one lemma per constructor. -/
namespace Sys2Proof.Laws.EncodedWord

/-- The word of an instruction is selected by the row of R64 that bears its mnemonic, and decodes to it. -/
def Statement (i : Instr) : Prop :=
  (∃ r ∈ opcodeTable, r.mnemonic = i.mnemonic ∧ r.selects (encode i).word = true) ∧ decode (encode i) = some i

theorem getLsbD_maskC : ∀ i : Fin 32, (Format.mask .C).getLsbD i = decide (i.val < 8 ∨ 13 ≤ i.val) := by decide

/-- The row of a format C instruction selects every one of its words. -/
theorem selects_wordC (op : BitVec 8) (wf : Width) (mn : String) :
    (OpcodeRow.mk mn (op.setWidth 32) .C).selects (wordC op wf) = true := by
  refine decide_eq_true (BitVec.eq_of_getLsbD_eq fun i hi => ?_)
  rw [BitVec.getLsbD_and, getLsbD_wordC, getLsbD_maskC ⟨i, hi⟩, BitVec.getLsbD_setWidth]
  by_cases h8 : i < 8
  · simp [h8, hi, show ¬ 8 ≤ i by omega]
  · rw [BitVec.getLsbD_of_ge op i (by omega)]
    by_cases h13 : 13 ≤ i
    · simp [BitVec.getLsbD_of_ge wf (i - 8) (by omega)]
    · simp [h8, h13]

/-- The row of a format P instruction selects its word. -/
theorem selects_wordP (op : BitVec 8) (mn : String) :
    (OpcodeRow.mk mn (op.setWidth 32) .P).selects (wordP op) = true := by
  refine decide_eq_true ?_
  show op.setWidth 32 &&& BitVec.allOnes 32 = op.setWidth 32
  exact BitVec.and_allOnes

theorem row (r : OpcodeRow) {i : Instr} {w : CmdWord} (hr : r ∈ opcodeTable) (hm : r.mnemonic = i.mnemonic)
    (hs : r.selects w = true) : ∃ r ∈ opcodeTable, r.mnemonic = i.mnemonic ∧ r.selects w = true :=
  ⟨r, hr, hm, hs⟩

theorem nop : Statement .nop := by
  refine ⟨row ⟨"NOP", 0x00, .P⟩ (by decide) rfl (selects_wordP 0x00 _), ?_⟩
  exact decode_wordP 0x00 0 0 (by decide)

theorem new (wf : Width) : Statement (.new wf) := by
  refine ⟨row ⟨"NEW", 0x01, .C⟩ (by decide) rfl (selects_wordC 0x01 wf _), ?_⟩
  refine (decode_wordC 0x01 wf 0 0 (by decide)).trans ?_
  simp [decodeOp, opField_wordC, wfField_wordC]

theorem withCapacity (wf : Width) (a : Nat) : Statement (.withCapacity wf a) := by
  refine ⟨row ⟨"WITH_CAPACITY", 0x02, .C⟩ (by decide) rfl (selects_wordC 0x02 wf _), ?_⟩
  refine (decode_wordC 0x02 wf a 0 (by decide)).trans ?_
  simp [decodeOp, opField_wordC, wfField_wordC]

theorem newFilled (wf : Width) (a : Nat) (b : Val) : Statement (.newFilled wf a b) := by
  refine ⟨row ⟨"NEW_FILLED", 0x03, .C⟩ (by decide) rfl (selects_wordC 0x03 wf _), ?_⟩
  refine (decode_wordC 0x03 wf a b (by decide)).trans ?_
  simp [decodeOp, opField_wordC, wfField_wordC]

theorem drop : Statement .drop := by
  refine ⟨row ⟨"DROP", 0x04, .P⟩ (by decide) rfl (selects_wordP 0x04 _), ?_⟩
  exact decode_wordP 0x04 0 0 (by decide)

theorem get (a : Nat) : Statement (.get a) := by
  refine ⟨row ⟨"GET", 0x10, .P⟩ (by decide) rfl (selects_wordP 0x10 _), ?_⟩
  exact decode_wordP 0x10 a 0 (by decide)

theorem set (a : Nat) (b : Val) : Statement (.set a b) := by
  refine ⟨row ⟨"SET", 0x11, .P⟩ (by decide) rfl (selects_wordP 0x11 _), ?_⟩
  exact decode_wordP 0x11 a b (by decide)

theorem len : Statement .len := by
  refine ⟨row ⟨"LEN", 0x12, .P⟩ (by decide) rfl (selects_wordP 0x12 _), ?_⟩
  exact decode_wordP 0x12 0 0 (by decide)

theorem capacity : Statement .capacity := by
  refine ⟨row ⟨"CAPACITY", 0x13, .P⟩ (by decide) rfl (selects_wordP 0x13 _), ?_⟩
  exact decode_wordP 0x13 0 0 (by decide)

theorem isEmpty : Statement .isEmpty := by
  refine ⟨row ⟨"IS_EMPTY", 0x14, .P⟩ (by decide) rfl (selects_wordP 0x14 _), ?_⟩
  exact decode_wordP 0x14 0 0 (by decide)

theorem width : Statement .width := by
  refine ⟨row ⟨"WIDTH", 0x15, .P⟩ (by decide) rfl (selects_wordP 0x15 _), ?_⟩
  exact decode_wordP 0x15 0 0 (by decide)

theorem push (b : Val) : Statement (.push b) := by
  refine ⟨row ⟨"PUSH", 0x20, .P⟩ (by decide) rfl (selects_wordP 0x20 _), ?_⟩
  exact decode_wordP 0x20 0 b (by decide)

theorem pop : Statement .pop := by
  refine ⟨row ⟨"POP", 0x21, .P⟩ (by decide) rfl (selects_wordP 0x21 _), ?_⟩
  exact decode_wordP 0x21 0 0 (by decide)

theorem insert (a : Nat) (b : Val) : Statement (.insert a b) := by
  refine ⟨row ⟨"INSERT", 0x22, .P⟩ (by decide) rfl (selects_wordP 0x22 _), ?_⟩
  exact decode_wordP 0x22 a b (by decide)

theorem remove (a : Nat) : Statement (.remove a) := by
  refine ⟨row ⟨"REMOVE", 0x23, .P⟩ (by decide) rfl (selects_wordP 0x23 _), ?_⟩
  exact decode_wordP 0x23 a 0 (by decide)

theorem truncate (a : Nat) : Statement (.truncate a) := by
  refine ⟨row ⟨"TRUNCATE", 0x24, .P⟩ (by decide) rfl (selects_wordP 0x24 _), ?_⟩
  exact decode_wordP 0x24 a 0 (by decide)

theorem reserve (a : Nat) : Statement (.reserve a) := by
  refine ⟨row ⟨"RESERVE", 0x25, .P⟩ (by decide) rfl (selects_wordP 0x25 _), ?_⟩
  exact decode_wordP 0x25 a 0 (by decide)

theorem clear : Statement .clear := by
  refine ⟨row ⟨"CLEAR", 0x26, .P⟩ (by decide) rfl (selects_wordP 0x26 _), ?_⟩
  exact decode_wordP 0x26 0 0 (by decide)

theorem iterStart : Statement .iterStart := by
  refine ⟨row ⟨"ITER_START", 0x30, .P⟩ (by decide) rfl (selects_wordP 0x30 _), ?_⟩
  exact decode_wordP 0x30 0 0 (by decide)

theorem iterNext : Statement .iterNext := by
  refine ⟨row ⟨"ITER_NEXT", 0x31, .P⟩ (by decide) rfl (selects_wordP 0x31 _), ?_⟩
  exact decode_wordP 0x31 0 0 (by decide)

theorem decode (a : Nat) : Statement (.decode a) := by
  refine ⟨row ⟨"DECODE", 0x40, .P⟩ (by decide) rfl (selects_wordP 0x40 _), ?_⟩
  exact decode_wordP 0x40 a 0 (by decide)

theorem rawLen : Statement .rawLen := by
  refine ⟨row ⟨"RAW_LEN", 0x41, .P⟩ (by decide) rfl (selects_wordP 0x41 _), ?_⟩
  exact decode_wordP 0x41 0 0 (by decide)

theorem rawRead (a : Nat) : Statement (.rawRead a) := by
  refine ⟨row ⟨"RAW_READ", 0x42, .P⟩ (by decide) rfl (selects_wordP 0x42 _), ?_⟩
  exact decode_wordP 0x42 a 0 (by decide)

theorem status : Statement .status := by
  refine ⟨row ⟨"STATUS", 0x50, .P⟩ (by decide) rfl (selects_wordP 0x50 _), ?_⟩
  exact decode_wordP 0x50 0 0 (by decide)

end Sys2Proof.Laws.EncodedWord
end

