-- ==== Sys2Proof/Laws/Step.lean ====
section
/-! SUPPORT. Said once, what one clock can do, and what a captured command can do: every statement about `step` is
derived from these without unfolding it again. -/
namespace Sys2Proof.Machine

variable {s t : State}

/-- All a clock can do when it answers a next state: reset; hold or give up the response; run the command in progress;
wait for it; or, idle, look at the host's next command. -/
theorem step_next (h : step s = .next t) :
    (s.nowPins.rst = true ∧ t = resetEdge s.dropPins) ∨
    (s.nowPins.rst = false ∧
      ((∃ r, s.rsp = some r ∧ t = if s.nowPins.rspReady then takeResponse s.dropPins else s.dropPins) ∨
       (s.rsp = none ∧ ∃ c, s.pending = some ⟨c, 0⟩ ∧ runCommand c { s.dropPins with pending := none } = .next t) ∨
       (s.rsp = none ∧ ∃ c n, s.pending = some ⟨c, n + 1⟩ ∧ t = { s.dropPins with pending := some ⟨c, n⟩ }) ∨
       (s.rsp = none ∧ s.pending = none ∧ t = if s.busy then s.dropPins else hostOffers s.dropPins))) := by
  have hstep : step s = if s.nowPins.rst then .next (resetEdge s.dropPins)
      else if rspValid s.nowPins s.dropPins then
        .next (if s.nowPins.rspReady then takeResponse s.dropPins else s.dropPins)
      else match s.pending with
        | some q => work q s.dropPins
        | none => .next (if cmdReady s.nowPins s.dropPins then hostOffers s.dropPins else s.dropPins) := rfl
  rw [hstep] at h
  by_cases hr : s.nowPins.rst = true
  · rw [if_pos hr] at h; exact .inl ⟨hr, (Host.Outcome.next.inj h).symm⟩
  · rw [if_neg hr] at h
    have hr' : s.nowPins.rst = false := by simpa using hr
    refine .inr ⟨hr', ?_⟩
    have hv : rspValid s.nowPins s.dropPins = s.rsp.isSome := by simp [rspValid, hr', State.dropPins]
    have hc : cmdReady s.nowPins s.dropPins = !s.busy := by simp [cmdReady, hr', State.dropPins]
    rw [hv, hc] at h
    rcases hrsp : s.rsp with _ | r
    · rw [hrsp, if_neg (by simp)] at h
      right
      rcases hq : s.pending with _ | ⟨c, n⟩
      · rw [hq] at h
        refine .inr (.inr ⟨rfl, rfl, ?_⟩)
        rw [← Host.Outcome.next.inj h]
        cases s.busy <;> rfl
      · rw [hq] at h
        cases n with
        | zero => exact .inl ⟨rfl, c, rfl, h⟩
        | succ n => exact .inr (.inl ⟨rfl, c, n, rfl, (Host.Outcome.next.inj h).symm⟩)
    · rw [hrsp, if_pos (by simp)] at h
      exact .inl ⟨r, rfl, (Host.Outcome.next.inj h).symm⟩

/-- All a captured command can do: what its instruction does, or, illegal, answer ILLEGAL_COMMAND (R185). -/
theorem runCommand_next {c : Command} (h : runCommand c s = .next t) :
    (∃ i, decode c = some i ∧ exec i s = .next t) ∨ (decode c = none ∧ t = failWith .illegalCommand s) := by
  unfold runCommand at h
  cases hd : decode c with
  | none => rw [hd] at h; exact .inr ⟨rfl, (Host.Outcome.next.inj h).symm⟩
  | some i => rw [hd] at h; exact .inl ⟨i, rfl, h⟩

/-- A captured command answers as if acceptance had left ITER_VALID alone: its own meaning clears it too (R152). -/
theorem runCommand_startCommand (c : Command) (n : Nat) (s : State) :
    runCommand c { startCommand c n s with pending := none } = runCommand c { s with busy := true, pending := none } := by
  unfold runCommand
  cases hd : decode c with
  | none => simp [startCommand, clearsCursor_of_illegal hd]
  | some i =>
    have := exec_entered i { s with busy := true, pending := none }
    simpa [startCommand, entered, clearsCursor_of_decode hd] using this

theorem runFor_succ (n : Nat) (h : step s = .next t) : runFor (n + 1) s = runFor n t := by
  rw [runFor, h]

theorem runFor_one (s : State) : runFor 1 s = step s := by
  rw [runFor]
  cases step s <;> rfl

end Sys2Proof.Machine
end

