-- ==== Sys2Proof/Tests/Slice0.lean ====
section
/-! SUPPORT. Small checks of the model. Expected values come from the spec's own vectors (95_test_vectors.md, cited as
X, S, P and section numbers) and from the encodings of 30_encoding.md R64 to R66; and the witnesses that the
hypotheses of the statements can be met. -/
namespace Sys2Proof.Tests
open Sys2Proof.Machine

/-! ## Helpers -/

/-- The parameters the vectors use (95_test_vectors.md, conventions), with `m` words of storage. -/
def p32 (m : Nat) : Params := ⟨.w32, 32, m, .silent⟩

/-- The same under REJECT. -/
def p32r (m : Nat) : Params := ⟨.w32, 32, m, .reject⟩

/-- The same with WORD_BITS = 64. -/
def p64 (m : Nat) : Params := ⟨.w64, 32, m, .silent⟩

/-- A block with no array. -/
def dead (p : Params) : State := State.resetWith p []

/-- A live block: width, length, words, storage. -/
def live (p : Params) (w : Width) (len words : Nat) (mem : Memory) : State :=
  { State.resetWith p mem with wReg := w, length := len, words := words }

/-- The state a meaning or a step answers. -/
def nextOf : Result → Option State
  | .next t => some t
  | .fault _ => none
  | .refused _ => none

/-- The response a meaning or a step presents. -/
def rspOf (r : Result) : Option Response := (nextOf r).bind fun t => t.rsp

/-- The response `OK some=1 a=v b=y`. -/
def okA (v : Word) (y : BitVec 8 := 0) : Option Response := some ⟨.ok, true, v, y⟩

/-- The response `OK`. -/
def ok : Option Response := some ⟨.ok, false, 0, 0⟩

/-- An error response. -/
def err (e : Status) : Option Response := some ⟨e, false, 0, 0⟩

/-! ## WellFormed: operand A has IDX_BITS bits (R8, R12) -/

theorem test_wf_accepts_widest : WellFormed (p32 16) (.get 0xFFFFFFFF) = true ∧
    WellFormed (p32 16) (.newFilled 31 0xFFFFFFFF 0xFFFFFFFF) = true := by decide

theorem test_wf_refuses_withCapacity : WellFormed (p32 16) (.withCapacity 5 0x100000000) = false := by decide
theorem test_wf_refuses_newFilled : WellFormed (p32 16) (.newFilled 5 0x100000000 0) = false := by decide
theorem test_wf_refuses_get : WellFormed (p32 16) (.get 0x100000000) = false := by decide
theorem test_wf_refuses_set : WellFormed (p32 16) (.set 0x100000000 0) = false := by decide
theorem test_wf_refuses_insert : WellFormed (p32 16) (.insert 0x100000000 0) = false := by decide
theorem test_wf_refuses_remove : WellFormed (p32 16) (.remove 0x100000000) = false := by decide
theorem test_wf_refuses_truncate : WellFormed (p32 16) (.truncate 0x100000000) = false := by decide
theorem test_wf_refuses_reserve : WellFormed (p32 16) (.reserve 0x100000000) = false := by decide
theorem test_wf_refuses_decode : WellFormed (p32 16) (.decode 0x100000000) = false := by decide
theorem test_wf_refuses_rawRead : WellFormed (p32 16) (.rawRead 0x100000000) = false := by decide

/-! ## Decoding: a word for every constructor, written out from R64 -/

/-- `cmd_word = {19'b0, WF, OP}`: NEW 5, WITH_CAPACITY 7 and NEW_FILLED 31, bit by bit. -/
theorem test_decode_constructors :
    decode ⟨0b00000000000000000000010100000001, 0, 0⟩ = some (.new 5) ∧
    decode ⟨0b00000000000000000000011100000010, 10, 0⟩ = some (.withCapacity 7 10) ∧
    decode ⟨0b00000000000000000001111100000011, 9, 0x7F⟩ = some (.newFilled 31 9 0x7F) := by decide

theorem test_decode_lifecycle : decode ⟨0b00000000000000000000000000000100, 0, 0⟩ = some .drop := by decide

/-- `cmd_word = {24'b0, OP}`. -/
theorem test_decode_access :
    decode ⟨0b00000000000000000000000000010000, 3, 0⟩ = some (.get 3) ∧
    decode ⟨0b00000000000000000000000000010001, 4, 0xD5⟩ = some (.set 4 0xD5) ∧
    decode ⟨0x00000012, 0, 0⟩ = some .len ∧ decode ⟨0x00000013, 0, 0⟩ = some .capacity ∧
    decode ⟨0x00000014, 0, 0⟩ = some .isEmpty ∧ decode ⟨0x00000015, 0, 0⟩ = some .width := by decide

theorem test_decode_growth :
    decode ⟨0b00000000000000000000000000100000, 0, 0x1F⟩ = some (.push 0x1F) ∧
    decode ⟨0b00000000000000000000000000100101, 10, 0⟩ = some (.reserve 10) := by decide

theorem test_decode_shrink :
    decode ⟨0b00000000000000000000000000100001, 0, 0⟩ = some .pop ∧
    decode ⟨0x00000022, 4, 1⟩ = some (.insert 4 1) ∧ decode ⟨0x00000023, 1, 0⟩ = some (.remove 1) ∧
    decode ⟨0x00000024, 2, 0⟩ = some (.truncate 2) ∧ decode ⟨0x00000026, 0, 0⟩ = some .clear := by decide

theorem test_decode_iteration :
    decode ⟨0b00000000000000000000000000110000, 0, 0⟩ = some .iterStart ∧
    decode ⟨0b00000000000000000000000000110001, 0, 0⟩ = some .iterNext := by decide

theorem test_decode_raw_and_system :
    decode ⟨0b00000000000000000000000001000000, 4, 0⟩ = some (.decode 4) ∧
    decode ⟨0b00000000000000000000000001000001, 0, 0⟩ = some .rawLen ∧
    decode ⟨0b00000000000000000000000001000010, 1, 0⟩ = some (.rawRead 1) ∧
    decode ⟨0b00000000000000000000000001010000, 0, 0⟩ = some .status ∧
    decode ⟨0b00000000000000000000000000000000, 0, 0⟩ = some .nop := by decide

/-- An operand a command does not read "is ignored, whatever its value" (R61). -/
theorem test_decode_ignores_unread_operands : decode ⟨0x00000012, 77, 0xFFFFFFFF⟩ = some .len := by decide

/-- Section 2.8: reserved opcodes and reserved bits. -/
theorem test_decode_refuses :
    decode ⟨0x00000110, 0, 0⟩ = none ∧ decode ⟨0x00000099, 0, 0⟩ = none ∧ decode ⟨0x00000005, 0, 0⟩ = none ∧
    decode ⟨0x00000051, 0, 0⟩ = none ∧ decode ⟨0x000000FF, 0, 0⟩ = none ∧ decode ⟨0x80000012, 0, 0⟩ = none ∧
    decode ⟨0x00001F13, 0, 0⟩ = none ∧ decode ⟨0x00002001, 0, 0⟩ = none ∧ decode ⟨0x00000120, 0, 0⟩ = none := by
  decide

/-- The words of programs P1 and P2 are the encoder's. -/
theorem test_encode_words :
    (encode (.new 5)).word = 0x00000501 ∧ (encode (.newFilled 7 9 0x7F)).word = 0x00000703 ∧
    (encode (.remove 1)).word = 0x00000023 ∧ (encode .status).word = 0x00000050 := by decide

/-- A table word, whose operands are zero. -/
theorem test_decodeTableWord :
    decodeTableWord 32 0x00000703 = some (.newFilled 7 0 0) ∧ decodeTableWord 32 0x00000022 = some (.insert 0 0) ∧
    decodeTableWord 32 0x00000099 = none := by decide

/-! ## Construction and destruction (section 2.4) -/

theorem test_new : (nextOf (exec (.new 5) (dead (p32 16)))).map (fun t => (t.wReg, t.length, t.words, t.rsp)) =
    some (5, 0, 0, ok) := by decide

theorem test_new_zero_live_and_dead :
    rspOf (exec (.new 0) (dead (p32 16))) = err .badWidth ∧
    rspOf (exec (.new 0) (live (p32 16) 5 0 0 [])) = err .alreadyConstructed := by decide

theorem test_withCapacity :
    (nextOf (exec (.withCapacity 7 10) (dead (p32 16)))).map (fun t => (t.words, t.capacity, t.length)) =
      some (3, 13, 0) := by decide

/-- `WITH_CAPACITY 31, 3` with MAX_WORDS = 2: ALLOC_FAILED, still not live. -/
theorem test_withCapacity_allocFailed :
    (nextOf (exec (.withCapacity 31 3) (dead (p32 2)))).map (fun t => (t.rsp, t.wReg)) =
      some (err .allocFailed, 0) := by decide

theorem test_newFilled : (nextOf (exec (.newFilled 5 4 3) (dead (p32 16)))).map (fun t => (t.words, t.length, t.mem)) =
    some (1, 4, [(0, 0x18C63)]) := by decide

theorem test_newFilled_reject : rspOf (exec (.newFilled 5 2 0x20) (dead (p32r 16))) = err .valueTooWide := by decide

/-- DROP keeps ERR_FLAGS (2.9) and the storage. -/
theorem test_drop :
    (nextOf (exec .drop { live (p32 16) 5 4 1 [(0, 0x3C01F)] with errFlags := 0x27E })).map
      (fun t => (t.wReg, t.words, t.errFlags, t.mem)) = some (0, 0, 0x27E, [(0, 0x3C01F)]) := by decide

/-! ## Access (X3, sections 2.2 and 2.3) -/

theorem test_get_spanning :
    rspOf (exec (.get 4) (live (p32 16) 7 9 2 [(0, 0x5FFFFFFF), (1, 0x7FFFFFFD)])) = okA 0x55 := by decide

theorem test_get_outOfRange : rspOf (exec (.get 4) (live (p32 16) 5 4 1 [])) = err .indexOutOfRange := by decide

theorem test_set_spanning :
    (nextOf (exec (.set 4 0) (live (p32 16) 7 9 2 [(0, 0xFFFFFFFF), (1, 0x7FFFFFFF)]))).map (fun t => t.mem) =
      some [(0, 0x0FFFFFFF), (1, 0x7FFFFFF8)] := by decide

/-- WORD_BITS = 64, W = 31, `SET 2, 0x12345678`. -/
theorem test_set_wide_word :
    (nextOf (exec (.set 2 0x12345678) (live (p64 16) 31 3 2 [(0, 0x7FFFFFFF)]))).map (fun t => t.mem) =
      some [(0, 0x7FFFFFFF), (1, 0x048D159E)] := by decide

theorem test_len : rspOf (exec .len (live (p32 16) 5 4 1 [])) = okA 4 := by decide

theorem test_capacity : rspOf (exec .capacity (live (p32 16) 7 0 2 [])) = okA 9 ∧
    rspOf (exec .capacity (live (p64 16) 31 0 2 [])) = okA 4 := by decide

theorem test_isEmpty : rspOf (exec .isEmpty (live (p32 16) 5 0 0 [])) = okA 1 ∧
    rspOf (exec .isEmpty (live (p32 16) 5 4 1 [])) = okA 0 := by decide

theorem test_width : rspOf (exec .width (live (p32 16) 5 0 0 [])) = okA 5 := by decide

/-! ## Growth (sections 2.4 and 2.8, P1) -/

/-- P1, row 5. -/
theorem test_push :
    (nextOf (exec (.push 7) (live (p32 16) 5 3 1 [(0, 0x401F)]))).map (fun t => (t.length, t.words, t.mem)) =
      some (4, 1, [(0, 0x3C01F)]) := by decide

/-- The thirteenth push of W = 5 grows to 4 words of 25 elements; a fifth push with MAX_WORDS = 4, W = 31 fails. -/
theorem test_push_grows :
    (nextOf (exec (.push 0) (live (p32 16) 5 12 2 []))).map (fun t => (t.words, t.capacity)) = some (4, 25) ∧
    rspOf (exec (.push 1) (live (p32 4) 31 4 4 [])) = err .allocFailed := by decide

theorem test_reserve : (nextOf (exec (.reserve 10) (live (p32 16) 5 3 1 []))).map (fun t => (t.words, t.capacity)) =
    some (3, 19) := by decide

theorem test_reserve_overflow :
    rspOf (exec (.reserve 0xFFFFFFFF) (live (p32 16) 5 4 1 [])) = err .capacityOverflow := by decide

/-! ## Shrink and shift (section 2.5) -/

theorem test_pop : (nextOf (exec .pop (live (p32 16) 5 4 1 [(0, 0x3C01F)]))).map (fun t => (t.rsp, t.length)) =
    some (okA 7, 3) := by decide

theorem test_pop_empty : rspOf (exec .pop (live (p32 16) 5 0 0 [])) = ok := by decide

/-- Vector S3: the insert grows first, then shifts across two word boundaries. -/
theorem test_insert :
    (nextOf (exec (.insert 0 0x7F) (live (p32 16) 7 9 2 [(0, 0x5080C101), (1, 0x09101C30)]))).map
      (fun t => (t.length, t.words, t.mem)) =
        some (10, 4, [(0, 0x406080FF), (1, 0x880E1828), (2, 0x00000004)]) := by decide

/-- Section 2.8: the index is checked first, and ERR_FLAGS accumulates from 0x88 to 0x8A. -/
theorem test_insert_precedence :
    (nextOf (exec (.insert 9 99) { live (p32r 1) 5 6 1 [] with errFlags := 0x88 })).map
      (fun t => (t.rsp, t.errFlags)) = some (err .indexOutOfRange, 0x8A) := by decide

/-- Vector S1, the undefined bits 19:15 as the vector prints them. -/
theorem test_remove :
    (nextOf (exec (.remove 1) (live (p32 16) 5 4 1 [(0, 0x3C01F)]))).map (fun t => (t.rsp, t.length, t.mem)) =
      some (okA 0, 3, [(0, 0x39E1F)]) := by decide

/-- Vector S4. -/
theorem test_truncate : (nextOf (exec (.truncate 2) (live (p32 16) 5 4 1 []))).map (fun t => t.length) = some 2 ∧
    (nextOf (exec (.truncate 9) (live (p32 16) 5 2 1 []))).map (fun t => t.length) = some 2 := by decide

theorem test_clear : (nextOf (exec .clear (live (p32 16) 5 4 1 []))).map (fun t => (t.length, t.words)) =
    some (0, 1) := by decide

/-! ## Iteration (section 2.6) -/

theorem test_iterStart :
    (nextOf (exec .iterStart { live (p32 16) 3 2 1 [(0, 0x35)] with iterPos := 2 })).map
      (fun t => (t.iterValid, t.iterPos, t.rsp)) = some (true, 0, ok) := by decide

theorem test_iterNext :
    (nextOf (exec .iterNext { live (p32 16) 3 2 1 [(0, 0x35)] with iterPos := 1, iterValid := true })).map
      (fun t => (t.iterPos, t.rsp)) = some (2, okA 6) := by decide

theorem test_iterNext_invalidated : rspOf (exec .iterNext (live (p32 16) 3 2 1 [(0, 0x35)])) = err .iterInvalidated := by
  decide

/-! ## Decoder diagnostic, raw words, system (sections 2.1, 2.7, 2.8) -/

theorem test_decode_spans : rspOf (exec (.decode 4) (live (p32 16) 7 0 0 [])) = okA 0 0x5C ∧
    rspOf (exec (.decode 21) (live (p64 16) 3 0 0 [])) = okA 0 0x7F := by decide

/-- The largest index: the bit position needs 37 bits. -/
theorem test_decode_largest : rspOf (exec (.decode 0xFFFFFFFF) (live (p32 16) 31 0 0 [])) = okA 0xF7FFFFFF 0x01 := by
  decide

theorem test_rawLen : rspOf (exec .rawLen (live (p32 16) 5 4 2 [])) = okA 1 ∧
    rspOf (exec .rawLen (live (p64 16) 31 3 2 [])) = okA 2 := by decide

/-- W = 1, 33 elements, all ones: word 0 is wholly defined, whatever is drawn. -/
theorem test_rawRead :
    rspOf (exec (.rawRead 0) (live (p32 16) 1 33 2 [(0, 0xFFFFFFFF), (1, 1)])) = okA 0xFFFFFFFF := by
  show okA ((0xFFFFFFFF#64 &&& 0xFFFFFFFF#64) |||
    ((Config.freeWord 0 &&& 0xFFFFFFFF#64) &&& ~~~0xFFFFFFFF#64)) = okA 0xFFFFFFFF
  rw [BitVec.and_assoc, show 0xFFFFFFFF#64 &&& ~~~0xFFFFFFFF#64 = 0#64 by decide]
  simp

/-- Word 2 is allocated to nothing, although WORDS = 2. -/
theorem test_rawRead_outOfRange :
    rspOf (exec (.rawRead 2) (live (p32 16) 1 33 2 [(0, 0xFFFFFFFF), (1, 1)])) = err .indexOutOfRange := by decide

theorem test_status : (nextOf (exec .status { dead (p32 16) with errFlags := 0x27E })).map
    (fun t => (t.rsp, t.errFlags)) = some (okA 0x27E, 0x27E) := by decide

theorem test_nop : rspOf (exec .nop (dead (p32 16))) = ok := by decide

/-- Section 2.6: word 0x00000120 answers ILLEGAL_COMMAND and leaves ITER_VALID. -/
theorem test_illegal_keeps_cursor :
    (nextOf (runCommand ⟨0x00000120, 0, 0⟩ { live (p32 16) 3 2 1 [(0, 0x35)] with iterValid := true })).map
      (fun t => (t.rsp, t.iterValid, t.errFlags)) = some (err .illegalCommand, true, 0x200) := by decide

/-! ## The ports and reset (R60, R63, R190, R191) -/

/-- A presented command is accepted by an idle block. -/
theorem test_accept :
    (nextOf (step { dead (p32 16) with offers := [⟨⟨0x00000501, 0, 0⟩, 0, 2⟩] })).map
      (fun t => (t.busy, t.pending, t.offers)) = some (true, some ⟨⟨0x00000501, 0, 0⟩, 2⟩, []) := by decide

/-- Acceptance clears ITER_VALID for a legal mutating-class command (RESERVE) and not for LEN (R152), nor for word
0x00000120, a PUSH with a reserved bit set (section 2.6). -/
theorem test_accept_clears_cursor :
    ([0x00000025, 0x00000012, 0x00000120] : List CmdWord).map (fun w =>
      (nextOf (step { live (p32 16) 3 2 1 [(0, 0x35)] with
        iterValid := true, offers := [⟨⟨w, 0, 0⟩, 0, 2⟩] })).map fun t => (t.busy, t.iterValid)) =
      [some (true, false), some (true, true), some (true, true)] := by decide

/-- A response is held while `rsp_ready = 0`, and taken when it is 1. -/
theorem test_response :
    (nextOf (step { dead (p32 16) with busy := true, rsp := ok, pins := [⟨false, false⟩] })).map
      (fun t => (t.busy, t.rsp)) = some (true, ok) ∧
    (nextOf (step { dead (p32 16) with busy := true, rsp := ok, pins := [⟨false, true⟩] })).map
      (fun t => (t.busy, t.rsp)) = some (false, none) := by decide

/-- `rst` while a PUSH is in progress: no response, the reset state. -/
theorem test_reset_abandons :
    (nextOf (step { live (p32 16) 5 4 1 [] with
      busy := true, pending := some ⟨⟨0x00000020, 0, 7⟩, 0⟩, errFlags := 0x27E, pins := [⟨true, true⟩] })).map
        (fun t => (t.wReg, t.busy, t.rsp, t.pending, t.errFlags)) = some (0, false, none, none, 0) := by decide

/-- The first command after reset, placed: LEN answers NOT_CONSTRUCTED (section 2.9). -/
theorem test_placed_word : rspOf (step (State.reset.withFetchWord 32 0x00000012)) = err .notConstructed := by decide

/-! ## States for the witnesses -/

def sDead : State := dead (p32 16)
def sDeadReject : State := dead (p32r 16)
def sDeadSmall : State := dead (p32 2)
/-- W = 5, elements [31, 0, 16, 7], CAPACITY = 6. -/
def sRoom : State := live (p32 16) 5 4 1 [(0, 0x3C01F)]
/-- W = 5, LENGTH = CAPACITY = 6, and the RAM has more words. -/
def sFull : State := live (p32 16) 5 6 1 [(0, 0x3C01F)]
/-- W = 5, LENGTH = CAPACITY = 6, and the RAM has no more words. -/
def sStuck : State := live (p32 1) 5 6 1 [(0, 0x3C01F)]
/-- As `sRoom`, under REJECT. -/
def sReject : State := live (p32r 16) 5 4 1 [(0, 0x3C01F)]
/-- W = 5, just constructed. -/
def sEmpty : State := live (p32 16) 5 0 0 []
/-- WORD_BITS = 64, W = 31, an element that spans. -/
def sWide : State := live (p64 16) 31 3 2 [(0, 0x7FFFFFFF), (1, 0x048D159E)]
/-- W = 3, elements [5, 6], the cursor on element 1. -/
def sIter : State := { live (p32 16) 3 2 1 [(0, 0x35)] with iterPos := 1, iterValid := true }
/-- The same, the cursor at the end. -/
def sEnd : State := { sIter with iterPos := 2 }
/-- A LEN in progress, two more clocks to go; then the same with none to go. -/
def sWaiting : State := { sRoom with busy := true, pending := some ⟨⟨0x00000012, 0, 0⟩, 2⟩ }
def sRunning : State := { sRoom with busy := true, pending := some ⟨⟨0x00000012, 0, 0⟩, 0⟩ }
/-- An idle block whose host presents PUSH 7 now. -/
def sOffered : State := { sRoom with offers := [⟨⟨0x00000020, 0, 7⟩, 0, 2⟩] }
/-- A response waits. -/
def sAnswered : State := { sRoom with busy := true, rsp := okA 4 }

theorem inv_sDead : ArrayInv sDead := by constructor <;> decide
theorem inv_sDeadReject : ArrayInv sDeadReject := by constructor <;> decide
theorem inv_sDeadSmall : ArrayInv sDeadSmall := by constructor <;> decide
theorem inv_sRoom : ArrayInv sRoom := by constructor <;> decide
theorem inv_sFull : ArrayInv sFull := by constructor <;> decide
theorem inv_sStuck : ArrayInv sStuck := by constructor <;> decide
theorem inv_sReject : ArrayInv sReject := by constructor <;> decide
theorem inv_sEmpty : ArrayInv sEmpty := by constructor <;> decide
theorem inv_sWide : ArrayInv sWide := by constructor <;> decide
theorem inv_sIter : ArrayInv sIter := by constructor <;> decide
theorem inv_sEnd : ArrayInv sEnd := by constructor <;> decide
theorem port_sWaiting : PortInv sWaiting := by constructor <;> decide
theorem inv_sWaiting : Inv sWaiting := ⟨{ inv_sRoom with }, port_sWaiting⟩
theorem inv_sRunning : Inv sRunning := ⟨{ inv_sRoom with }, by constructor <;> decide⟩
theorem inv_sOffered : Inv sOffered := ⟨{ inv_sRoom with }, by constructor <;> decide⟩
theorem inv_sAnswered : Inv sAnswered := ⟨{ inv_sRoom with }, by constructor <;> decide⟩

/-! ## Witnesses: the hypotheses of every statement that has some, met together, clause by clause -/

theorem witness_DecodeOfEncodedSignals : WellFormed (p32 16) (.newFilled 31 0xFFFFFFFF 0xFFFFFFFF) = true := by decide

theorem witness_OneRowOrNoneSelectsAWord :
    (⟨"NEW_FILLED", 0x03, .C⟩ ∈ opcodeTable ∧ OpcodeRow.selects ⟨"NEW_FILLED", 0x03, .C⟩ 0x00001F03 = true) ∧
    (∀ r ∈ opcodeTable, r.selects 0x00000099 = false) :=
  ⟨⟨by simp [opcodeTable], by decide⟩, by simp [opcodeTable, OpcodeRow.selects, Format.mask]⟩

/-- Both ends of every reserved range, and a nonzero reserved bit in each format. -/
theorem witness_IllegalWordAnswersIllegalCommand :
    ∀ w ∈ ([0x05, 0x0F, 0x16, 0x1F, 0x27, 0x2F, 0x32, 0x3F, 0x43, 0x4F, 0x51, 0xFF, 0x2001, 0x110] : List CmdWord),
      ∃ op, op = w.toNat % 256 ∧
        ((0x05 ≤ op ∧ op ≤ 0x0F) ∨ (0x16 ≤ op ∧ op ≤ 0x1F) ∨ (0x27 ≤ op ∧ op ≤ 0x2F) ∨ (0x32 ≤ op ∧ op ≤ 0x3F) ∨
          (0x43 ≤ op ∧ op ≤ 0x4F) ∨ (0x51 ≤ op ∧ op ≤ 0xFF) ∨
          ((op = 0x01 ∨ op = 0x02 ∨ op = 0x03) ∧ w.toNat / 2 ^ 13 ≠ 0) ∨
          (¬ (op = 0x01 ∨ op = 0x02 ∨ op = 0x03) ∧ w.toNat / 2 ^ 8 ≠ 0)) := by
  intro w hw
  refine ⟨_, rfl, ?_⟩
  fin_cases hw <;> decide

theorem witness_StepRunsDecodedCommand :
    (sRunning.pins.headD ⟨false, true⟩).rst = false ∧ sRunning.rsp = none ∧
    sRunning.pending = some ⟨⟨0x00000012, 0, 0⟩, 0⟩ ∧ decode ⟨0x00000012, 0, 0⟩ = some .len ∧
    (({ sRunning with pending := some ⟨⟨0x00000099, 0, 0⟩, 0⟩ } : State).rsp = none ∧
      decode ⟨0x00000099, 0, 0⟩ = none) := by decide

theorem witness_PlacedWordRunsNext :
    decode (Command.ofTableWord sRoom.params 32 0x00000703) = some (.newFilled 7 0 0) := by decide

theorem witness_HandshakeAcceptsAndTakes :
    ((sOffered.pins.headD ⟨false, true⟩).rst = false ∧ sOffered.busy = false ∧ sOffered.rsp = none ∧
      sOffered.pending = none ∧ sOffered.offers = [⟨⟨0x00000020, 0, 7⟩, 0, 2⟩]) ∧
    (sAnswered.pins.headD ⟨false, true⟩ = ⟨false, true⟩ ∧ sAnswered.rsp = okA 4) ∧
    (({ sAnswered with pins := [⟨false, false⟩] } : State).pins.headD ⟨false, true⟩ = ⟨false, false⟩) := by decide

theorem witness_BusyBlockAcceptsNothing : PortInv sWaiting ∧ sWaiting.busy = true ∧
    (sWaiting.pins.headD ⟨false, true⟩).rst = false ∧ sWaiting.rsp = none ∧ ∃ t, step sWaiting = .next t :=
  ⟨port_sWaiting, rfl, rfl, rfl, _, rfl⟩

theorem witness_ResetEdgeGivesResetValues :
    (({ sWaiting with pins := [⟨true, true⟩] } : State).pins.headD ⟨false, true⟩).rst = true := by decide

theorem witness_AcceptedCommandIsAnswered : Inv sWaiting ∧ sWaiting.pending = some ⟨⟨0x00000012, 0, 0⟩, 2⟩ ∧
    ∀ q ∈ sWaiting.pins.take 3, q.rst = false := ⟨inv_sWaiting, rfl, by decide⟩

theorem witness_LatencyDoesNotChangeTheResult : Inv sOffered ∧ sOffered.busy = false ∧
    sOffered.offers = [⟨⟨0x00000020, 0, 7⟩, 0, 2⟩] ∧ ∀ q ∈ sOffered.pins.take 4, q.rst = false :=
  ⟨inv_sOffered, rfl, rfl, by decide⟩

theorem witness_StepKeepsInvariant : Inv sRunning ∧ ∃ t, step sRunning = .next t := ⟨inv_sRunning, _, rfl⟩

theorem witness_SoundStepNeverStops : Inv sRunning ∧ Inv sAnswered := ⟨inv_sRunning, inv_sAnswered⟩

/-- The smallest RAM of a 64-bit build with the widest index, storage not blank. -/
theorem witness_ResetMeetsInvariant :
    Params.wf ⟨.w64, 64, 1, .reject⟩ = true ∧ Memory.wf [(0, 1)] = true ∧
    Memory.fits ⟨.w64, 64, 1, .reject⟩ [(0, 1)] = true := by decide

theorem witness_SoundCommandCompletesSound : ArrayInv sDead ∧ ArrayInv sStuck ∧ ArrayInv sWide :=
  ⟨inv_sDead, inv_sStuck, inv_sWide⟩

/-- A failing command, and one that succeeds (for the statements of both). -/
theorem witness_FailedCommandWritesNothing : ∃ t r, exec (.get 9) sRoom = .next t ∧ t.rsp = some r ∧ r.status ≠ .ok :=
  ⟨_, _, rfl, rfl, by decide⟩

theorem witness_ErrFlagsRecordTheStatus : (∃ t r, exec (.get 9) sRoom = .next t ∧ t.rsp = some r) ∧
    ∃ t r, exec .status sRoom = .next t ∧ t.rsp = some r := ⟨⟨_, _, rfl, rfl⟩, _, _, rfl, rfl⟩

theorem witness_OnlyResetClearsErrFlags : ∃ t, step sRunning = .next t ∧
    (sRunning.pins.headD ⟨false, true⟩).rst = false ∧ sRunning.errFlags &&& 0xFC01 = 0 :=
  ⟨_, rfl, by decide, by decide⟩

theorem witness_EveryCommandAnswersAndKeepsThePorts : ∃ t, exec (.decode 4) sRoom = .next t := ⟨_, rfl⟩

theorem witness_MutatingCommandClearsCursor :
    (∃ t, exec (.reserve 0) sIter = .next t ∧ mutating (.reserve 0) = true) ∧
    (∃ t, exec .len sIter = .next t ∧ mutating .len = false) ∧ (∃ t, exec .iterStart sIter = .next t) ∧
    (∃ t, decode ⟨0x120, 0, 0⟩ = none ∧ runCommand ⟨0x120, 0, 0⟩ sIter = .next t) ∧
    ((sOffered.pins.headD ⟨false, true⟩).rst = false ∧ sOffered.busy = false ∧ sOffered.rsp = none ∧
      sOffered.pending = none ∧ sOffered.offers = [⟨⟨0x00000020, 0, 7⟩, 0, 2⟩] ∧
      decode ⟨0x00000020, 0, 7⟩ = some (.push 7) ∧ mutating (.push 7) = true ∧
      decode ⟨0x00000012, 0, 0⟩ = some .len ∧ mutating .len = false ∧ decode ⟨0x120, 0, 0⟩ = none) :=
  ⟨⟨_, rfl, rfl⟩, ⟨_, rfl, rfl⟩, ⟨_, rfl⟩, ⟨_, by decide, rfl⟩, by decide⟩

theorem witness_OnlyConstructorsAndDropWriteWidth :
    (∃ t, exec (.new 31) sDead = .next t ∧ t.wReg = 31) ∧ (∃ t, exec .drop sRoom = .next t ∧ t.wReg = 0) :=
  ⟨⟨_, rfl, rfl⟩, _, rfl, rfl⟩

theorem witness_WordsNeverShrinkWhileLive :
    (ArrayInv sFull ∧ sFull.wReg ≠ 0 ∧ ∃ t, exec (.push 1) sFull = .next t) ∧
    (ArrayInv sRoom ∧ sRoom.wReg ≠ 0 ∧ ∃ t, exec (.truncate 2) sRoom = .next t) :=
  ⟨⟨inv_sFull, by decide, _, rfl⟩, inv_sRoom, by decide, _, rfl⟩

theorem witness_ReadsHaveNoSideEffect :
    ∃ t r, readOnly .capacity = true ∧ exec .capacity sRoom = .next t ∧ t.rsp = some r ∧ r.status = .ok :=
  ⟨_, _, rfl, rfl, rfl, rfl⟩

theorem witness_LifecycleDecidesLegality :
    (sDead.wReg = 0 ∧ always .pop = false ∧ isConstructor .pop = false) ∧
    (sRoom.wReg ≠ 0 ∧ isConstructor (.new 5) = true) ∧
    ((sDead.wReg = 0 ∧ always .status = true) ∧ ∃ t r, exec .status sDead = .next t ∧ t.rsp = some r) ∧
    ((sDead.wReg = 0 ∧ isConstructor (.new 0) = true) ∧ ∃ t r, exec (.new 0) sDead = .next t ∧ t.rsp = some r) ∧
    ((sRoom.wReg ≠ 0 ∧ isConstructor (.get 4) = false) ∧ ∃ t r, exec (.get 4) sRoom = .next t ∧ t.rsp = some r) :=
  ⟨by decide, by decide, ⟨by decide, _, _, rfl, rfl⟩, ⟨by decide, _, _, rfl, rfl⟩, by decide, _, _, rfl, rfl⟩

/-- An element that spans (R80), and the widest. -/
theorem witness_ElementSpansAtMostTwoWords : (locate (p32 16) 7 4).span = true ∧ (locate (p32 16) 31 1).span = true ∧
    (locate (p64 16) 31 2).span = true := by decide

/-- The least and the greatest width, one that divides and one that does not. -/
theorem witness_ElementsSpanUnlessWidthDivides :
    (1 ≤ 1 ∧ 1 ≤ 31 ∧ (p32 16).wordBits % 1 = 0) ∧ (1 ≤ 31 ∧ 31 ≤ 31 ∧ (p64 16).wordBits % 31 ≠ 0) := by decide

theorem witness_ElementsBelowCapacityAreAllocated :
    5 < sRoom.capacity ∧ (3 < sWide.capacity ∧ (locate sWide.params sWide.w 2).span = true) := by decide

theorem witness_MuxMovesExactlyTheElementsBits :
    sWide.mem.wf = true ∧ sWide.mem.fits sWide.params = true ∧ (0x7FFFFFFF#32).toNat < 2 ^ 31 := by decide

theorem witness_SetThenGetAndNeighboursKept :
    (ArrayInv sRoom ∧ sRoom.wReg ≠ 0 ∧ 3 < sRoom.length ∧ accepts sRoom.params sRoom.w 0xFFFFFFFF ∧ 2 ≠ 3) ∧
    (ArrayInv sReject ∧ sReject.wReg ≠ 0 ∧ 0 < sReject.length ∧ accepts sReject.params sReject.w 31) :=
  ⟨⟨inv_sRoom, by decide⟩, inv_sReject, by decide⟩

theorem witness_DerivedSizesAgree : (ArrayInv sEmpty ∧ sEmpty.wReg ≠ 0) ∧ (ArrayInv sWide ∧ sWide.wReg ≠ 0) :=
  ⟨⟨inv_sEmpty, by decide⟩, inv_sWide, by decide⟩

/-- A need just above the RAM, and one just within it. -/
theorem witness_GrowthKeepsItsLaws :
    (ArrayInv sStuck ∧ sStuck.wReg ≠ 0 ∧ 2 = (7 * sStuck.w + 32 - 1) / sStuck.params.wordBits ∧
      sStuck.params.maxWords < 2) ∧
    (ArrayInv sFull ∧ sFull.wReg ≠ 0 ∧ 16 = (102 * sFull.w + 32 - 1) / sFull.params.wordBits ∧
      16 ≤ sFull.params.maxWords ∧ 2 * sFull.words ≤ sFull.params.maxWords) :=
  ⟨⟨inv_sStuck, by decide⟩, inv_sFull, by decide⟩

theorem witness_NewConstructsEmptyArray :
    sRoom.wReg ≠ 0 ∧ (sDead.wReg = 0 ∧ (0 : Width) = 0) ∧ (sDead.wReg = 0 ∧ (31 : Width) ≠ 0) := by decide

/-- A need of MAX_WORDS + 1 and of MAX_WORDS. -/
theorem witness_WithCapacityAllocatesExactNeed :
    (sRoom.wReg ≠ 0 ∧ sDead.wReg = 0) ∧
    (sDeadSmall.wReg = 0 ∧ (31 : Width) ≠ 0 ∧
      sDeadSmall.params.maxWords < (3 * (31 : Width).toNat + 32 - 1) / sDeadSmall.params.wordBits) ∧
    (sDeadSmall.wReg = 0 ∧ (31 : Width) ≠ 0 ∧
      (2 * (31 : Width).toNat + 32 - 1) / sDeadSmall.params.wordBits ≤ sDeadSmall.params.maxWords) := by decide

theorem witness_NewFilledFillsEveryElement :
    (ArrayInv sRoom ∧ sRoom.wReg ≠ 0) ∧ (ArrayInv sDead ∧ sDead.wReg = 0) ∧
    (ArrayInv sDeadReject ∧ sDeadReject.wReg = 0 ∧ (5 : Width) ≠ 0 ∧ sDeadReject.params.truncPolicy = .reject ∧
      2 ^ (5 : Width).toNat ≤ (0x20 : Val).toNat) ∧
    (ArrayInv sDeadSmall ∧ sDeadSmall.wReg = 0 ∧ (31 : Width) ≠ 0 ∧ accepts sDeadSmall.params 31 1 ∧
      sDeadSmall.params.maxWords < (3 * (31 : Width).toNat + 32 - 1) / sDeadSmall.params.wordBits) ∧
    (ArrayInv sDeadReject ∧ sDeadReject.wReg = 0 ∧ (5 : Width) ≠ 0 ∧ accepts sDeadReject.params 5 31 ∧
      (102 * (5 : Width).toNat + 32 - 1) / sDeadReject.params.wordBits ≤ sDeadReject.params.maxWords) :=
  ⟨⟨inv_sRoom, by decide⟩, ⟨inv_sDead, by decide⟩, ⟨inv_sDeadReject, by decide⟩, ⟨inv_sDeadSmall, by decide⟩,
    inv_sDeadReject, by decide⟩

theorem witness_DropLeavesNoArray : sDead.wReg = 0 ∧ sRoom.wReg ≠ 0 := by decide

theorem witness_GetReadsElement :
    (ArrayInv sDead ∧ sDead.wReg = 0) ∧ (ArrayInv sRoom ∧ sRoom.wReg ≠ 0 ∧ sRoom.length ≤ 4) ∧
    (ArrayInv sRoom ∧ sRoom.wReg ≠ 0 ∧ 3 < sRoom.length) :=
  ⟨⟨inv_sDead, by decide⟩, ⟨inv_sRoom, by decide⟩, inv_sRoom, by decide⟩

theorem witness_SetWritesElementBitsOnly :
    (ArrayInv sDead ∧ sDead.wReg = 0) ∧ (ArrayInv sRoom ∧ sRoom.wReg ≠ 0 ∧ sRoom.length ≤ 4) ∧
    (ArrayInv sReject ∧ sReject.wReg ≠ 0 ∧ 3 < sReject.length ∧ sReject.params.truncPolicy = .reject ∧
      2 ^ sReject.w ≤ (0x20 : Val).toNat) ∧
    (ArrayInv sReject ∧ sReject.wReg ≠ 0 ∧ 3 < sReject.length ∧ accepts sReject.params sReject.w 0x1F) :=
  ⟨⟨inv_sDead, by decide⟩, ⟨inv_sRoom, by decide⟩, ⟨inv_sReject, by decide⟩, inv_sReject, by decide⟩

theorem witness_AccessorsAnswerTheRegisters :
    (ArrayInv sDead ∧ sDead.wReg = 0) ∧ (ArrayInv sEmpty ∧ sEmpty.wReg ≠ 0) :=
  ⟨⟨inv_sDead, by decide⟩, inv_sEmpty, by decide⟩

theorem witness_PushAppendsElement :
    (ArrayInv sDead ∧ sDead.wReg = 0) ∧
    (ArrayInv sReject ∧ sReject.wReg ≠ 0 ∧ sReject.params.truncPolicy = .reject ∧ 2 ^ sReject.w ≤ (0x20 : Val).toNat) ∧
    (ArrayInv sStuck ∧ sStuck.wReg ≠ 0 ∧ accepts sStuck.params sStuck.w 7 ∧ sStuck.length = sStuck.capacity ∧
      2 = ((sStuck.length + 1) * sStuck.w + sStuck.params.wordBits - 1) / sStuck.params.wordBits ∧
      sStuck.params.maxWords < 2) ∧
    (ArrayInv sFull ∧ sFull.wReg ≠ 0 ∧ accepts sFull.params sFull.w 7 ∧ sFull.length = sFull.capacity ∧
      2 = ((sFull.length + 1) * sFull.w + sFull.params.wordBits - 1) / sFull.params.wordBits ∧
      2 ≤ sFull.params.maxWords) ∧
    (ArrayInv sRoom ∧ sRoom.wReg ≠ 0 ∧ accepts sRoom.params sRoom.w 7 ∧ sRoom.length ≠ sRoom.capacity) :=
  ⟨⟨inv_sDead, by decide⟩, ⟨inv_sReject, by decide⟩, ⟨inv_sStuck, by decide⟩, ⟨inv_sFull, by decide⟩, inv_sRoom,
    by decide⟩

theorem witness_ReserveEnsuresCapacity :
    (ArrayInv sDead ∧ sDead.wReg = 0) ∧
    (ArrayInv sRoom ∧ sRoom.wReg ≠ 0 ∧ 2 ^ sRoom.params.idxBits ≤ sRoom.length + 0xFFFFFFFC) ∧
    (ArrayInv sRoom ∧ sRoom.wReg ≠ 0 ∧ sRoom.length + 2 ≤ sRoom.capacity) ∧
    (ArrayInv sRoom ∧ sRoom.wReg ≠ 0 ∧ sRoom.length + 0xFFFFFFFB < 2 ^ sRoom.params.idxBits ∧
      sRoom.capacity < sRoom.length + 0xFFFFFFFB ∧
      sRoom.params.maxWords < ((sRoom.length + 0xFFFFFFFB) * sRoom.w + 32 - 1) / sRoom.params.wordBits) ∧
    (ArrayInv sRoom ∧ sRoom.wReg ≠ 0 ∧ sRoom.capacity < sRoom.length + 3 ∧
      ((sRoom.length + 3) * sRoom.w + 32 - 1) / sRoom.params.wordBits ≤ sRoom.params.maxWords) :=
  ⟨⟨inv_sDead, by decide⟩, ⟨inv_sRoom, by decide⟩, ⟨inv_sRoom, by decide⟩, ⟨inv_sRoom, by decide⟩, inv_sRoom,
    by decide⟩

theorem witness_PopReturnsLastElement :
    (ArrayInv sDead ∧ sDead.wReg = 0) ∧ (ArrayInv sEmpty ∧ sEmpty.wReg ≠ 0 ∧ sEmpty.length = 0) ∧
    (ArrayInv sRoom ∧ sRoom.wReg ≠ 0 ∧ sRoom.length ≠ 0) :=
  ⟨⟨inv_sDead, by decide⟩, ⟨inv_sEmpty, by decide⟩, inv_sRoom, by decide⟩

theorem witness_InsertShiftsUp :
    (ArrayInv sDead ∧ sDead.wReg = 0) ∧ (ArrayInv sRoom ∧ sRoom.wReg ≠ 0 ∧ sRoom.length < 5) ∧
    (ArrayInv sReject ∧ sReject.wReg ≠ 0 ∧ 4 ≤ sReject.length ∧ sReject.params.truncPolicy = .reject ∧
      2 ^ sReject.w ≤ (0x20 : Val).toNat) ∧
    (ArrayInv sStuck ∧ sStuck.wReg ≠ 0 ∧ 6 ≤ sStuck.length ∧ accepts sStuck.params sStuck.w 7 ∧
      sStuck.length = sStuck.capacity ∧
      2 = ((sStuck.length + 1) * sStuck.w + sStuck.params.wordBits - 1) / sStuck.params.wordBits ∧
      sStuck.params.maxWords < 2) ∧
    (ArrayInv sFull ∧ sFull.wReg ≠ 0 ∧ 0 ≤ sFull.length ∧ accepts sFull.params sFull.w 7 ∧
      2 = ((sFull.length + 1) * sFull.w + sFull.params.wordBits - 1) / sFull.params.wordBits ∧
      2 ≤ sFull.params.maxWords) ∧
    (ArrayInv sRoom ∧ sRoom.wReg ≠ 0 ∧ 4 ≤ sRoom.length ∧ accepts sRoom.params sRoom.w 7 ∧
      sRoom.length ≠ sRoom.capacity) :=
  ⟨⟨inv_sDead, by decide⟩, ⟨inv_sRoom, by decide⟩, ⟨inv_sReject, by decide⟩, ⟨inv_sStuck, by decide⟩,
    ⟨inv_sFull, by decide⟩, inv_sRoom, by decide⟩

theorem witness_RemoveShiftsDown :
    (ArrayInv sDead ∧ sDead.wReg = 0) ∧ (ArrayInv sRoom ∧ sRoom.wReg ≠ 0 ∧ sRoom.length ≤ 4) ∧
    (ArrayInv sRoom ∧ sRoom.wReg ≠ 0 ∧ 3 < sRoom.length) :=
  ⟨⟨inv_sDead, by decide⟩, ⟨inv_sRoom, by decide⟩, inv_sRoom, by decide⟩

theorem witness_TruncateShortens : sDead.wReg = 0 ∧ sRoom.wReg ≠ 0 := by decide

theorem witness_ClearEmptiesArray : sDead.wReg = 0 ∧ sRoom.wReg ≠ 0 := by decide

theorem witness_IterStartRestartsCursor : sDead.wReg = 0 ∧ sEnd.wReg ≠ 0 := by decide

theorem witness_IterNextYieldsOrEnds :
    (ArrayInv sDead ∧ sDead.wReg = 0) ∧ (ArrayInv sRoom ∧ sRoom.wReg ≠ 0 ∧ sRoom.iterValid = false) ∧
    (ArrayInv sEnd ∧ sEnd.wReg ≠ 0 ∧ sEnd.iterValid = true ∧ sEnd.length ≤ sEnd.iterPos) ∧
    (ArrayInv sIter ∧ sIter.wReg ≠ 0 ∧ sIter.iterValid = true ∧ sIter.iterPos < sIter.length) :=
  ⟨⟨inv_sDead, by decide⟩, ⟨inv_sRoom, by decide⟩, ⟨inv_sEnd, by decide⟩, inv_sIter, by decide⟩

theorem witness_DecodeReportsPosition :
    sDead.params.wf = true ∧ 0xFFFFFFFF < 2 ^ sDead.params.idxBits ∧ sDead.wReg = 0 ∧
    (sWide.params.wf = true ∧ 0xFFFFFFFF < 2 ^ sWide.params.idxBits ∧ sWide.wReg ≠ 0) := by decide

theorem witness_RawLenCountsOccupiedWords :
    (ArrayInv sDead ∧ sDead.wReg = 0) ∧ (ArrayInv sWide ∧ sWide.wReg ≠ 0) :=
  ⟨⟨inv_sDead, by decide⟩, inv_sWide, by decide⟩

/-- The last occupied word, and the first that is not; a defined bit of it, and one above the word. -/
theorem witness_RawReadReturnsDefinedBits :
    (ArrayInv sDead ∧ sDead.wReg = 0) ∧
    (ArrayInv sWide ∧ sWide.wReg ≠ 0 ∧ 2 = (sWide.length * sWide.w + sWide.params.wordBits - 1) / sWide.params.wordBits) ∧
    (ArrayInv sWide ∧ sWide.wReg ≠ 0 ∧
      1 < (sWide.length * sWide.w + sWide.params.wordBits - 1) / sWide.params.wordBits ∧
      (28 < sWide.params.wordBits ∧ 1 * sWide.params.wordBits + 28 < sWide.length * sWide.w)) :=
  ⟨⟨inv_sDead, by decide⟩, ⟨inv_sWide, by decide⟩, inv_sWide, by decide⟩

theorem witness_PushThenPopRestores :
    ∃ t, ArrayInv sFull ∧ exec (.push 0x29) sFull = .next t ∧ t.rsp = some ⟨.ok, false, 0, 0⟩ :=
  ⟨_, inv_sFull, rfl, rfl⟩

theorem witness_InsertThenRemoveRestores :
    ∃ t, ArrayInv sFull ∧ exec (.insert 0 0x29) sFull = .next t ∧ t.rsp = some ⟨.ok, false, 0, 0⟩ :=
  ⟨_, inv_sFull, rfl, rfl⟩

theorem witness_CommandsActAsListOperations :
    ∃ t r, ArrayInv sRoom ∧ exec (.remove 1) sRoom = .next t ∧ t.rsp = some r ∧ r.status = .ok :=
  ⟨_, _, inv_sRoom, rfl, rfl, rfl⟩

theorem witness_IterationYieldsEveryElement : ArrayInv sRoom ∧ sRoom.wReg ≠ 0 ∧ 3 < sRoom.length ∧ sRoom.length < 5 :=
  ⟨inv_sRoom, by decide⟩

/-- Two states that differ in an undefined bit, and a command that moves the elements below it. -/
theorem witness_UndefinedBitsAreNeverObserved :
    ∃ s' t t', ArrayInv sRoom ∧ ArrayInv s' ∧ SameDefined sRoom s' ∧ s' ≠ sRoom ∧
      exec (.remove 1) sRoom = .next t ∧ exec (.remove 1) s' = .next t' :=
  ⟨{ sRoom with mem := [(0, 0xFFF3C01F)] }, _, _, inv_sRoom, by constructor <;> decide, ⟨rfl, by decide⟩, by decide,
    rfl, rfl⟩

end Sys2Proof.Tests
end

section
/-! PROOFS. The state after reset is sound (R35): the base case of the invariant of R30. -/
namespace Sys2Proof.Machine

variable {p : Params} {m : Memory}

/-- Nothing is held and the cursor stands at 0 (R35), so the array's bounds (R30) ask nothing of the storage's content
but that it is canonical and lies in the RAM. -/
theorem ArrayInv.resetWith (hp : p.wf = true) (hm : m.wf = true) (hf : m.fits p = true) :
    ArrayInv (State.resetWith p m) where
  params := hp
  memWf := hm
  memFits := hf
  lengthLe := Nat.zero_le _
  dead _ := ⟨resetWith_length p m, resetWith_words p m⟩
  wordsLe := Nat.zero_le _
  iterPosLe := Nat.zero_le _
  iterLe _ := Nat.zero_le _
  errHard := by simp

/-- The block is idle after reset: no command in progress and no response (R35), in any build. -/
theorem PortInv.resetWith (p : Params) (m : Memory) : PortInv (State.resetWith p m) where
  busyIff := rfl
  onePhase := rfl
  rspWf := rfl
  aFits := rfl
  cursorCleared := rfl

theorem Inv.resetWith (hp : p.wf = true) (hm : m.wf = true) (hf : m.fits p = true) : Inv (State.resetWith p m) :=
  ⟨.resetWith hp hm hf, .resetWith p m⟩

theorem Params.wf_default : Params.default.wf = true := by decide

end Sys2Proof.Machine

open Sys2Proof Sys2Proof.Machine

/-- Settles O15: the registers, the cursor and the ports are empty after reset (`Inv.resetWith`), and the default build
with nothing listed in storage is one of the admitted builds. -/
theorem resetMeetsInvariant : Obligations.ResetMeetsInvariant := by
  unfold Obligations.ResetMeetsInvariant
  exact ⟨.resetWith Params.wf_default Memory.wf_nil (Memory.fits_nil _), fun _ _ => .resetWith⟩

end

section
/-! PROOFS. Every command keeps the array sound (R30, R48), and none stops in a sound state. -/
namespace Sys2Proof.Machine

variable {s t : State} {i : Instr}

/-! ## The states a successful command leaves -/

theorem wordsFor_zero (p : Params) (w : Nat) : wordsFor p w 0 = 0 :=
  Nat.le_zero.1 ((wordsFor_le_iff p w 0 0).2 (by rw [Nat.zero_mul]; exact Nat.zero_le _))

/-- What a constructor leaves is sound: WORDS lie in the RAM and hold the elements (R113 to R115). -/
theorem ArrayInv.constructed (hi : ArrayInv s) {wf : Width} (hw : wf ≠ 0) {n k : Nat} {m : Memory}
    (hn : wordsFor s.params wf.toNat n ≤ k) (hk : k ≤ s.params.maxWords) (hm : m.wf = true)
    (hf : m.fits s.params = true) :
    ArrayInv { Machine.invalidateIter s with wReg := wf, length := n, words := k, iterPos := 0, mem := m } where
  params := hi.params
  memWf := hm
  memFits := hf
  lengthLe := (le_capacity_iff (by exact hw) n).2 ((wordsFor_le_iff _ _ _ _).1 hn)
  dead h := absurd h hw
  wordsLe := hk
  iterPosLe := Nat.zero_le _
  iterLe _ := Nat.zero_le _
  errHard := hi.errHard

/-- What a mutating-class command leaves of a live array is sound: WORDS did not shrink and lie in the RAM, and the
new LENGTH is within the capacity they give. -/
theorem ArrayInv.updated (hi : ArrayInv s) (h : s.wReg ≠ 0) {n k : Nat} {m : Memory} (hk : s.words ≤ k)
    (hkm : k ≤ s.params.maxWords) (hn : n ≤ ({ s with words := k } : State).capacity) (hm : m.wf = true)
    (hf : m.fits s.params = true) :
    ArrayInv { Machine.invalidateIter s with words := k, length := n, mem := m } :=
  { (hi.grown h hk hkm).invalidateIter with
    memWf := hm
    memFits := hf
    lengthLe := hn
    dead := fun h0 => absurd h0 h
    iterLe := fun hv => by cases hv }

/-- `ArrayInv.updated` where WORDS stay: SET and the shrinking commands. -/
theorem ArrayInv.rewritten (hi : ArrayInv s) (h : s.wReg ≠ 0) {n : Nat} {m : Memory} (hn : n ≤ s.length)
    (hm : m.wf = true) (hf : m.fits s.params = true) :
    ArrayInv { Machine.invalidateIter s with length := n, mem := m } :=
  hi.updated h (le_refl _) hi.wordsLe (le_trans hn hi.lengthLe) hm hf

/-- In a sound live state the words of an element below CAPACITY exist. -/
theorem ArrayInv.lastWord_lt (hi : ArrayInv s) (h : s.wReg ≠ 0) {j : Nat} (hj : j < s.capacity) :
    lastWord s.params s.w j < s.params.maxWords :=
  lt_of_lt_of_le (lastWord_lt_words h hj) hi.wordsLe

/-- After the room check of PUSH and INSERT the words of the element at index LENGTH exist. -/
theorem Room.lastWord_lt (hi : ArrayInv s) (h : s.wReg ≠ 0) {k : Nat} (hk : Room s k) :
    lastWord s.params s.w s.length < s.params.maxWords := by
  obtain ⟨hl, hle, hm⟩ := room_sound hi h hk
  exact (hi.grown h hle hm).lastWord_lt h hl

theorem ArrayInv.entered (hi : ArrayInv s) (i : Instr) : ArrayInv (entered i s) := by
  cases hm : mutating i
  · rwa [entered_of_not_mutating s hm]
  · rw [entered_of_mutating s hm]
    exact hi.invalidateIter

/-- A successful command keeps the array sound. -/
theorem ArrayInv.effect (hi : ArrayInv s) (h : Effect i s t) : ArrayInv t := by
  cases i
  case nop | status => obtain rfl := h; exact hi.respond _ _ _ _
  case len | capacity | isEmpty | width | decode | rawLen => obtain ⟨-, rfl⟩ := h; exact hi.respond _ _ _ _
  case new wf =>
    obtain ⟨-, hw, rfl⟩ := h
    exact (hi.constructed hw (wordsFor_zero _ _).le (Nat.zero_le _) hi.memWf hi.memFits).respond _ _ _ _
  case withCapacity wf a =>
    obtain ⟨-, hw, hk, rfl⟩ := h
    exact (hi.constructed hw ((wordsFor_zero _ _).trans_le (Nat.zero_le _)) hk hi.memWf hi.memFits).respond _ _ _ _
  case newFilled wf a b =>
    obtain ⟨-, hw, -, hk, rfl⟩ := h
    have hf := fits_fillElems (one_le_w (s := { s with wReg := wf }) hw) (w_le _) hi.memFits
      (lowBits wf.toNat b) a hk
    exact (hi.constructed hw (le_refl _) hk (wf_fillElems hi.memWf _ _) hf).respond _ _ _ _
  case drop =>
    obtain ⟨-, rfl⟩ := h
    exact
      { hi with
        lengthLe := Nat.zero_le _
        dead := fun _ => ⟨rfl, rfl⟩
        wordsLe := Nat.zero_le _
        iterPosLe := Nat.zero_le _
        iterLe := fun _ => Nat.zero_le _ }
  case get a => obtain ⟨-, -, rfl⟩ := h; exact hi.respond _ _ _ _
  case set a b =>
    obtain ⟨h0, ha, -, rfl⟩ := h
    have hf := fits_elemWrite hi.memFits (hi.lastWord_lt h0 (lt_of_lt_of_le ha hi.lengthLe)) (lowBits s.w b)
    exact (hi.rewritten h0 (le_refl _) (wf_elemWrite hi.memWf _ _) hf).respond _ _ _ _
  case push b =>
    obtain ⟨h0, -, k, hk, rfl⟩ := h
    obtain ⟨hl, hle, hm⟩ := room_sound hi h0 hk
    have hf := fits_elemWrite hi.memFits (hk.lastWord_lt hi h0) (lowBits s.w b)
    exact (hi.updated h0 hle hm hl (wf_elemWrite hi.memWf _ _) hf).respond _ _ _ _
  case pop =>
    obtain ⟨h0, ⟨-, rfl⟩ | ⟨-, rfl⟩⟩ := h
    · exact hi.invalidateIter.respond _ _ _ _
    · exact (hi.rewritten h0 (Nat.sub_le _ _) hi.memWf hi.memFits).respond _ _ _ _
  case insert a b =>
    obtain ⟨h0, ha, -, k, hk, rfl⟩ := h
    obtain ⟨hl, hle, hm⟩ := room_sound hi h0 hk
    have hlast := hk.lastWord_lt hi h0
    have hup := fits_shiftUp (one_le_w h0) (w_le s) hi.memFits a (s.length - a) (by rwa [Nat.add_sub_cancel' ha])
    have hf := fits_elemWrite hup (lastWord_mono _ (one_le_w h0) (w_le s) ha hlast) (lowBits s.w b)
    exact (hi.updated h0 hle hm hl (wf_elemWrite (wf_shiftUp hi.memWf _ _) _ _) hf).respond _ _ _ _
  case remove a =>
    obtain ⟨h0, ha, rfl⟩ := h
    have hf := fits_shiftDown (one_le_w h0) (w_le s) hi.memFits a (s.length - 1 - a)
      (hi.lastWord_lt h0 (by have := hi.lengthLe; omega))
    exact (hi.rewritten h0 (Nat.sub_le _ _) (wf_shiftDown hi.memWf _ _) hf).respond _ _ _ _
  case truncate a =>
    obtain ⟨h0, rfl⟩ := h
    exact (hi.rewritten h0 (by split_ifs <;> omega) hi.memWf hi.memFits).respond _ _ _ _
  case reserve a =>
    obtain ⟨h0, ⟨-, rfl⟩ | ⟨-, hn, rfl⟩⟩ := h
    · exact hi.invalidateIter.respond _ _ _ _
    · exact (hi.grown h0 (words_le_newWords hi.wordsLe) (newWords_le hn)).invalidateIter.respond _ _ _ _
  case clear =>
    obtain ⟨h0, rfl⟩ := h
    exact (hi.rewritten h0 (Nat.zero_le _) hi.memWf hi.memFits).respond _ _ _ _
  case iterStart =>
    obtain ⟨-, rfl⟩ := h
    exact { hi with iterPosLe := Nat.zero_le _, iterLe := fun _ => Nat.zero_le _ }
  case iterNext =>
    obtain ⟨-, -, ⟨-, rfl⟩ | ⟨hl, rfl⟩⟩ := h
    · exact hi.respond _ _ _ _
    · exact { hi with iterPosLe := le_trans hl hi.lengthLe, iterLe := fun _ => hl }
  case rawRead a => obtain ⟨-, -, rfl⟩ := h; exact { hi with }

/-- Every command keeps the array sound, whatever it answers. -/
theorem ArrayInv.exec (hi : ArrayInv s) (h : exec i s = .next t) : ArrayInv t := by
  rcases exec_next_cases i h with ⟨e, -, rfl⟩ | h
  · exact (hi.entered i).failWith e
  · exact hi.effect h

/-! ## Completion -/

/-- The meaning answers a next state: it neither faults nor refuses. -/
def Completes (r : Result) : Prop := ∃ t, r = .next t

theorem completes_next (t : State) : Completes (.next t) := ⟨t, rfl⟩

theorem completes_raise (e : Status) (s : State) : Completes (raise e s) := completes_next _

theorem completes_ite {c : Prop} [Decidable c] {k l : Result} (hk : c → Completes k) (hl : ¬ c → Completes l) :
    Completes (if c then k else l) := by
  split_ifs with h
  · exact hk h
  · exact hl h

theorem completes_whenLive {k : Result} (hk : s.wReg ≠ 0 → Completes k) : Completes (whenLive s k) :=
  completes_ite (fun _ => completes_raise _ _) hk

theorem completes_whenConstructible {wf : Width} {k : Result} (hk : Completes k) :
    Completes (whenConstructible s wf k) :=
  completes_ite (fun _ => completes_raise _ _) fun _ => completes_ite (fun _ => completes_raise _ _) fun _ => hk

theorem completes_whenBelow {a bound : Nat} {k : Result} (hk : a < bound → Completes k) :
    Completes (whenBelow s a bound k) :=
  completes_ite (fun _ => completes_raise _ _) fun h => hk (Nat.lt_of_not_le h)

theorem completes_orRaise {α : Type} {c : Except Status α} {k : α → Result}
    (hk : ∀ v, c = .ok v → Completes (k v)) : Completes (orRaise s c k) := by
  cases c with
  | error e => exact completes_raise _ _
  | ok v => exact hk v rfl

theorem completes_withElem (hi : ArrayInv s) (h0 : s.wReg ≠ 0) {j : Nat} (hj : j < s.capacity) (t : State) :
    Completes (withElem s j (.next t)) := by
  rw [withElem_of_lt hi h0 hj]
  exact completes_next t

/-- After the room check of PUSH and INSERT the element at index LENGTH can be written. -/
theorem completes_withElem_room (hi : ArrayInv s) (h0 : s.wReg ≠ 0) {g : State} (hg : roomForOne s = .ok g)
    (t : State) : Completes (withElem g g.length (.next t)) := by
  obtain ⟨k, hk, rfl⟩ := roomForOne_ok hg
  obtain ⟨hl, hle, hm⟩ := room_sound hi h0 hk
  exact completes_withElem (hi.grown h0 hle hm) h0 hl t

/-- From a sound state no command stops (R48): the words of every element it touches exist. -/
theorem ArrayInv.exec_completes (hi : ArrayInv s) (i : Instr) : Completes (Machine.exec i s) := by
  have hc := hi.invalidateIter
  have hcap : ∀ {a}, a < s.length → a < s.capacity := fun h => lt_of_lt_of_le h hi.lengthLe
  cases i
  case nop | status => exact completes_next _
  case drop | len | capacity | isEmpty | width | decode | rawLen | truncate | clear | iterStart =>
    exact completes_whenLive fun _ => completes_next _
  case new wf => exact completes_whenConstructible (completes_next _)
  case withCapacity wf a =>
    exact completes_whenConstructible (completes_ite (fun _ => completes_raise _ _) fun _ => completes_next _)
  case newFilled wf a b =>
    exact completes_whenConstructible (completes_orRaise fun _ _ =>
      completes_ite (fun _ => completes_raise _ _) fun _ => completes_next _)
  case get a => exact completes_whenLive fun h0 => completes_whenBelow fun ha => completes_withElem hi h0 (hcap ha) _
  case set a b =>
    exact completes_whenLive fun h0 => completes_whenBelow fun ha => completes_orRaise fun _ _ =>
      completes_withElem hc h0 (hcap ha) _
  case push b =>
    exact completes_whenLive fun h0 => completes_orRaise fun _ _ => completes_orRaise fun _ hg =>
      completes_withElem_room hc h0 hg _
  case pop =>
    exact completes_whenLive fun h0 => completes_ite (fun _ => completes_next _) fun hl =>
      completes_withElem hc h0 (hcap (Nat.sub_one_lt hl)) _
  case insert a b =>
    exact completes_whenLive fun h0 => completes_whenBelow fun _ => completes_orRaise fun _ _ =>
      completes_orRaise fun _ hg => completes_withElem_room hc h0 hg _
  case remove a =>
    exact completes_whenLive fun h0 => completes_whenBelow fun ha =>
      completes_withElem hc h0 (hcap (Nat.sub_one_lt (Nat.ne_zero_of_lt ha))) _
  case reserve a =>
    exact completes_whenLive fun _ => completes_orRaise fun _ _ =>
      completes_ite (fun _ => completes_orRaise fun _ _ => completes_next _) fun _ => completes_next _
  case iterNext =>
    exact completes_whenLive fun h0 => completes_ite (fun _ => completes_raise _ _) fun _ =>
      completes_ite (fun _ => completes_next _) fun hl => completes_withElem hi h0 (hcap (Nat.lt_of_not_le hl)) _
  case rawRead a =>
    refine completes_whenLive fun _ => completes_whenBelow fun ha => ?_
    have hw := lt_of_lt_of_le ha (le_trans (occWords_le_words hi) hi.wordsLe)
    rw [withWord_of_lt hw]
    exact completes_next _

/-! ## The response and the ports -/

/-- R62: every command presents a response, and one that is not OK carries no value. -/
theorem exec_responds (h : exec i s = .next t) : ∃ r, t.rsp = some r ∧ r.wf = true := by
  rcases exec_next_cases i h with ⟨e, -, rfl⟩ | h
  · exact ⟨_, rfl, by simp [Response.wf]⟩
  · obtain ⟨⟨r, hr, hok, -⟩, -⟩ := effect_frame h
    exact ⟨r, hr, by simp [Response.wf, hok]⟩

end Sys2Proof.Machine

open Sys2Proof Sys2Proof.Machine

/-- Settles O16: every check answers, and in a sound state the storage words a command touches exist
(`ArrayInv.exec_completes`); what it leaves is sound by its effect (`ArrayInv.exec`). -/
theorem soundCommandCompletesSound : Obligations.SoundCommandCompletesSound := by
  intro i s hi
  obtain ⟨t, ht⟩ := hi.exec_completes i
  obtain ⟨r, hr, -⟩ := exec_responds ht
  exact ⟨t, ht, hi.exec ht, by rw [hr]; rfl⟩

end

section
/-! PROOFS. The ports clock by clock (R34, R60, R63, R190): what each kind of edge does, and that every edge keeps the
block sound. -/
namespace Sys2Proof.Machine

variable {s t : State} {i : Instr} {c : Command}

/-! ## The edges -/

/-- The edge with `rst = 1` (R190). -/
theorem step_of_rst (h : s.nowPins.rst = true) : step s = .next (resetEdge s.dropPins) := if_pos h

theorem cmdReady_of_rst {p : Pins} (h : p.rst = true) (s : State) : cmdReady p s = false := by simp [cmdReady, h]

theorem rspValid_of_rst {p : Pins} (h : p.rst = true) (s : State) : rspValid p s = false := by simp [rspValid, h]

/-- The edge at which a response is valid (R63). -/
theorem step_of_response (h : s.nowPins.rst = false) {r : Response} (hr : s.rsp = some r) :
    step s = .next (if s.nowPins.rspReady then takeResponse s.dropPins else s.dropPins) := by
  unfold step clockEdge
  simp [h, hr, rspValid]

/-- The edge at which an idle block looks at what the host presents (R60). -/
theorem step_of_idle (h : s.nowPins.rst = false) (hb : s.busy = false) (hr : s.rsp = none)
    (hq : s.pending = none) : step s = .next (hostOffers s.dropPins) := by
  unfold step clockEdge
  simp [h, hb, hr, hq, rspValid, cmdReady]

theorem hostOffers_of_gap_zero {o : Offer} {rest : List Offer} (ho : s.offers = o :: rest) (hg : o.gap = 0) :
    hostOffers s = accept o rest s := by
  unfold hostOffers
  simp [ho, hg]

/-- All the host's side of a ready clock can do: accept a presented command, or let the clock pass. -/
theorem hostOffers_cases (s : State) :
    (∃ o rest, hostOffers s = accept o rest s) ∨ ∃ l, hostOffers s = { s with offers := l } := by
  unfold hostOffers
  split
  · exact .inr ⟨s.offers, rfl⟩
  · split
    · exact .inl ⟨_, _, rfl⟩
    · exact .inr ⟨_, rfl⟩

/-- An idle block accepts the command the host presents (R60). -/
theorem step_accepts (h : s.nowPins.rst = false) (hb : s.busy = false) (hr : s.rsp = none) (hq : s.pending = none)
    {o : Offer} {rest : List Offer} (ho : s.offers = o :: rest) (hg : o.gap = 0) :
    step s = .next (accept o rest s.dropPins) := by
  rw [step_of_idle h hb hr hq, hostOffers_of_gap_zero (s := s.dropPins) ho hg]

/-! ## A captured command -/

/-- A command touches neither the build, BUSY, the command in progress nor the host's inputs. -/
theorem exec_ports (h : exec i s = .next t) :
    t.params = s.params ∧ t.busy = s.busy ∧ t.pending = s.pending ∧ t.offers = s.offers := by
  rcases exec_next_cases i h with ⟨e, -, rfl⟩ | h
  · exact ⟨rfl, rfl, rfl, rfl⟩
  · obtain ⟨-, hp, hb, hq, ho, -⟩ := effect_frame h
    exact ⟨hp, hb, hq, ho⟩

/-- Where ERR_FLAGS stay, the bit of no status is set: OK has none (R172). -/
theorem errFlags_kept (h : t.errFlags = s.errFlags) : ∃ e, t.errFlags = s.errFlags ||| errBit e :=
  ⟨.ok, by rw [h]; exact BitVec.or_zero.symm⟩

/-- A command sets at most the bit of one status in ERR_FLAGS (R172). -/
theorem exec_errFlags (h : exec i s = .next t) : ∃ e, t.errFlags = s.errFlags ||| errBit e := by
  rcases exec_next_cases i h with ⟨e, -, rfl⟩ | h
  · exact ⟨e, rfl⟩
  · obtain ⟨-, -, -, -, -, -, he, -⟩ := effect_frame h
    exact errFlags_kept he

theorem runCommand_ports (h : runCommand c s = .next t) :
    t.params = s.params ∧ t.busy = s.busy ∧ t.pending = s.pending ∧ t.offers = s.offers := by
  rcases runCommand_next h with ⟨i, -, h⟩ | ⟨-, rfl⟩
  · exact exec_ports h
  · exact ⟨rfl, rfl, rfl, rfl⟩

theorem runCommand_errFlags (h : runCommand c s = .next t) : ∃ e, t.errFlags = s.errFlags ||| errBit e := by
  rcases runCommand_next h with ⟨i, -, h⟩ | ⟨-, rfl⟩
  · exact exec_errFlags h
  · exact ⟨.illegalCommand, rfl⟩

theorem runCommand_responds (h : runCommand c s = .next t) : ∃ r, t.rsp = some r ∧ r.wf = true := by
  rcases runCommand_next h with ⟨i, -, h⟩ | ⟨-, rfl⟩
  · exact exec_responds h
  · exact ⟨_, rfl, rfl⟩

theorem ArrayInv.runCommand (hi : ArrayInv s) (h : runCommand c s = .next t) : ArrayInv t := by
  rcases runCommand_next h with ⟨i, -, h⟩ | ⟨-, rfl⟩
  · exact hi.exec h
  · exact hi.failWith _

/-! ## The three phases of the ports (R34, R60, R63) -/

/-- Idle. -/
theorem PortInv.of_idle (hb : t.busy = false) (hq : t.pending = none) (hr : t.rsp = none) : PortInv t := by
  constructor <;> simp [hb, hq, hr]

/-- A command is in progress. -/
theorem PortInv.of_pending {q : Pending} (hb : t.busy = true) (hq : t.pending = some q) (hr : t.rsp = none)
    (ha : fitsIdx t.params q.cmd.a = true) (hc : clearsCursor q.cmd = true → t.iterValid = false) : PortInv t := by
  constructor <;> simp [hb, hq, hr, ha]
  cases hc' : clearsCursor q.cmd
  · exact .inl rfl
  · exact .inr (hc hc')

/-- A response waits to be taken. -/
theorem PortInv.of_response {r : Response} (hb : t.busy = true) (hq : t.pending = none) (hr : t.rsp = some r)
    (hw : r.wf = true) : PortInv t := by
  constructor <;> simp [hb, hq, hr, hw]

/-- With a response waiting no command is in progress. -/
theorem PortInv.pending_of_response (hp : PortInv s) {r : Response} (hr : s.rsp = some r) : s.pending = none := by
  simpa [hr] using hp.onePhase

/-- The parts of the invariant of a command in progress (R8, R60, R152). -/
theorem PortInv.of_pending_eq (hp : PortInv s) {q : Pending} (hq : s.pending = some q) :
    s.busy = true ∧ fitsIdx s.params q.cmd.a = true ∧ (clearsCursor q.cmd = true → s.iterValid = false) := by
  refine ⟨by simp [hp.busyIff, hq], by simpa [hq] using hp.aFits, fun hc => ?_⟩
  simpa [hq, hc] using hp.cursorCleared

/-! ## Every edge keeps the invariant -/

theorem Inv.resetEdge (hi : Inv s) : Inv (resetEdge s) :=
  ⟨{ ArrayInv.resetWith hi.array.params (Memory.wf_drawn s.params s.draws) (Memory.fits_drawn _ _) with },
    .of_idle rfl rfl rfl⟩

theorem Inv.dropPins (hi : Inv s) : Inv s.dropPins := ⟨{ hi.array with }, { hi.port with }⟩

/-- Taking the response leaves the block idle (R63). -/
theorem Inv.takeResponse (hi : Inv s) {r : Response} (hr : s.rsp = some r) : Inv (takeResponse s) :=
  ⟨{ hi.array with }, .of_idle rfl (hi.port.pending_of_response hr) rfl⟩

/-- Acceptance captures `IDX_BITS` bits of A and clears the cursor of a mutating-class command (R60, R152). -/
theorem Inv.accept (hi : Inv s) (hr : s.rsp = none) (o : Offer) (rest : List Offer) : Inv (accept o rest s) where
  array := { hi.array with iterLe := fun hv => hi.array.iterLe (Bool.and_elim_left hv) }
  port := by
    refine .of_pending rfl rfl hr (decide_eq_true (Nat.mod_lt _ (Nat.two_pow_pos _))) fun hc => ?_
    show (s.iterValid && !clearsCursor _) = false
    rw [hc]
    exact Bool.and_false _

theorem Inv.hostOffers (hi : Inv s) (hr : s.rsp = none) : Inv (hostOffers s) := by
  rcases hostOffers_cases s with ⟨o, rest, h⟩ | ⟨l, h⟩
  · rw [h]
    exact hi.accept hr o rest
  · rw [h]
    exact ⟨{ hi.array with }, { hi.port with }⟩

/-- A clock of waiting changes only the counter of the command in progress. -/
theorem Inv.waits (hi : Inv s) {n : Nat} (hr : s.rsp = none) (hq : s.pending = some ⟨c, n + 1⟩) :
    Inv { s with pending := some ⟨c, n⟩ } := by
  obtain ⟨hb, ha, hc⟩ := hi.port.of_pending_eq hq
  exact ⟨{ hi.array with }, .of_pending hb rfl hr ha hc⟩

/-- The command in progress leaves a sound array, and its response waits. -/
theorem Inv.answers (hi : Inv s) {n : Nat} (hq : s.pending = some ⟨c, n⟩)
    (h : runCommand c { s with pending := none } = .next t) : Inv t := by
  obtain ⟨hb, -⟩ := hi.port.of_pending_eq hq
  obtain ⟨-, hbusy, hpend, -⟩ := runCommand_ports h
  obtain ⟨r, hr, hw⟩ := runCommand_responds h
  have ha : ArrayInv { s with pending := none } := { hi.array with }
  exact ⟨ha.runCommand h, .of_response (hbusy.trans hb) hpend hr hw⟩

theorem Inv.step (hi : Inv s) (h : step s = .next t) : Inv t := by
  rcases step_next h with ⟨-, rfl⟩ | ⟨-, ⟨r, hr, rfl⟩ | ⟨hr, c, hq, h⟩ | ⟨hr, c, n, hq, rfl⟩ | ⟨hr, hq, rfl⟩⟩
  · exact hi.dropPins.resetEdge
  · split_ifs
    · exact hi.dropPins.takeResponse hr
    · exact hi.dropPins
  · exact hi.dropPins.answers hq h
  · exact hi.dropPins.waits hr hq
  · split_ifs
    · exact hi.dropPins
    · exact hi.dropPins.hostOffers hr

/-! ## ERR_FLAGS (R28, R172) -/

/-- An edge without reset sets at most the bit of one status in ERR_FLAGS, and clears none. -/
theorem step_errFlags (hr : s.nowPins.rst = false) (h : step s = .next t) :
    ∃ e, t.errFlags = s.errFlags ||| errBit e := by
  rcases step_next h with ⟨hr', -⟩ | ⟨-, ⟨r, -, rfl⟩ | ⟨-, c, -, h⟩ | ⟨-, c, n, -, rfl⟩ | ⟨-, -, rfl⟩⟩
  · exact absurd (hr'.symm.trans hr) (by decide)
  · exact errFlags_kept (by split_ifs <;> rfl)
  · obtain ⟨e, he⟩ := runCommand_errFlags h
    exact ⟨e, he⟩
  · exact errFlags_kept rfl
  · split_ifs
    · exact errFlags_kept rfl
    · rcases hostOffers_cases s.dropPins with ⟨o, rest, he⟩ | ⟨l, he⟩ <;> rw [he] <;> exact errFlags_kept rfl

/-! ## ITER_VALID (R27, R152) -/

/-- What a command that has raised an error leaves in ITER_VALID. -/
theorem Raised.iterValid (h : Raised i s t) : t.iterValid = (s.iterValid && !mutating i) := by
  obtain ⟨e, -, rfl⟩ := h
  rfl

/-- ITER_START sets ITER_VALID exactly when live (R150). -/
theorem iterStart_iterValid (h : exec .iterStart s = .next t) :
    t.iterValid = if s.wReg = 0 then s.iterValid else true := by
  rcases whenLive_next h with ⟨h0, rfl⟩ | ⟨h0, h⟩
  · rw [if_pos h0]; rfl
  · rw [if_neg h0, next_inj h]; rfl

/-- What any other command leaves in ITER_VALID: cleared if mutating-class, else as it was. -/
theorem exec_iterValid (h : exec i s = .next t) (hs : i ≠ .iterStart) :
    t.iterValid = (s.iterValid && !mutating i) := by
  rcases exec_next_cases i h with h | h
  · exact h.iterValid
  · obtain ⟨-, -, -, -, -, -, -, -, hm, hk, -⟩ := effect_frame h
    cases hc : mutating i
    · simpa using hk hc hs
    · simpa using hm hc

end Sys2Proof.Machine

open Sys2Proof Sys2Proof.Machine

/-- Settles O13: each kind of edge keeps the array and the ports sound (`Inv.step`). -/
theorem stepKeepsInvariant : Obligations.StepKeepsInvariant := by
  intro s t hi h
  exact hi.step h

/-- Settles O8: while BUSY an edge without reset holds or gives up the response, runs the command in progress, which
keeps the ports (`runCommand_ports`), or waits for it. -/
theorem busyBlockAcceptsNothing : Obligations.BusyBlockAcceptsNothing := by
  intro s t hp hb hrst h
  rcases step_next h with ⟨hr, -⟩ | ⟨-, ⟨r, hr, rfl⟩ | ⟨-, c, -, h⟩ | ⟨-, c, n, -, rfl⟩ | ⟨-, -, rfl⟩⟩
  · exact absurd (hr.symm.trans hrst) (by decide)
  · exact ⟨by split_ifs <;> rfl, fun hn => absurd (hn.symm.trans hr) (by simp)⟩
  · obtain ⟨-, hbusy, -, ho⟩ := runCommand_ports h
    exact ⟨ho, fun _ => hbusy.trans hb⟩
  · exact ⟨rfl, fun _ => hb⟩
  · rw [if_pos hb]
    exact ⟨rfl, fun _ => hb⟩

/-- Settles O9: the edge is `resetEdge`, whose registers are those of `State.resetWith` and whose storage is drawn. -/
theorem resetEdgeGivesResetValues : Obligations.ResetEdgeGivesResetValues := by
  rintro s pins rfl hr
  have hocc : (resetEdge s.dropPins).occWords = 0 := wordsFor_zero _ _
  exact ⟨cmdReady_of_rst hr s, rspValid_of_rst hr s, _, step_of_rst hr, rfl, rfl, rfl, rfl, rfl, hocc, rfl, rfl,
    rfl, rfl, rfl, rfl, Memory.wf_drawn _ _, Memory.fits_drawn _ _⟩

/-- Settles O19: an edge without reset sets at most the bit of a status (`step_errFlags`), which is none of the
hardwired ones (`errBit_hard`); reset clears them all. -/
theorem onlyResetClearsErrFlags : Obligations.OnlyResetClearsErrFlags := by
  intro s t h
  cases hr : s.nowPins.rst
  · obtain ⟨e, he⟩ := step_errFlags hr h
    refine ⟨fun _ => ?_, fun h0 => ?_⟩
    · rw [he]
      refine BitVec.eq_of_getLsbD_eq fun b _ => ?_
      rw [BitVec.getLsbD_and, BitVec.getLsbD_or]
      cases s.errFlags.getLsbD b <;> rfl
    · rw [he, or_and_distrib, h0, errBit_hard]
      rfl
  · obtain rfl := next_inj ((step_of_rst hr).symm.trans h)
    exact ⟨fun hrst => absurd (hr.symm.trans hrst) (by decide), fun _ => BitVec.zero_and⟩

/-- Settles O21: what a command leaves in ITER_VALID (`exec_iterValid`, `iterStart_iterValid`), and what the edge that
accepts it does (`step_accepts`). -/
theorem mutatingCommandClearsCursor : Obligations.MutatingCommandClearsCursor := by
  refine ⟨fun i s t h => ⟨fun hm => ?_, fun hm hs => ?_, fun hs => ?_⟩, fun c s t hd h => ?_,
    fun s o rest c hrst hb hr hq ho hg hc => ?_⟩
  · rw [exec_iterValid h (by rintro rfl; cases hm), hm]
    exact Bool.and_false _
  · rw [exec_iterValid h hs, hm]
    exact Bool.and_true _
  · subst hs
    exact iterStart_iterValid h
  · rcases runCommand_next h with ⟨i, hi, -⟩ | ⟨-, rfl⟩
    · exact absurd (hd.symm.trans hi) (by simp)
    · rfl
  · subst hc
    have hv : (accept o rest s.dropPins).iterValid =
        (s.iterValid && !clearsCursor ⟨o.cmd.word, o.cmd.a % 2 ^ s.params.idxBits, o.cmd.b⟩) := rfl
    refine ⟨_, step_accepts hrst hb hr hq ho hg, rfl, fun i hi hm => ?_, fun i hi hm => ?_, fun hd => ?_⟩
    · rw [hv, clearsCursor_of_decode hi, hm]; exact Bool.and_false _
    · rw [hv, clearsCursor_of_decode hi, hm]; exact Bool.and_true _
    · rw [hv, clearsCursor_of_illegal hd]; exact Bool.and_true _

/-- Settles O7: acceptance by an idle block (`step_accepts`), and a valid response taken or held
(`step_of_response`). -/
theorem handshakeAcceptsAndTakes : Obligations.HandshakeAcceptsAndTakes := by
  refine ⟨fun s o rest hrst hb hr hq ho hg => step_accepts hrst hb hr hq ho hg, fun s r hp hr => ?_,
    fun s r hp hr => ?_⟩
  all_goals
    have hnow : s.nowPins = _ := hp
    rw [step_of_response (by rw [hnow]) hr, hnow]
    rfl

/-- Settles O10: the registers `State.resetWith` writes. -/
theorem resetStateHoldsResetValues : Obligations.ResetStateHoldsResetValues :=
  ⟨rfl, rfl, rfl, rfl, rfl, rfl, rfl, rfl, rfl, rfl⟩

end

section
/-! PROOFS. The registers of the array (R22, R24, R25, R33): who writes W_REG, WORDS and storage, and how the sizes
agree. -/
namespace Sys2Proof.Machine

variable {s t : State} {i : Instr}

/-! ## Who writes the array -/

/-- A command that has raised an error leaves the array: width, words and storage. -/
theorem Raised.array_frame (h : Raised i s t) :
    t.params = s.params ∧ t.wReg = s.wReg ∧ t.words = s.words ∧ t.mem = s.mem := by
  obtain ⟨e, -, rfl⟩ := h
  exact ⟨rfl, rfl, rfl, rfl⟩

/-- What a constructor does: from no array, W_REG takes its WF, which is not 0 (R113 to R115). -/
theorem Effect.constructs (h : Effect i s t) (hc : isConstructor i = true) :
    s.wReg = 0 ∧ t.wReg ≠ 0 ∧
      (i = .new t.wReg ∨ (∃ a, i = .withCapacity t.wReg a) ∨ ∃ a b, i = .newFilled t.wReg a b) := by
  cases i
  case new wf =>
    obtain ⟨h0, hw, rfl⟩ := h
    exact ⟨h0, hw, .inl rfl⟩
  case withCapacity wf a =>
    obtain ⟨h0, hw, -, rfl⟩ := h
    exact ⟨h0, hw, .inr (.inl ⟨a, rfl⟩)⟩
  case newFilled wf a b =>
    obtain ⟨h0, hw, -, -, rfl⟩ := h
    exact ⟨h0, hw, .inr (.inr ⟨a, b, rfl⟩)⟩
  all_goals cases hc

/-- What a successful command but a constructor and DROP leaves of the array: the width; WORDS unless it may grow them;
and storage unless it writes elements (R22, R24, R29). -/
theorem Effect.array_frame (h : Effect i s t) (hc : isConstructor i = false) (hd : i ≠ .drop) :
    t.params = s.params ∧ t.wReg = s.wReg ∧
      ((∀ b, i ≠ .push b) → (∀ a b, i ≠ .insert a b) → (∀ a, i ≠ .reserve a) → t.words = s.words) ∧
      ((∀ a b, i ≠ .set a b) → (∀ b, i ≠ .push b) → (∀ a b, i ≠ .insert a b) → (∀ a, i ≠ .remove a) →
        t.mem = s.mem) := by
  cases i
  case new | withCapacity | newFilled => cases hc
  case drop => exact absurd rfl hd
  case set =>
    obtain ⟨-, -, -, rfl⟩ := h
    exact ⟨rfl, rfl, fun _ _ _ => rfl, fun hset _ _ _ => absurd rfl (hset _ _)⟩
  case push =>
    obtain ⟨-, -, k, -, rfl⟩ := h
    exact ⟨rfl, rfl, fun hpush _ _ => absurd rfl (hpush _), fun _ hpush _ _ => absurd rfl (hpush _)⟩
  case insert =>
    obtain ⟨-, -, -, k, -, rfl⟩ := h
    exact ⟨rfl, rfl, fun _ hins _ => absurd rfl (hins _ _), fun _ _ hins _ => absurd rfl (hins _ _)⟩
  case remove =>
    obtain ⟨-, -, rfl⟩ := h
    exact ⟨rfl, rfl, fun _ _ _ => rfl, fun _ _ _ hrem => absurd rfl (hrem _)⟩
  case reserve =>
    obtain ⟨-, ⟨-, rfl⟩ | ⟨-, -, rfl⟩⟩ := h
    · exact ⟨rfl, rfl, fun _ _ _ => rfl, fun _ _ _ _ => rfl⟩
    · exact ⟨rfl, rfl, fun _ _ hres => absurd rfl (hres _), fun _ _ _ _ => rfl⟩
  case pop =>
    obtain ⟨-, ⟨-, rfl⟩ | ⟨-, rfl⟩⟩ := h <;> exact ⟨rfl, rfl, fun _ _ _ => rfl, fun _ _ _ _ => rfl⟩
  case iterNext =>
    obtain ⟨-, -, ⟨-, rfl⟩ | ⟨-, rfl⟩⟩ := h <;> exact ⟨rfl, rfl, fun _ _ _ => rfl, fun _ _ _ _ => rfl⟩
  case nop | status =>
    obtain rfl := h
    exact ⟨rfl, rfl, fun _ _ _ => rfl, fun _ _ _ _ => rfl⟩
  case get | rawRead =>
    obtain ⟨-, -, rfl⟩ := h
    exact ⟨rfl, rfl, fun _ _ _ => rfl, fun _ _ _ _ => rfl⟩
  all_goals
    obtain ⟨-, rfl⟩ := h
    exact ⟨rfl, rfl, fun _ _ _ => rfl, fun _ _ _ _ => rfl⟩

/-- A constructor that succeeds on a live array is none (R175). -/
theorem Effect.not_constructor (h : Effect i s t) (h0 : s.wReg ≠ 0) : isConstructor i = false := by
  rw [← Bool.not_eq_true]
  exact fun hc => h0 (h.constructs hc).1

/-- PUSH, INSERT and RESERVE grow WORDS (R111), and no other command but DROP changes them. -/
theorem Effect.words_le (hi : ArrayInv s) (h0 : s.wReg ≠ 0) (hd : i ≠ .drop) (h : Effect i s t) :
    s.words ≤ t.words := by
  obtain ⟨-, -, hwords, -⟩ := h.array_frame (h.not_constructor h0) hd
  cases i
  case push =>
    obtain ⟨-, -, k, hk, rfl⟩ := h
    exact (room_sound hi h0 hk).2.1
  case insert =>
    obtain ⟨-, -, -, k, hk, rfl⟩ := h
    exact (room_sound hi h0 hk).2.1
  case reserve =>
    obtain ⟨-, ⟨-, rfl⟩ | ⟨-, -, rfl⟩⟩ := h
    · exact le_refl _
    · exact words_le_newWords hi.wordsLe
  all_goals exact (hwords nofun nofun nofun).ge

/-! ## The sizes (R25, R33) -/

/-- More words of the same width hold as much. -/
theorem capacity_mono (hp : t.params = s.params) (hw : t.wReg = s.wReg) (hle : s.words ≤ t.words) :
    s.capacity ≤ t.capacity := by
  unfold State.capacity State.w
  rw [hp, hw]
  split_ifs
  · exact le_refl _
  · exact Nat.div_le_div_right (Nat.mul_le_mul_right _ hle)

/-- WORDS is the ceiling of `CAPACITY·W / WORD_BITS`: an element is narrower than a word, so the part of the allocated
words that CAPACITY elements leave is less than one word. -/
theorem words_eq_wordsFor_capacity (h : s.wReg ≠ 0) : s.words = wordsFor s.params s.w s.capacity := by
  have hfits : s.capacity * s.w ≤ s.words * s.params.wordBits := (le_capacity_iff h _).1 (le_refl _)
  refine le_antisymm (Nat.le_of_not_lt fun hlt => ?_) ((wordsFor_le_iff _ _ _ _).2 hfits)
  have hfull : ¬ (s.capacity + 1) * s.w ≤ s.words * s.params.wordBits := by
    rw [← le_capacity_iff h]; omega
  have hless : s.capacity * s.w ≤ (s.words - 1) * s.params.wordBits := (wordsFor_le_iff _ _ _ _).1 (by omega)
  have hw : s.w ≤ s.params.wordBits := by
    have := w_le s
    rcases wordBits_eq s.params with hb | hb <;> omega
  refine hfull ?_
  calc (s.capacity + 1) * s.w = s.capacity * s.w + s.w := Nat.succ_mul _ _
    _ ≤ (s.words - 1) * s.params.wordBits + s.params.wordBits := Nat.add_le_add hless hw
    _ = s.words * s.params.wordBits := by rw [← Nat.succ_mul, Nat.succ_eq_add_one, Nat.sub_add_cancel (by omega)]

end Sys2Proof.Machine

open Sys2Proof Sys2Proof.Machine

/-- Settles O22: an error writes nothing (`Raised.array_frame`), a constructor writes its WF (`Effect.constructs`), and
of the others only DROP writes W_REG (`Effect.array_frame`). -/
theorem onlyConstructorsAndDropWriteWidth : Obligations.OnlyConstructorsAndDropWriteWidth := by
  intro i s t h
  rcases exec_next_cases i h with h | h
  · obtain ⟨-, hw, -⟩ := h.array_frame
    exact .inl hw
  · cases hc : isConstructor i
    · by_cases hd : i = .drop
      · subst hd
        obtain ⟨-, rfl⟩ := h
        exact .inr (.inr ⟨rfl, rfl⟩)
      · obtain ⟨-, hw, -⟩ := h.array_frame hc hd
        exact .inl hw
    · exact .inr (.inl (h.constructs hc))

/-- Settles O23: an error leaves the array (`Raised.array_frame`); a success leaves width, WORDS and storage but for the
commands named (`Effect.array_frame`), and those grow WORDS (`Effect.words_le`). -/
theorem wordsNeverShrinkWhileLive : Obligations.WordsNeverShrinkWhileLive := by
  intro i s t hi h0 hd h
  rcases exec_next_cases i h with h | h
  · obtain ⟨hp, hw, hwords, hm⟩ := h.array_frame
    exact ⟨hwords.ge, capacity_mono hp hw hwords.ge, fun _ _ _ => hwords, fun _ _ _ _ => hm⟩
  · obtain ⟨hp, hw, hwords, hm⟩ := h.array_frame (h.not_constructor h0) hd
    have hle := h.words_le hi h0 hd
    exact ⟨hle, capacity_mono hp hw hle, hwords, hm⟩

/-- Settles O31: CAPACITY is the greatest count that fits (`le_capacity_iff`), and an element is narrower than a word
(`words_eq_wordsFor_capacity`). -/
theorem derivedSizesAgree : Obligations.DerivedSizesAgree := by
  intro s hi h
  exact ⟨le_capacity_iff h, words_eq_wordsFor_capacity h, capacity_lt hi, occWords_le_words hi⟩

end

section
/-! PROOFS. The packed array refines a list of values (R4, R31): each successful command is its list operation. -/
namespace Sys2Proof.Machine

variable {s t : State} {i : Instr}

/-! ## The list of elements -/

theorem getElem?_elems (s : State) (j : Nat) : s.elems[j]? = if j < s.length then some (s.elem j) else none := by
  unfold State.elems
  split_ifs with h
  · simp [h]
  · simp [Nat.le_of_not_lt h]

/-- A list is the array's when it has each element at its index. -/
theorem elems_eq_of_getElem? {l : List Val}
    (h : ∀ j, (if j < t.length then some (t.elem j) else none) = l[j]?) : t.elems = l :=
  List.ext_getElem? fun j => by rw [getElem?_elems, h]

theorem elems_eq_nil (h : t.length = 0) : t.elems = [] := by
  unfold State.elems
  rw [h]; rfl

theorem length_elems (s : State) : s.elems.length = s.length := by simp [State.elems]

/-! ## The operations on lists -/

/-- Fewer elements over the same storage are the first of them (R130, R133). -/
theorem elems_take {n : Nat} (hn : n ≤ s.length) : ({ s with length := n } : State).elems = s.elems.take n := by
  show (List.range n).map s.elem = _
  rw [State.elems, ← List.map_take, List.take_range, min_eq_left hn]

/-- A write at index LENGTH, and LENGTH one more, appends (R117). -/
theorem elems_push (hi : ArrayInv s) {v : Val} (hv : v.toNat < 2 ^ s.w) :
    ({ s with length := s.length + 1, mem := elemWrite s.params s.w s.mem s.length v } : State).elems =
      s.elems ++ [v] := by
  refine elems_eq_of_getElem? fun j => ?_
  show (if j < s.length + 1 then some (elemRead s.params s.w _ j) else none) = _
  rw [elemRead_elemWrite (w_le s) hi.memWf hi.narrow _ hv, List.getElem?_append, length_elems, getElem?_elems]
  rcases lt_trichotomy j s.length with h | rfl | h
  · rw [if_pos (by omega), if_neg (by omega), if_pos h, if_pos h]; rfl
  · simp
  · rw [if_neg (by omega), if_neg (by omega), List.getElem?_eq_none (by rw [List.length_singleton]; omega)]

/-- A write below LENGTH replaces an element (R94, R100). -/
theorem elems_set (hi : ArrayInv s) {a : Nat} {v : Val} (ha : a < s.length) (hv : v.toNat < 2 ^ s.w) :
    ({ s with mem := elemWrite s.params s.w s.mem a v } : State).elems = s.elems.set a v := by
  refine elems_eq_of_getElem? fun j => ?_
  show (if j < s.length then some (elemRead s.params s.w _ j) else none) = _
  rw [elemRead_elemWrite (w_le s) hi.memWf hi.narrow _ hv, List.getElem?_set, length_elems, getElem?_elems]
  by_cases h : j = a
  · subst h; simp [ha]
  · rw [if_neg h, if_neg (Ne.symm h)]; rfl

/-- The loop of R132 and the write at A insert. -/
theorem elems_insert (hi : ArrayInv s) {a : Nat} {v : Val} (ha : a ≤ s.length) (hv : v.toNat < 2 ^ s.w) :
    ({ s with
        length := s.length + 1
        mem := elemWrite s.params s.w (shiftUp s.params s.w s.mem a (s.length - a)) a v } : State).elems =
      s.elems.insertIdx a v := by
  refine elems_eq_of_getElem? fun j => ?_
  show (if j < s.length + 1 then some (elemRead s.params s.w _ j) else none) = _
  rw [elemRead_elemWrite (w_le s) (wf_shiftUp hi.memWf _ _) (narrow_shiftUp hi.memWf hi.narrow _ _) _ hv,
    elemRead_shiftUp (w_le s) hi.memWf hi.narrow, List.getElem?_insertIdx, length_elems]
  rcases lt_trichotomy j a with h | rfl | h
  · rw [if_pos (by omega), if_neg (by omega), if_neg (by omega), if_pos h, getElem?_elems, if_pos (by omega)]; rfl
  · rw [if_pos (by omega), if_pos rfl, if_neg (by omega), if_pos rfl, if_pos ha]
  · rw [if_neg (by omega : ¬ j = a), if_neg (by omega : ¬ j < a), if_neg (by omega : ¬ j = a), getElem?_elems]
    by_cases hj : j < s.length + 1
    · rw [if_pos hj, if_pos (by omega), if_pos (by omega)]; rfl
    · rw [if_neg hj, if_neg (by omega)]

/-- The loop of R131 erases element A. -/
theorem elems_remove (hi : ArrayInv s) {a : Nat} (ha : a < s.length) :
    ({ s with length := s.length - 1, mem := shiftDown s.params s.w s.mem a (s.length - 1 - a) } : State).elems =
      s.elems.eraseIdx a := by
  refine elems_eq_of_getElem? fun j => ?_
  show (if j < s.length - 1 then some (elemRead s.params s.w _ j) else none) = _
  rw [elemRead_shiftDown (w_le s) hi.memWf hi.narrow, List.getElem?_eraseIdx, getElem?_elems, getElem?_elems]
  by_cases h : j < a
  · rw [if_pos (by omega), if_neg (by omega), if_pos h, if_pos (by omega)]; rfl
  · rw [if_neg h]
    by_cases hj : j < s.length - 1
    · rw [if_pos hj, if_pos (by omega), if_pos (by omega)]; rfl
    · rw [if_neg hj, if_neg (by omega)]

/-- The loop of R115 replicates the value, whatever storage held. -/
theorem elems_newFilled (hi : ArrayInv s) {wf : Width} (n : Nat) {v : Val} (hv : v.toNat < 2 ^ wf.toNat) :
    ({ s with wReg := wf, length := n, mem := fillElems s.params wf.toNat s.mem v n } : State).elems =
      List.replicate n v := by
  refine elems_eq_of_getElem? fun j => ?_
  show (if j < n then some (elemRead s.params wf.toNat _ j) else none) = _
  have hw : wf.toNat ≤ 31 := w_le { s with wReg := wf }
  rw [elemRead_fillElems hw hi.memWf hi.narrow hv, List.getElem?_replicate]
  split_ifs <;> rfl

/-- A successful command changes the array as the list operation it stands for. -/
theorem elems_effect (hi : ArrayInv s) (h : Effect i s t) : t.elems = listEffect s.w i s.elems := by
  cases i
  case nop | status => obtain rfl := h; rfl
  case len | capacity | isEmpty | width | decode | rawLen | iterStart => obtain ⟨-, rfl⟩ := h; rfl
  case get | rawRead => obtain ⟨-, -, rfl⟩ := h; rfl
  case drop | clear => obtain ⟨-, rfl⟩ := h; exact elems_eq_nil rfl
  case new wf => obtain ⟨-, -, rfl⟩ := h; exact elems_eq_nil rfl
  case withCapacity wf a => obtain ⟨-, -, -, rfl⟩ := h; exact elems_eq_nil rfl
  case newFilled wf a b => obtain ⟨-, -, -, -, rfl⟩ := h; exact elems_newFilled hi a (lowBits_lt _ b)
  case set a b => obtain ⟨-, ha, -, rfl⟩ := h; exact elems_set hi ha (lowBits_lt _ b)
  case push b => obtain ⟨-, -, k, -, rfl⟩ := h; exact elems_push hi (lowBits_lt _ b)
  case pop =>
    obtain ⟨-, ⟨hl, rfl⟩ | ⟨-, rfl⟩⟩ := h
    · show s.elems = s.elems.dropLast
      rw [elems_eq_nil hl]; rfl
    · show _ = s.elems.dropLast
      rw [List.dropLast_eq_take, length_elems]
      exact elems_take (s := s) (Nat.sub_le _ _)
  case insert a b => obtain ⟨-, ha, -, k, -, rfl⟩ := h; exact elems_insert hi ha (lowBits_lt _ b)
  case remove a => obtain ⟨-, ha, rfl⟩ := h; exact elems_remove hi ha
  case truncate a =>
    obtain ⟨-, rfl⟩ := h
    show _ = s.elems.take a
    split_ifs with ha
    · exact elems_take (Nat.le_of_lt ha)
    · rw [List.take_of_length_le (by rw [length_elems]; omega)]; rfl
  case reserve a => obtain ⟨-, ⟨-, rfl⟩ | ⟨-, -, rfl⟩⟩ := h <;> rfl
  case iterNext => obtain ⟨-, -, ⟨-, rfl⟩ | ⟨-, rfl⟩⟩ := h <;> rfl

/-- A command that has raised an error leaves the list. -/
theorem elems_raised (h : Raised i s t) : t.elems = s.elems := by
  obtain ⟨e, -, rfl⟩ := h
  rfl

/-- A command that answers OK has had its effect; one that answers an error has raised it. -/
theorem exec_of_status (h : exec i s = .next t) {r : Response} (hr : t.rsp = some r) :
    (r.status = .ok ∧ Effect i s t) ∨ (r.status ≠ .ok ∧ Raised i s t) := by
  rcases exec_next_cases i h with hR | hE
  · right
    refine ⟨?_, hR⟩
    obtain ⟨e, he, rfl⟩ := hR
    rw [failWith_rsp] at hr
    rwa [← Option.some.inj hr]
  · left
    refine ⟨?_, hE⟩
    obtain ⟨⟨r', hr', hok, -⟩, -⟩ := effect_frame hE
    rwa [← Option.some.inj (hr'.symm.trans hr)]

end Sys2Proof.Machine

open Sys2Proof Sys2Proof.Machine

/-- Settles O56: a command that answers OK has had its effect (`exec_of_status`), and each effect on storage is a
list operation by the element laws (`elems_effect`). -/
theorem commandsActAsListOperations : Obligations.CommandsActAsListOperations := by
  intro i s t r hi h hr hok
  rcases exec_of_status h hr with ⟨-, hE⟩ | ⟨hne, -⟩
  · exact elems_effect hi hE
  · exact absurd hok hne

end

section
/-! PROOFS. No command observes an undefined storage bit (R31, R32): the checks and the answers depend on the defined
bits only, and what storage then holds below LENGTH is fixed by the list operation each command stands for. -/
namespace Sys2Proof.Machine

variable {s s' t t' : State} {i : Instr} {p : Params} {m : Memory}

/-! ## Defined bits and elements -/

/-- The two states differ at most in storage. -/
def DifferInMem (s s' : State) : Prop := s' = { s with mem := s'.mem }

/-- States with the same elements agree element by element. -/
theorem elem_eq_of_elems_eq (hd : DifferInMem s s') (he : s'.elems = s.elems) {j : Nat} (hj : j < s.length) :
    s'.elem j = s.elem j := by
  have hl : s'.length = s.length := by rw [hd]
  have := congrArg (fun l : List Val => l[j]?) he
  simpa only [getElem?_elems, hl, if_pos hj, Option.some.injEq] using this

/-- Sound states differ at most in undefined bits exactly when they differ at most in storage and hold the same
elements: element `j` is the global bits `j·W .. j·W + W − 1` (R31, R42). -/
theorem sameDefined_iff (hi : ArrayInv s) (hi' : ArrayInv s') :
    SameDefined s s' ↔ DifferInMem s s' ∧ s'.elems = s.elems := by
  refine and_congr_right fun hd => ?_
  obtain ⟨m', rfl⟩ : ∃ m', s' = { s with mem := m' } := ⟨_, hd⟩
  constructor
  · intro hg
    refine List.map_congr_left fun j hj => elemRead_congr (w_le s) hi'.narrow hi.narrow j j fun b hb => hg _ ?_
    calc j * s.w + b < j * s.w + s.w := Nat.add_lt_add_left hb _
      _ = (j + 1) * s.w := (Nat.succ_mul _ _).symm
      _ ≤ s.length * s.w := Nat.mul_le_mul_right _ (List.mem_range.1 hj)
  · intro he g hg
    have hw : 0 < s.w := Nat.pos_of_ne_zero fun h0 => by simp [h0] at hg
    have hj := elem_eq_of_elems_eq hd he ((Nat.div_lt_iff_lt_mul hw).2 hg)
    have hb := congrArg (fun v : Val => v.getLsbD (g % s.w)) hj
    have hbit := getLsbD_elemRead (w_le s) hi.narrow (g / s.w) (g % s.w)
    have hbit' := getLsbD_elemRead (w_le s) hi'.narrow (g / s.w) (g % s.w)
    rw [decide_eq_true (Nat.mod_lt _ hw), Bool.true_and, Nat.div_add_mod'] at hbit hbit'
    exact hbit'.symm.trans (hb.trans hbit)

theorem getLsbD_definedMask {d : Nat} (hd : d ≤ p.wordBits) (b : Nat) :
    (definedMask p d).getLsbD b = decide (b < d) := by
  unfold definedMask
  split_ifs with h
  · rw [getLsbD_wordMask, h]
  · have hd64 : d < 64 := by rcases wordBits_eq p with hb | hb <;> omega
    have hpow : 2 ^ d < 2 ^ 64 := Nat.pow_lt_pow_right (by omega) hd64
    have hmask : ((1#64 <<< d) - 1#64).toNat = 2 ^ d - 1 := by
      have h1 : (1#64 <<< d).toNat = 2 ^ d := by
        rw [BitVec.toNat_shiftLeft, Nat.shiftLeft_eq]
        simpa using Nat.mod_eq_of_lt hpow
      rw [BitVec.toNat_sub_of_le (by rw [BitVec.le_def, h1]; exact Nat.one_le_two_pow), h1]
      rfl
    rw [BitVec.getLsbD, hmask, Nat.testBit_two_pow_sub_one]

/-- Bit `b` of word `k` is global bit `k·WORD_BITS + b` (R41). -/
theorem globalBit_word {b : Nat} (hb : b < p.wordBits) (k : Nat) :
    m.globalBit p (k * p.wordBits + b) = (m.read k).getLsbD b := by
  unfold Memory.globalBit
  rw [Nat.mul_comm, Nat.mul_add_div (by omega), Nat.div_eq_of_lt hb, Nat.mul_add_mod, Nat.mod_eq_of_lt hb, Nat.add_zero]

/-- The defined bits of a word agree, so RAW_READ answers alike (R161). -/
theorem SameDefined.read_and_definedMask (h : SameDefined s s') (a : Nat) :
    s'.mem.read a &&& definedMask s.params (definedBits s a) =
      s.mem.read a &&& definedMask s.params (definedBits s a) := by
  obtain ⟨hd, hg⟩ := h
  obtain ⟨m', rfl⟩ : ∃ m', s' = { s with mem := m' } := ⟨_, hd⟩
  refine BitVec.eq_of_getLsbD_eq fun b _ => ?_
  rw [BitVec.getLsbD_and, BitVec.getLsbD_and, getLsbD_definedMask (d := definedBits s a) (min_le_left _ _)]
  by_cases hb : b < definedBits s a
  · obtain ⟨hwb, hlen⟩ := lt_min_iff.1 hb
    have hbit := hg (a * s.params.wordBits + b) (by omega)
    unfold State.globalBit at hbit
    rw [← globalBit_word hwb a, ← globalBit_word hwb a]
    exact congrArg (· && _) hbit
  · simp [hb]

/-! ## Alike outcomes -/

/-- The next states, where both meanings answer one, differ at most in storage; so they present one response. -/
def Alike (r r' : Result) : Prop := ∀ t t', r = .next t → r' = .next t' → DifferInMem t t'

theorem alike_next (h : DifferInMem t t' := by exact rfl) : Alike (.next t) (.next t') := by
  intro u u' hu hu'
  rwa [next_inj hu, next_inj hu']

theorem alike_raise {e : Status} (h : DifferInMem s s' := by exact rfl) : Alike (raise e s) (raise e s') := by
  refine alike_next ?_
  rw [h]; rfl

/-- A test that reads no storage decides alike. -/
theorem alike_ite {c c' : Prop} [Decidable c] [Decidable c'] {k k' l l' : Result} (hk : c → Alike k k')
    (hl : ¬ c → Alike l l') (h : c' ↔ c := by exact Iff.rfl) :
    Alike (if c then k else l) (if c' then k' else l') := by
  by_cases hc : c
  · rw [if_pos hc, if_pos (h.2 hc)]; exact hk hc
  · rw [if_neg hc, if_neg (mt h.1 hc)]; exact hl hc

theorem alike_whenLive {k k' : Result} (hk : s.wReg ≠ 0 → Alike k k') (h : DifferInMem s s' := by exact rfl) :
    Alike (whenLive s k) (whenLive s' k') :=
  alike_ite (fun _ => alike_raise h) hk (by rw [h])

theorem alike_whenConstructible {wf : Width} {k k' : Result} (hk : Alike k k')
    (h : DifferInMem s s' := by exact rfl) : Alike (whenConstructible s wf k) (whenConstructible s' wf k') :=
  alike_ite (fun _ => alike_raise h) (fun _ => alike_ite (fun _ => alike_raise h) fun _ => hk) (by rw [h])

theorem alike_whenBelow {a bound : Nat} {k k' : Result} (hk : a < bound → Alike k k')
    (h : DifferInMem s s' := by exact rfl) : Alike (whenBelow s a bound k) (whenBelow s' a bound k') :=
  alike_ite (fun _ => alike_raise h) fun hb => hk (Nat.lt_of_not_le hb)

theorem alike_orRaise {α : Type} {c : Except Status α} {k k' : α → Result} (hk : ∀ v, Alike (k v) (k' v))
    (h : DifferInMem s s' := by exact rfl) : Alike (orRaise s c k) (orRaise s' c k') := by
  cases c with
  | error e => exact alike_raise h
  | ok v => exact hk v

theorem alike_withWord {j : Nat} {k k' : Result} (hk : Alike k k') (h : DifferInMem s s' := by exact rfl) :
    Alike (withWord s j k) (withWord s' j k') :=
  alike_ite (fun _ => hk) (fun _ _ _ h => by cases h) (by rw [h])

/-- `Grow` reads no storage, so it grows alike (R110). -/
theorem alike_grow (s : State) (m : Memory) {n : Nat} {k k' : State → Result}
    (hk : ∀ g, Alike (k g) (k' { g with mem := m })) :
    Alike (orRaise s (grow s n) k) (orRaise { s with mem := m } (grow { s with mem := m } n) k') := by
  by_cases hn : wordsFor s.params s.w n ≤ s.params.maxWords
  · rw [grow_of_le hn, grow_of_le (s := { s with mem := m }) hn]
    exact hk _
  · rw [grow_of_lt (Nat.lt_of_not_le hn), grow_of_lt (s := { s with mem := m }) (Nat.lt_of_not_le hn)]
    exact alike_raise

/-- The room check of PUSH and INSERT, whatever storage holds. -/
theorem roomForOne_with_mem (s : State) (m : Memory) : roomForOne { s with mem := m } =
    if s.length = s.capacity then
      if s.params.capMax < s.length + 1 then .error .capacityOverflow else grow { s with mem := m } (s.length + 1)
    else .ok { s with mem := m } := by
  show (if s.length = s.capacity then checkedGrow _ _ else _) = _
  unfold checkedGrow checkCap
  dsimp only
  split_ifs <;> rfl

/-- The room check reads no storage either. -/
theorem alike_roomForOne (s : State) (m : Memory) {k k' : State → Result}
    (hk : ∀ g, Alike (k g) (k' { g with mem := m })) :
    Alike (orRaise s (roomForOne s) k) (orRaise { s with mem := m } (roomForOne { s with mem := m }) k') := by
  have hs := roomForOne_with_mem s s.mem
  rw [hs, roomForOne_with_mem s m]
  split_ifs
  · exact alike_raise
  · exact alike_grow s m hk
  · exact hk s

/-- A command's checks, its answer and its registers depend on the defined bits only. -/
theorem exec_alike (hi : ArrayInv s) (hi' : ArrayInv s') (h : SameDefined s s') (i : Instr) :
    Alike (exec i s) (exec i s') := by
  have hread := h.read_and_definedMask
  obtain ⟨hd, he⟩ := (sameDefined_iff hi hi').1 h
  have hel : ∀ {j}, j < s.length → s'.elem j = s.elem j := elem_eq_of_elems_eq hd he
  obtain ⟨m, rfl⟩ : ∃ m, s' = { s with mem := m } := ⟨_, hd⟩
  have hanswer : ∀ {j}, j < s.length → ∀ {u u' : State}, DifferInMem u u' →
      Alike (.next (answer (s.elem j).toNat u)) (.next (answer (State.elem { s with mem := m } j).toNat u')) := by
    intro j hj u u' hu
    refine alike_next ?_
    rw [hel hj, hu]; rfl
  cases i
  case nop | status => exact alike_next
  case drop | len | capacity | isEmpty | width | decode | rawLen | truncate | clear | iterStart =>
    exact alike_whenLive fun _ => alike_next
  case new wf => exact alike_whenConstructible alike_next
  case withCapacity wf a =>
    exact alike_whenConstructible (alike_ite (fun _ => alike_raise) fun _ => alike_next)
  case newFilled wf a b =>
    exact alike_whenConstructible (alike_orRaise fun _ => alike_ite (fun _ => alike_raise) fun _ => alike_next)
  case get a => exact alike_whenLive fun _ => alike_whenBelow fun ha => alike_withWord (hanswer ha rfl)
  case set a b =>
    exact alike_whenLive fun _ => alike_whenBelow fun _ => alike_orRaise fun _ => alike_withWord alike_next
  case push b =>
    exact alike_whenLive fun _ => alike_orRaise fun _ => alike_roomForOne _ m fun _ => alike_withWord alike_next
  case pop =>
    exact alike_whenLive fun _ => alike_ite (fun _ => alike_next) fun hl =>
      alike_withWord (hanswer (Nat.sub_one_lt hl) rfl)
  case insert a b =>
    exact alike_whenLive fun _ => alike_whenBelow fun _ => alike_orRaise fun _ =>
      alike_roomForOne _ m fun _ => alike_withWord alike_next
  case remove a => exact alike_whenLive fun _ => alike_whenBelow fun ha => alike_withWord (hanswer ha rfl)
  case reserve a =>
    exact alike_whenLive fun _ => alike_orRaise fun _ =>
      alike_ite (fun _ => alike_grow _ m fun _ => alike_next) fun _ => alike_next
  case iterNext =>
    exact alike_whenLive fun _ => alike_ite (fun _ => alike_raise) fun _ => alike_ite (fun _ => alike_next) fun hl =>
      alike_withWord (hanswer (Nat.lt_of_not_le hl) rfl)
  case rawRead a =>
    refine alike_whenLive fun _ => alike_whenBelow fun _ => alike_withWord (alike_next ?_)
    dsimp only
    rw [← hread a]; rfl

/-- Alike outcomes hold the same elements: the list operation of R31 fixes them, or nothing was written. -/
theorem exec_elems_eq (hi : ArrayInv s) (hi' : ArrayInv s') (h : SameDefined s s') (ht : exec i s = .next t)
    (ht' : exec i s' = .next t') : t'.elems = t.elems := by
  obtain ⟨hd, he⟩ := (sameDefined_iff hi hi').1 h
  have hw : s'.w = s.w := by rw [hd]; rfl
  have hrsp : t'.rsp = t.rsp := by rw [exec_alike hi hi' h i t t' ht ht']
  obtain ⟨r, hr, -⟩ := exec_responds ht
  rcases exec_of_status ht hr with ⟨hok, hE⟩ | ⟨hne, hR⟩ <;>
    rcases exec_of_status ht' (hrsp.trans hr) with ⟨hok', hE'⟩ | ⟨hne', hR'⟩
  · rw [elems_effect hi hE, elems_effect hi' hE', hw, he]
  · exact absurd hok hne'
  · exact absurd hok' hne
  · rw [elems_raised hR, elems_raised hR', he]

end Sys2Proof.Machine

open Sys2Proof Sys2Proof.Machine

/-- Settles O58: the states a command leaves differ at most in storage (`exec_alike`) and hold the same elements
(`exec_elems_eq`), which in sound states is all the defined bits say (`sameDefined_iff`). -/
theorem undefinedBitsAreNeverObserved : Obligations.UndefinedBitsAreNeverObserved := by
  intro i s s' t t' hi hi' h ht ht'
  have hd := exec_alike hi hi' h i t t' ht ht'
  exact ⟨by rw [hd], (sameDefined_iff (hi.exec ht) (hi'.exec ht')).2 ⟨hd, exec_elems_eq hi hi' h ht ht'⟩⟩

end

section
/-! PROOFS. Progress and latency (R48, R60, R198, R199): from a sound state no clock stops, and a command in progress
ends in what its meaning gives, however long it waits. -/
namespace Sys2Proof.Machine

variable {s : State} {c : Command}

/-! ## The edges of a command in progress -/

/-- The edge at which a command is in progress (R63). -/
theorem step_of_pending (h : s.nowPins.rst = false) (hr : s.rsp = none) {q : Pending} (hq : s.pending = some q) :
    step s = work q s.dropPins := by
  unfold step clockEdge
  simp [h, hr, hq, rspValid]

theorem work_zero (c : Command) (s : State) : work ⟨c, 0⟩ s = runCommand c { s with pending := none } := rfl

theorem work_succ (c : Command) (n : Nat) (s : State) :
    work ⟨c, n + 1⟩ s = .next { s with pending := some ⟨c, n⟩ } := rfl

/-- With neither a command in progress nor a response the block is not BUSY (R34). -/
theorem PortInv.busy_of_idle (hp : PortInv s) (hq : s.pending = none) (hr : s.rsp = none) : s.busy = false := by
  simp [hp.busyIff, hq, hr]

/-- With a command in progress no response waits (R63). -/
theorem PortInv.rsp_of_pending (hp : PortInv s) {q : Pending} (hq : s.pending = some q) : s.rsp = none := by
  simpa [hq] using hp.onePhase

/-- An idle block has no response waiting and no command in progress (R34). -/
theorem PortInv.empty_of_not_busy (hp : PortInv s) (hb : s.busy = false) : s.pending = none ∧ s.rsp = none := by
  simpa [hb] using hp.busyIff

/-! ## Progress -/

/-- From a sound state a captured command answers, legal or not (R48, R185). -/
theorem ArrayInv.runCommand_completes (hi : ArrayInv s) (c : Command) : Completes (Machine.runCommand c s) := by
  unfold Machine.runCommand
  cases decode c with
  | none => exact completes_raise _ _
  | some i => exact hi.exec_completes i

/-- From a sound state the command in progress goes on (R48). -/
theorem ArrayInv.work_completes (hi : ArrayInv s) (q : Pending) : Completes (work q s) := by
  obtain ⟨c, n⟩ := q
  cases n with
  | zero =>
    have ha : ArrayInv { s with pending := none } := { hi with }
    exact ha.runCommand_completes c
  | succ n => exact completes_next _

/-- From a sound state every edge has a next state: only the command in progress could stop. -/
theorem Inv.step_completes (hi : Inv s) : Completes (Machine.step s) := by
  cases hrst : s.nowPins.rst
  case true => exact ⟨_, step_of_rst hrst⟩
  cases hr : s.rsp with
  | some r => exact ⟨_, step_of_response hrst hr⟩
  | none =>
    cases hq : s.pending with
    | some q =>
      rw [step_of_pending hrst hr hq]
      exact hi.dropPins.array.work_completes q
    | none => exact ⟨_, step_of_idle hrst (hi.port.busy_of_idle hq hr) hr hq⟩

/-! ## Latency -/

/-- Where the next `n + 1` edges bring no reset, the coming one does not. -/
theorem nowPins_rst_of_take {n : Nat} (h : ∀ q ∈ s.pins.take (n + 1), q.rst = false) : s.nowPins.rst = false := by
  unfold State.nowPins
  cases hp : s.pins with
  | nil => rfl
  | cons q l => exact h q (by simp [hp])

/-- Where the next `n + 1` edges bring no reset, neither do the `n` after the coming one. -/
theorem rst_tail_of_take {n : Nat} (h : ∀ q ∈ s.pins.take (n + 1), q.rst = false) :
    ∀ q ∈ s.pins.tail.take n, q.rst = false := by
  cases hp : s.pins with
  | nil => simp
  | cons q l => exact fun q' hq' => h q' (by simp [hp, show q' ∈ l.take n from hq'])

/-- A command in progress with `n` clocks to wait ends, `n + 1` clocks later, in what its meaning gives now (R198, R199):
each clock of waiting changes only the counter and the samples of the pins. -/
theorem runFor_pending (n : Nat) (hr : s.rsp = none) (hq : s.pending = some ⟨c, n⟩)
    (hrst : ∀ q ∈ s.pins.take (n + 1), q.rst = false) :
    runFor (n + 1) s = runCommand c { s with pending := none, pins := s.pins.drop (n + 1) } := by
  induction n generalizing s with
  | zero => rw [runFor_one, step_of_pending (nowPins_rst_of_take hrst) hr hq, work_zero, List.drop_one]; rfl
  | succ n ih =>
    have hstep := step_of_pending (nowPins_rst_of_take hrst) hr hq
    rw [work_succ] at hstep
    rw [runFor_succ _ hstep, ih (s := { s.dropPins with pending := some ⟨c, n⟩ }) hr rfl (rst_tail_of_take hrst),
      ← List.drop_tail (l := s.pins)]
    rfl

/-- An accepted command answers as if it had run at once (R52): what acceptance does to ITER_VALID its meaning does
too (R152). -/
theorem runCommand_accept (o : Offer) (rest : List Offer) (s : State) (l : List Pins) :
    runCommand (capture s.params o.cmd) { accept o rest s with pending := none, pins := l } =
      runCommand (capture s.params o.cmd) { s with busy := true, pending := none, offers := rest, pins := l } :=
  runCommand_startCommand _ o.latency { s with offers := rest, pins := l }

end Sys2Proof.Machine

open Sys2Proof Sys2Proof.Machine

/-- Settles O14: an edge without a command to run has its next state by the ports, and in a sound state every command
completes (`Inv.step_completes`). -/
theorem soundStepNeverStops : Obligations.SoundStepNeverStops := by
  intro s hi
  exact hi.step_completes

/-- Settles O12: the first edge accepts the command (`step_accepts`), the others wait for it and run it
(`runFor_pending`), and it runs as if acceptance had changed nothing but the ports (`runCommand_accept`). -/
theorem latencyDoesNotChangeTheResult : Obligations.LatencyDoesNotChangeTheResult := by
  intro s o rest hi hb ho hg hrst
  obtain ⟨hq, hr⟩ := hi.port.empty_of_not_busy hb
  have haccept := step_accepts (nowPins_rst_of_take hrst) hb hr hq ho hg
  calc runFor (o.latency + 2) s
      = runFor (o.latency + 1) (accept o rest s.dropPins) := runFor_succ _ haccept
    _ = runCommand (capture s.params o.cmd)
          { accept o rest s.dropPins with pending := none, pins := s.pins.tail.drop (o.latency + 1) } :=
        runFor_pending _ hr rfl (rst_tail_of_take hrst)
    _ = runCommand (capture s.params o.cmd)
          { s with busy := true, pending := none, offers := rest, pins := s.pins.tail.drop (o.latency + 1) } :=
        runCommand_accept o rest s.dropPins _
    _ = _ := by rw [List.drop_tail, ← hq]; rfl

end

section
/-! PROOFS. Reading and writing (R47, R49): the reading commands leave the state, and the subword mux moves the bits of
one element and no other. -/
namespace Sys2Proof.Machine

variable {s t : State} {i : Instr}

/-- The two states differ at most in ERR_FLAGS, the response and the draw counter (R49). -/
def DifferInAnswer (s t : State) : Prop := t = { s with errFlags := t.errFlags, rsp := t.rsp, draws := t.draws }

theorem mutating_of_readOnly (hi : readOnly i = true) : mutating i = false := by
  cases i
  case get | len | capacity | isEmpty | width | decode | rawLen | rawRead | status => rfl
  all_goals cases hi

/-- A reading command that has raised an error has only answered (R49, R173). -/
theorem Raised.differInAnswer (hi : readOnly i = true) (h : Raised i s t) : DifferInAnswer s t := by
  obtain ⟨e, -, rfl⟩ := h
  rw [entered_of_not_mutating s (mutating_of_readOnly hi)]
  rfl

/-- A reading command that succeeds has only answered, RAW_READ with a draw (R49, R161). -/
theorem Effect.differInAnswer (hi : readOnly i = true) (h : Effect i s t) : DifferInAnswer s t := by
  cases i
  case status => obtain rfl := h; rfl
  case len | capacity | isEmpty | width | decode | rawLen => obtain ⟨-, rfl⟩ := h; rfl
  case get | rawRead => obtain ⟨-, -, rfl⟩ := h; rfl
  all_goals cases hi

end Sys2Proof.Machine

open Sys2Proof Sys2Proof.Machine

/-- Settles O24: whether it fails or succeeds a reading command only answers (`Raised.differInAnswer`,
`Effect.differInAnswer`), and one that answers OK has had its effect, which keeps ERR_FLAGS (`effect_frame`). -/
theorem readsHaveNoSideEffect : Obligations.ReadsHaveNoSideEffect := by
  intro i s t hi h
  refine ⟨?_, fun r hr hok => ?_⟩
  · rcases exec_next_cases i h with hR | hE
    · exact hR.differInAnswer hi
    · exact hE.differInAnswer hi
  · rcases exec_of_status h hr with ⟨-, hE⟩ | ⟨hne, -⟩
    · obtain ⟨-, -, -, -, -, -, hflags, -⟩ := effect_frame hE
      exact hflags
    · exact absurd hok hne

/-- Settles O29: R90 and R91 bit by bit of the storage stream (`getLsbD_elemRead`, `globalBit_elemWrite`). -/
theorem muxMovesExactlyTheElementsBits : Obligations.MuxMovesExactlyTheElementsBits := by
  intro p w m i v _ hw hm hf
  exact ⟨getLsbD_elemRead hw (Memory.narrow_of_fits hf) i, fun hv => globalBit_elemWrite hw hm i hv⟩

end

section
/-! PROOFS. The encoding (R61, R64 to R67): the decoder gives back every command its signals encode, follows the row of
the opcode table that selects a word, and gives none for the words the table leaves out. -/
namespace Sys2Proof

/-! ## Decoding what the encoder gives -/

/-- The encoder's command decodes to its instruction: the round trip, constructor by constructor. -/
theorem decode_encode (i : Instr) : decode (encode i) = some i := by
  cases i with
  | nop => exact Laws.EncodedWord.nop.2
  | new wf => exact (Laws.EncodedWord.new wf).2
  | withCapacity wf a => exact (Laws.EncodedWord.withCapacity wf a).2
  | newFilled wf a b => exact (Laws.EncodedWord.newFilled wf a b).2
  | drop => exact Laws.EncodedWord.drop.2
  | get a => exact (Laws.EncodedWord.get a).2
  | set a b => exact (Laws.EncodedWord.set a b).2
  | len => exact Laws.EncodedWord.len.2
  | capacity => exact Laws.EncodedWord.capacity.2
  | isEmpty => exact Laws.EncodedWord.isEmpty.2
  | width => exact Laws.EncodedWord.width.2
  | push b => exact (Laws.EncodedWord.push b).2
  | pop => exact Laws.EncodedWord.pop.2
  | insert a b => exact (Laws.EncodedWord.insert a b).2
  | remove a => exact (Laws.EncodedWord.remove a).2
  | truncate a => exact (Laws.EncodedWord.truncate a).2
  | reserve a => exact (Laws.EncodedWord.reserve a).2
  | clear => exact Laws.EncodedWord.clear.2
  | iterStart => exact Laws.EncodedWord.iterStart.2
  | iterNext => exact Laws.EncodedWord.iterNext.2
  | decode a => exact (Laws.EncodedWord.decode a).2
  | rawLen => exact Laws.EncodedWord.rawLen.2
  | rawRead a => exact (Laws.EncodedWord.rawRead a).2
  | status => exact Laws.EncodedWord.status.2

/-- The operand buses of a well-formed command carry its A: it has `IDX_BITS` bits, or the bus is driven with 0. -/
theorem encode_a_lt {p : Params} {i : Instr} (h : WellFormed p i = true) : (encode i).a < 2 ^ p.idxBits := by
  cases i
  case withCapacity | newFilled | get | set | insert | remove | truncate | reserve | decode | rawRead =>
    exact of_decide_eq_true h
  all_goals exact Nat.two_pow_pos _

/-- The three signals are read back from the number that carries them (assumption 16): `cmd_word` below bit 32, then the
`IDX_BITS` bits of A, then B. -/
theorem Command.ofBits_toBits {p : Params} {c : Command} (ha : c.a < 2 ^ p.idxBits) :
    Command.ofBits p (c.toBits p) = c := by
  obtain ⟨w, a, b⟩ := c
  have hhigh : (w.toNat + 2 ^ 32 * (a + 2 ^ p.idxBits * b.toNat)) / 2 ^ 32 = a + 2 ^ p.idxBits * b.toNat := by
    rw [Nat.add_mul_div_left _ _ (Nat.two_pow_pos 32), Nat.div_eq_of_lt w.isLt, Nat.zero_add]
  have hb : (a + 2 ^ p.idxBits * b.toNat) / 2 ^ p.idxBits = b.toNat := by
    rw [Nat.add_mul_div_left _ _ (Nat.two_pow_pos _), Nat.div_eq_of_lt ha, Nat.zero_add]
  have hw : BitVec.ofNat 32 (w.toNat + 2 ^ 32 * (a + 2 ^ p.idxBits * b.toNat)) = w := by
    apply BitVec.eq_of_toNat_eq
    rw [BitVec.toNat_ofNat, Nat.add_mul_mod_self_left, Nat.mod_eq_of_lt w.isLt]
  unfold Command.ofBits Command.toBits
  rw [hw, hhigh, hb, Nat.add_mul_mod_self_left, Nat.mod_eq_of_lt ha, BitVec.ofNat_toNat, BitVec.setWidth_eq]

/-! ## The opcode table against the decoder -/

/-- The opcodes of the table (R64). -/
def opcodes : List Nat := opcodeTable.map fun r => r.op.toNat

/-- Each row's opcode has 8 bits, and the row has the format the decoder takes for it. -/
theorem row_format {r : OpcodeRow} (hr : r ∈ opcodeTable) : r.op.toNat < 256 ∧ r.format = formatOf r.op.toNat := by
  revert r
  decide

theorem opcodes_nodup : opcodes.Nodup := by decide

/-- An opcode that is in no row is reserved (R66). -/
theorem decodeOp_of_reserved {c : Command} (h : opField c.word ∉ opcodes) : decodeOp c = none := by
  unfold decodeOp
  split
  case h_25 => rfl
  all_goals
    rename_i hop
    rw [hop] at h
    exact absurd (by decide) h

/-- The decoder names the instruction of the row whose opcode the word has (R64). -/
theorem decodeOp_of_row {c : Command} {r : OpcodeRow} (hr : r ∈ opcodeTable) (hop : opField c.word = r.op.toNat) :
    ∃ i, decodeOp c = some i ∧ i.mnemonic = r.mnemonic := by
  unfold decodeOp
  rw [hop]
  fin_cases hr <;> exact ⟨_, rfl, rfl⟩

/-- The mask of format C keeps bits 31:13 and 7:0. -/
theorem and_maskC (w : CmdWord) : w &&& Format.mask .C = w.extractLsb' 13 19 ++ 0#5 ++ w.extractLsb' 0 8 := by
  refine BitVec.eq_of_getLsbD_eq fun i hi => ?_
  rw [BitVec.getLsbD_and, Laws.EncodedWord.getLsbD_maskC ⟨i, hi⟩]
  simp only [BitVec.getLsbD_append, BitVec.getLsbD_extractLsb', BitVec.getLsbD_zero]
  by_cases h8 : i < 8
  · simp [h8]
  · by_cases h13 : 13 ≤ i
    · simp [h8, h13, show ¬ i - 8 < 5 by omega, show i - 8 - 5 < 19 by omega, show 13 + (i - 8 - 5) = i by omega]
    · simp [h8, h13, show i - 8 < 5 by omega]

theorem toNat_and_maskC (w : CmdWord) :
    (w &&& Format.mask .C).toNat = w.toNat / 8192 * 8192 + w.toNat % 256 := by
  have hlow : (0#5 ++ w.extractLsb' 0 8).toNat = w.toNat % 256 := by
    have hop : (w.extractLsb' 0 8).toNat = w.toNat % 256 := opField_eq w
    rw [BitVec.toNat_append, hop]
    simp
  have hhigh : (w.extractLsb' 13 19).toNat = w.toNat / 8192 := by
    have := w.isLt
    rw [BitVec.extractLsb'_toNat, Nat.shiftRight_eq_div_pow]
    omega
  rw [and_maskC, BitVec.append_assoc, BitVec.toNat_cast, BitVec.toNat_append, hlow, hhigh,
    ← Nat.shiftLeft_add_eq_or_of_lt (by omega), Nat.shiftLeft_eq]

/-- A row of format C selects the words with its opcode and bits 31:13 zero (R64). -/
theorem selects_C {op : CmdWord} (hop : op.toNat < 256) (mn : String) (w : CmdWord) :
    (OpcodeRow.mk mn op .C).selects w = true ↔ w.toNat % 256 = op.toNat ∧ w.toNat / 8192 = 0 := by
  show decide (w &&& Format.mask .C = op) = true ↔ _
  rw [decide_eq_true_eq, ← BitVec.toNat_inj, toNat_and_maskC]
  omega

/-- A row of format P selects the words with its opcode and bits 31:8 zero (R64). -/
theorem selects_P {op : CmdWord} (hop : op.toNat < 256) (mn : String) (w : CmdWord) :
    (OpcodeRow.mk mn op .P).selects w = true ↔ w.toNat % 256 = op.toNat ∧ w.toNat / 256 = 0 := by
  have hmask : w &&& Format.mask .P = w := BitVec.and_allOnes
  show decide (w &&& Format.mask .P = op) = true ↔ _
  rw [decide_eq_true_eq, hmask, ← BitVec.toNat_inj]
  omega

/-- A row selects a word exactly when the word has the row's opcode and its reserved bits are zero (R64, R65). -/
theorem selects_iff {r : OpcodeRow} (hr : r ∈ opcodeTable) (w : CmdWord) :
    r.selects w = true ↔ opField w = r.op.toNat ∧ reservedZero w = true := by
  obtain ⟨hlt, hf⟩ := row_format hr
  obtain ⟨mn, op, f⟩ := r
  have hop := opField_eq w
  cases f with
  | C =>
    rw [selects_C hlt mn w, ← hop]
    refine and_congr_right fun h => ?_
    rw [reservedZero, h, ← hf, decide_eq_true_eq, reservedC_iff]
  | P =>
    rw [selects_P hlt mn w, ← hop]
    refine and_congr_right fun h => ?_
    rw [reservedZero, h, ← hf, decide_eq_true_eq, reservedP_iff]

theorem decode_of_row {c : Command} {r : OpcodeRow} (hr : r ∈ opcodeTable) (hs : r.selects c.word = true) :
    ∃ i, decode c = some i ∧ i.mnemonic = r.mnemonic := by
  obtain ⟨hop, hz⟩ := (selects_iff hr c.word).1 hs
  rw [decode, if_pos hz]
  exact decodeOp_of_row hr hop

theorem decode_of_no_row {c : Command} (h : ∀ r ∈ opcodeTable, r.selects c.word = false) : decode c = none := by
  unfold decode
  split_ifs with hz
  · refine decodeOp_of_reserved fun hmem => ?_
    obtain ⟨r, hr, hop⟩ := List.mem_map.1 hmem
    exact absurd ((selects_iff hr c.word).2 ⟨hop.symm, hz⟩) (by rw [h r hr]; decide)
  · rfl

/-! ## Illegal words -/

/-- The six ranges of R64 in which the table's opcodes lie, the reserved ones between them (R66). -/
theorem mem_opcodes_bounds : ∀ op ∈ opcodes, op ≤ 0x04 ∨ (0x10 ≤ op ∧ op ≤ 0x15) ∨ (0x20 ≤ op ∧ op ≤ 0x26) ∨
    (0x30 ≤ op ∧ op ≤ 0x31) ∨ (0x40 ≤ op ∧ op ≤ 0x42) ∨ op = 0x50 := by decide

/-- A nonzero reserved field is illegal (R65). -/
theorem decode_of_reserved_bits {c : Command}
    (h : if c.word.toNat % 256 = 1 ∨ c.word.toNat % 256 = 2 ∨ c.word.toNat % 256 = 3 then c.word.toNat / 8192 ≠ 0
      else c.word.toNat / 256 ≠ 0) : decode c = none := by
  rw [decode_eq, if_neg]
  split_ifs at h ⊢ <;> exact h

/-- A reserved opcode is illegal (R66). -/
theorem decode_of_reserved_op {c : Command} (h : c.word.toNat % 256 ∉ opcodes) : decode c = none := by
  rw [← opField_eq] at h
  unfold decode
  rw [decodeOp_of_reserved h, ite_self]

end Sys2Proof

open Sys2Proof Sys2Proof.Machine

/-- Settles O1: the number carries the three signals of the command (`Command.ofBits_toBits`), which decode to it
(`decode_encode`). -/
theorem decodeOfEncodedSignals : Obligations.DecodeOfEncodedSignals := by
  intro p i h
  unfold decodeBits encodeBits
  rw [Command.ofBits_toBits (encode_a_lt h), decode_encode]

/-- Settles O2: a row selects the words that have its opcode and zero in the reserved bits of its format
(`selects_iff`), and no two rows share an opcode (`opcodes_nodup`). -/
theorem oneRowOrNoneSelectsAWord : Obligations.OneRowOrNoneSelectsAWord := by
  refine ⟨fun w => ?_, fun c r hr hs => decode_of_row hr hs, fun c h => decode_of_no_row h⟩
  refine (List.pairwise_map.1 opcodes_nodup).imp_of_mem fun hr hr' hne => ?_
  rintro ⟨hs, hs'⟩
  exact hne (((selects_iff hr w).1 hs).1.symm.trans ((selects_iff hr' w).1 hs').1)

/-- Settles O4: the decoder, run on each word. -/
theorem wordsOfTheSpecDecode : Obligations.WordsOfTheSpecDecode := by
  unfold Obligations.WordsOfTheSpecDecode
  decide

end

section
/-! PROOFS. What a captured command does at its edge (R60 to R63, R65, R66, R185): an illegal word only raises
ILLEGAL_COMMAND, the decoded command runs, and every command answers once and leaves the ports alone. -/
namespace Sys2Proof.Machine

variable {s : State} {c : Command} {i : Instr}

/-- An illegal word answers ILLEGAL_COMMAND, code 9, and writes nothing else (R185). -/
theorem runCommand_of_illegal (h : decode c = none) (s : State) :
    runCommand c s = .next (failed s .illegalCommand 9) := by
  unfold runCommand
  rw [h]
  exact congrArg _ (failWith_eq_failed s (by decide))

theorem runCommand_of_decode (h : decode c = some i) (s : State) : runCommand c s = exec i s := by
  unfold runCommand
  rw [h]

/-- The edge that answers the command in progress runs it (R63). -/
theorem step_of_due (h : s.nowPins.rst = false) (hr : s.rsp = none) (hq : s.pending = some ⟨c, 0⟩) :
    step s = runCommand c { s with pins := s.pins.tail, pending := none } := by
  rw [step_of_pending h hr hq, work_zero]
  rfl

/-- INSERT at LENGTH passes its index check and moves no element: what is left of it is PUSH (R69). The room check may
change WORDS, but not LENGTH (`roomForOne_ok`). -/
theorem execInsert_length (b : Val) (s : State) : execInsert s.length b s = execPush b s := by
  unfold execInsert execPush
  simp only [invalidateIter_length]
  rw [whenBelow_of_lt (Nat.lt_succ_self _)]
  refine congrArg (whenLive _) (congrArg (orRaise _ _) (funext fun v => ?_))
  cases hg : roomForOne (invalidateIter s) with
  | error e => rfl
  | ok g =>
    obtain ⟨k, -, rfl⟩ := roomForOne_ok hg
    simp only [orRaise_ok, invalidateIter_length, Nat.sub_self, shiftUp]
    rfl

/-- TRUNCATE 0 leaves LENGTH = 0, as CLEAR does (R69, R134). -/
theorem execTruncate_zero (s : State) : execTruncate 0 s = execClear s := by
  have hlen : (if 0 < (invalidateIter s).length then 0 else (invalidateIter s).length) = 0 := by split_ifs <;> omega
  simp only [execTruncate, execClear, hlen]

end Sys2Proof.Machine

open Sys2Proof Sys2Proof.Machine

/-- Settles O3: an opcode in no row of the table is reserved (`decode_of_reserved_op`), one in a row lies in no reserved
range (`mem_opcodes_bounds`), so a reserved bit is not zero (`decode_of_reserved_bits`); and what decodes to none raises
ILLEGAL_COMMAND (`runCommand_of_illegal`). -/
theorem illegalWordAnswersIllegalCommand : Obligations.IllegalWordAnswersIllegalCommand := by
  rintro c s op rfl h
  refine runCommand_of_illegal ?_ s
  by_cases hmem : c.word.toNat % 256 ∈ opcodes
  · have hbounds := mem_opcodes_bounds _ hmem
    refine decode_of_reserved_bits ?_
    split_ifs with hC <;> omega
  · exact decode_of_reserved_op hmem

/-- Settles O11: the command in progress ends in what it answers now (`runFor_pending`), which it does from a sound
state (`ArrayInv.runCommand_completes`), with a response and the ports left alone. -/
theorem acceptedCommandIsAnswered : Obligations.AcceptedCommandIsAnswered := by
  intro s c n hi hq hrst
  have ha : ArrayInv { s with pending := none, pins := s.pins.drop (n + 1) } := { hi.array with }
  obtain ⟨t, ht⟩ := ha.runCommand_completes c
  obtain ⟨r, hr, -⟩ := runCommand_responds ht
  obtain ⟨-, hbusy, hpending, hoffers⟩ := runCommand_ports ht
  obtain ⟨hb, -⟩ := hi.port.of_pending_eq hq
  refine ⟨t, ?_, by rw [hr]; rfl, hpending, hbusy.trans hb, hoffers⟩
  rw [runFor_pending n (hi.port.rsp_of_pending hq) hq hrst, ht]

/-- Settles O20: a command that raises an error answers it in the state its checks leave, and one that succeeds leaves
the ports alone (`effect_frame`). -/
theorem everyCommandAnswersAndKeepsThePorts : Obligations.EveryCommandAnswersAndKeepsThePorts := by
  intro i s t h
  rcases exec_next_cases i h with ⟨e, -, rfl⟩ | hE
  · exact ⟨⟨_, rfl, fun _ => ⟨rfl, rfl, rfl⟩, fun hb => absurd rfl hb, fun _ => rfl⟩, rfl, rfl, rfl, rfl, rfl,
      fun _ => rfl⟩
  · obtain ⟨⟨r, hr, hok, hb, ha⟩, hparams, hbusy, hpending, hoffers, hpins, -, hdraws, -⟩ := effect_frame hE
    exact ⟨⟨r, hr, fun hne => absurd hok hne, hb, ha⟩, hparams, hbusy, hpending, hoffers, hpins, hdraws⟩

/-- Settles O55: the meanings are equal, CLEAR to TRUNCATE 0 (`execTruncate_zero`) and INSERT at LENGTH to PUSH
(`execInsert_length`). -/
theorem equalPairsHaveEqualEffects : Obligations.EqualPairsHaveEqualEffects :=
  ⟨fun s => (execTruncate_zero s).symm, fun s b => execInsert_length b s⟩

/-- Settles O5: with no reset and no response waiting the edge is the one that runs the command in progress
(`step_of_due`), by what it decodes to. -/
theorem stepRunsDecodedCommand : Obligations.StepRunsDecodedCommand := by
  intro s c hrst hr hq
  have hstep := step_of_due hrst hr hq
  exact ⟨fun i hd => hstep.trans (runCommand_of_decode hd _), fun hd => hstep.trans (runCommand_of_illegal hd _)⟩

end

section
/-! PROOFS. The format P encodings as the command rules state them: the opcode decides the command, and a reserved bit
makes the word illegal (R64, R65). -/
namespace Sys2Proof

/-- The mask of the reserved bits of format P keeps bits 31:8. -/
theorem toNat_and_reservedP (w : CmdWord) : (w &&& 0xFFFFFF00).toNat = w.toNat / 256 * 256 := by
  have hmask : w &&& 0xFFFFFF00 = w.extractLsb' 8 24 ++ 0#8 := by
    refine BitVec.eq_of_getLsbD_eq fun i hi => ?_
    have hbit : (0xFFFFFF00 : CmdWord).getLsbD i = decide (8 ≤ i) := by
      revert i
      decide
    rw [BitVec.getLsbD_and, hbit, BitVec.getLsbD_append, BitVec.getLsbD_extractLsb', BitVec.getLsbD_zero]
    by_cases h8 : i < 8
    · simp [h8, show ¬ 8 ≤ i by omega]
    · simp [h8, show 8 ≤ i by omega, show i - 8 < 24 by omega]
  have hhigh : (w.extractLsb' 8 24).toNat = w.toNat / 256 := by
    have := w.isLt
    rw [BitVec.extractLsb'_toNat, Nat.shiftRight_eq_div_pow]
    omega
  rw [hmask, BitVec.toNat_append, hhigh, BitVec.toNat_ofNat, Nat.shiftLeft_eq]
  simp

/-- The decoder on the words of a format P opcode: the command `decodeOp` reads from the opcode, or none where a
reserved bit is set. -/
theorem Machine.encodedP_of_decodeOp {op : CmdWord} {f : Nat → Val → Instr} (hP : formatOf op.toNat = .P)
    (hop : ∀ c : Command, opField c.word = op.toNat → decodeOp c = some (f c.a c.b)) : EncodedP op f := by
  intro c hc
  have hfield : opField c.word = op.toNat := by rw [opField_eq, ← toNat_and_opMask, hc]
  have hreserved : c.word &&& 0xFFFFFF00 = 0 ↔ reservedZero c.word = true := by
    rw [reservedZero, hfield, hP, decide_eq_true_eq, reservedP_iff, ← BitVec.toNat_inj, toNat_and_reservedP]
    simp
  simp only [decode, hreserved, hop c hfield]

end Sys2Proof
end

section
/-! PROOFS. The address decoder (R80 to R83) and the command that exposes it (R84). -/
namespace Sys2Proof.Machine

variable {s : State}

/-! ## The decoder's fields -/

@[simp] theorem locate_wordIdx (p : Params) (w i : Nat) : (locate p w i).wordIdx = i * w / p.wordBits := rfl

@[simp] theorem locate_bitOff (p : Params) (w i : Nat) : (locate p w i).bitOff = i * w % p.wordBits := rfl

@[simp] theorem locate_span (p : Params) (w i : Nat) :
    (locate p w i).span = decide (p.wordBits < i * w % p.wordBits + w) := rfl

theorem wordBits_pos (p : Params) : 0 < p.wordBits := by
  rcases wordBits_eq p with h | h <;> omega

theorem locate_bitOff_lt (p : Params) (w i : Nat) : (locate p w i).bitOff < p.wordBits :=
  Nat.mod_lt _ (wordBits_pos p)

theorem lastWord_of_span {p : Params} {w i : Nat} (h : (locate p w i).span = true) :
    lastWord p w i = (locate p w i).wordIdx + 1 := by rw [lastWord, if_pos h]

theorem wordIdx_le_lastWord (p : Params) (w i : Nat) : (locate p w i).wordIdx ≤ lastWord p w i :=
  Nat.le_add_right _ _

/-! ## Which elements span (R81, R82) -/

/-- Bit `b` of an element lies in word `word_idx`, or past it in an element that spans (R81). -/
theorem element_bit_word (p : Params) {w b : Nat} (i : Nat) (hw : w ≤ 31) (hb : b < w) :
    (i * w + b) / p.wordBits = (locate p w i).wordIdx ∨
      ((locate p w i).span = true ∧ (i * w + b) / p.wordBits = (locate p w i).wordIdx + 1) := by
  have hwb := wordBits_eq p
  obtain ⟨hlow, hhigh⟩ := bit_place p.wordBits (i * w) b hwb
  rcases Nat.lt_or_ge (i * w % p.wordBits + b) p.wordBits with h | h
  · exact .inl (hlow h).1
  · exact .inr ⟨decide_eq_true (by omega), (hhigh h (by omega)).1⟩

/-- Where W divides WORD_BITS every bit offset is a multiple of W, so it leaves room for W bits (R82). -/
theorem span_eq_false_of_dvd {p : Params} {w : Nat} (hd : w ∣ p.wordBits) (i : Nat) :
    (locate p w i).span = false := by
  obtain ⟨k, hk⟩ := hd
  have hk0 : 0 < k := Nat.pos_of_ne_zero fun h => absurd (wordBits_pos p) (by simp [hk, h])
  refine decide_eq_false (Nat.not_lt.2 ?_)
  calc i * w % p.wordBits + w = w * (i % k) + w := by rw [hk, Nat.mul_comm i, Nat.mul_mod_mul_left]
    _ = w * (i % k + 1) := (Nat.mul_succ _ _).symm
    _ ≤ w * k := Nat.mul_le_mul_left _ (Nat.mod_lt _ hk0)
    _ = p.wordBits := hk.symm

/-- Where W does not divide WORD_BITS, the element that begins less than W bits before the end of word 0 spans
(R82). -/
theorem span_of_not_dvd {p : Params} {w : Nat} (h1 : 1 ≤ w) (hd : p.wordBits % w ≠ 0) :
    (locate p w (p.wordBits / w)).span = true := by
  have hdiv : p.wordBits / w * w + p.wordBits % w = p.wordBits := Nat.div_add_mod' _ _
  have hrem : p.wordBits % w < w := Nat.mod_lt _ h1
  have hoff : p.wordBits / w * w % p.wordBits = p.wordBits / w * w := Nat.mod_eq_of_lt (by omega)
  exact decide_eq_true (by omega)

/-! ## DECODE (R84) -/

theorem encodedP_decode : EncodedP 0x40 fun a _ => .decode a :=
  encodedP_of_decodeOp (by decide) fun c hc => by
    have hop : opField c.word = 0x40 := hc
    simp only [decodeOp, hop]

/-- `raise` in the words of the statements (R14, R172). -/
theorem raise_eq_failed {e : Status} (h : e ≠ .ok) (s : State) : raise e s = .next (failed s e e.code.toNat) :=
  congrArg _ (failWith_eq_failed s h)

theorem execDecode_of_dead (h : s.wReg = 0) (a : Nat) : exec (.decode a) s = .next (failed s .notConstructed 4) :=
  (whenLive_of_dead h _).trans (raise_eq_failed (by decide) s)

theorem execDecode_of_live (h : s.wReg ≠ 0) (a : Nat) : exec (.decode a) s =
    .next (respond .ok true (BitVec.ofNat 64 (locate s.params s.w a).wordIdx)
      (locationByte (locate s.params s.w a)) s) :=
  whenLive_of_live h _

/-- `rsp_b` of DECODE as a number: `bit_off` in bits 5:0 and `span` in bit 6 (R84). -/
theorem toNat_locationByte {d : Location} (h : d.bitOff < 64) :
    (locationByte d).toNat = d.bitOff + if d.span then 64 else 0 := by
  have hspan : (0#1 ++ BitVec.ofBool d.span).toNat = if d.span then 1 else 0 := by cases d.span <;> rfl
  rw [locationByte, BitVec.toNat_append, hspan, BitVec.toNat_ofNat, Nat.mod_eq_of_lt h,
    ← Nat.shiftLeft_add_eq_or_of_lt h, Nat.shiftLeft_eq]
  split_ifs <;> omega

/-- An element is no wider than a word, so its word index is at most its index: it fits `rsp_a` where the index does. -/
theorem wordIdx_le_index (p : Params) {w : Nat} (hw : w ≤ 31) (i : Nat) : (locate p w i).wordIdx ≤ i := by
  have hwb : w ≤ p.wordBits := by rcases wordBits_eq p with h | h <;> omega
  exact Nat.div_le_of_le_mul (by rw [Nat.mul_comm p.wordBits]; exact Nat.mul_le_mul_left _ hwb)

end Sys2Proof.Machine

open Sys2Proof Sys2Proof.Machine

/-- Settles O26: a bit offset is below WORD_BITS (`locate_bitOff_lt`), so the high part is shorter than the element, and
each bit is in one of the two words (`element_bit_word`). -/
theorem elementSpansAtMostTwoWords : Obligations.ElementSpansAtMostTwoWords := by
  intro p w i _ hw
  refine ⟨fun hspan => ?_, fun b hb => element_bit_word p i hw hb⟩
  have hoff := locate_bitOff_lt p w i
  have hlong : p.wordBits < (locate p w i).bitOff + w := of_decide_eq_true hspan
  omega

/-- Settles O27: a W that divides WORD_BITS leaves room at every offset (`span_eq_false_of_dvd`), and another spans at
index `WORD_BITS / W` (`span_of_not_dvd`). -/
theorem elementsSpanUnlessWidthDivides : Obligations.ElementsSpanUnlessWidthDivides := by
  intro p w h1 _
  refine ⟨fun hd => span_eq_false_of_dvd (Nat.dvd_of_mod_eq_zero hd), fun hnone => ?_⟩
  by_contra hd
  exact Bool.false_ne_true ((hnone _).symm.trans (span_of_not_dvd h1 hd))

/-- Settles O28: only a live state has an index below CAPACITY, and the element's last word is allocated
(`lastWord_lt_words`). -/
theorem elementsBelowCapacityAreAllocated : Obligations.ElementsBelowCapacityAreAllocated := by
  intro s i hi
  have h0 : s.wReg ≠ 0 := fun h => by rw [capacity_of_dead h] at hi; omega
  have hlast := lastWord_lt_words h0 hi
  exact ⟨lt_of_le_of_lt (wordIdx_le_lastWord _ _ _) hlast, fun hspan => lastWord_of_span hspan ▸ hlast⟩

/-- Settles O49: DECODE answers the decoder's location (`execDecode_of_live`); the word index fits the 64-bit response
as A does (`wordIdx_le_index`), and the byte is `toNat_locationByte`. -/
theorem decodeReportsPosition : Obligations.DecodeReportsPosition := by
  refine ⟨encodedP_decode, fun s a hp ha => ⟨fun h0 => execDecode_of_dead h0 a, fun h0 =>
    ⟨_, _, execDecode_of_live h0 a, ?_, ?_⟩⟩⟩
  · obtain ⟨-, -, hidx⟩ := params_bounds hp
    have hle := wordIdx_le_index s.params (w_le s) a
    have ha64 : a < 2 ^ 64 := lt_of_lt_of_le ha (Nat.pow_le_pow_right (by omega) hidx)
    rw [BitVec.toNat_ofNat, Nat.mod_eq_of_lt (lt_of_le_of_lt hle ha64), locate_wordIdx]
  · have hoff := locate_bitOff_lt s.params s.w a
    have hwb := wordBits_eq s.params
    rw [toNat_locationByte (by omega)]
    simp only [locate_bitOff, locate_span, decide_eq_true_eq]

end

section
/-! PROOFS. Element access and the accessors (R93 to R100): GET and SET where each check decides, what a written element
does to the elements and to the bit stream, and the registers the accessors answer. -/
namespace Sys2Proof.Machine

variable {s : State}

/-! ## The words of the access commands -/

theorem encodedP_get : EncodedP 0x10 fun a _ => .get a :=
  encodedP_of_decodeOp (by decide) fun c (hc : opField c.word = 0x10) => by simp only [decodeOp, hc]

theorem encodedP_set : EncodedP 0x11 fun a b => .set a b :=
  encodedP_of_decodeOp (by decide) fun c (hc : opField c.word = 0x11) => by simp only [decodeOp, hc]

theorem encodedP_len : EncodedP 0x12 fun _ _ => .len :=
  encodedP_of_decodeOp (by decide) fun c (hc : opField c.word = 0x12) => by simp only [decodeOp, hc]

theorem encodedP_capacity : EncodedP 0x13 fun _ _ => .capacity :=
  encodedP_of_decodeOp (by decide) fun c (hc : opField c.word = 0x13) => by simp only [decodeOp, hc]

theorem encodedP_isEmpty : EncodedP 0x14 fun _ _ => .isEmpty :=
  encodedP_of_decodeOp (by decide) fun c (hc : opField c.word = 0x14) => by simp only [decodeOp, hc]

theorem encodedP_width : EncodedP 0x15 fun _ _ => .width :=
  encodedP_of_decodeOp (by decide) fun c (hc : opField c.word = 0x15) => by simp only [decodeOp, hc]

/-! ## The checks in the words of the statements (R14, R172) -/

theorem whenLive_fails (h : s.wReg = 0) (k : Result) : whenLive s k = .next (failed s .notConstructed 4) :=
  (whenLive_of_dead h k).trans (raise_eq_failed (by decide) s)

theorem whenBelow_fails {a bound : Nat} (h : bound ≤ a) (k : Result) :
    whenBelow s a bound k = .next (failed s .indexOutOfRange 1) :=
  (whenBelow_of_le h k).trans (raise_eq_failed (by decide) s)

theorem orRaise_condVal_fails {p : Params} {w : Nat} {v : Val} (hw : w ≤ 31) (hr : p.truncPolicy = .reject)
    (h : 2 ^ w ≤ v.toNat) (k : Val → Result) :
    orRaise s (condVal p w v) k = .next (failed s .valueTooWide 7) := by
  rw [condVal_of_reject hw hr h, orRaise_error]
  exact raise_eq_failed (by decide) s

/-! ## GET (R93) -/

theorem execGet_of_le (h0 : s.wReg ≠ 0) {a : Nat} (ha : s.length ≤ a) :
    exec (.get a) s = .next (failed s .indexOutOfRange 1) :=
  (whenLive_of_live h0 _).trans (whenBelow_fails ha _)

/-- Below LENGTH, and so below CAPACITY, the element's words exist, and GET answers it zero-extended. -/
theorem execGet_of_lt (hi : ArrayInv s) (h0 : s.wReg ≠ 0) {a : Nat} (ha : a < s.length) :
    exec (.get a) s = .next (answered s (zextVal (s.elem a))) :=
  calc exec (.get a) s = whenBelow s a s.length (withElem s a (.next (answer (s.elem a).toNat s))) :=
        whenLive_of_live h0 _
    _ = withElem s a (.next (answer (s.elem a).toNat s)) := whenBelow_of_lt ha _
    _ = .next (answer (s.elem a).toNat s) := withElem_of_lt hi h0 (lt_of_lt_of_le ha hi.lengthLe) _
    _ = .next (answered s (zextVal (s.elem a))) := by
        rw [answer_eq_answered, zextVal, BitVec.ofNat_toNat]

/-- R90: an element's bits are global bits `i·W .. i·W + W − 1`. -/
theorem getLsbD_elem (hi : ArrayInv s) (i b : Nat) :
    (s.elem i).getLsbD b = (decide (b < s.w) && s.globalBit (i * s.w + b)) :=
  getLsbD_elemRead (w_le s) hi.narrow i b

/-! ## SET (R94) -/

theorem getLsbD_lowBits {w : Nat} (hw : w ≤ 31) (v : Val) (b : Nat) :
    (lowBits w v).getLsbD b = (decide (b < w) && v.getLsbD b) := by
  rw [← and_maskW w v hw, BitVec.getLsbD_and, getLsbD_maskW hw, Bool.and_comm]

/-- R99, R100: the written element reads as written, every other one as before. -/
theorem elem_writeElem (hi : ArrayInv s) (i : Nat) {v : Val} (hv : v.toNat < 2 ^ s.w) (j : Nat) :
    (s.writeElem i v).elem j = if j = i then v else s.elem j :=
  elemRead_elemWrite (w_le s) hi.memWf hi.narrow i hv j

/-- R91: storing a value's low W bits writes exactly the element's global bits, with the value's bits. -/
theorem globalBit_writeElem_lowBits (hi : ArrayInv s) (i : Nat) (v : Val) (g : Nat) :
    (s.writeElem i (lowBits s.w v)).globalBit g =
      if i * s.w ≤ g ∧ g < i * s.w + s.w then v.getLsbD (g - i * s.w) else s.globalBit g := by
  refine (globalBit_elemWrite (w_le s) hi.memWf i (lowBits_lt s.w v) g).trans ?_
  split_ifs with hg
  · have hb : g - i * s.w < s.w := by omega
    rw [getLsbD_lowBits (w_le s), decide_eq_true hb, Bool.true_and]
  · rfl

/-- What SET leaves when it succeeds: the cursor invalidated and the value's low W bits written to the element. -/
def afterSet (s : State) (a : Nat) (b : Val) : State :=
  acknowledge ((invalidateIter s).writeElem a (lowBits s.w b))

theorem execSet_of_dead (h : s.wReg = 0) (a : Nat) (b : Val) :
    exec (.set a b) s = .next (failed { s with iterValid := false } .notConstructed 4) :=
  whenLive_fails (s := invalidateIter s) h _

theorem execSet_of_live (h0 : s.wReg ≠ 0) (a : Nat) (b : Val) :
    exec (.set a b) s = whenBelow (invalidateIter s) a s.length
      (orRaise (invalidateIter s) (condVal s.params s.w b) fun v =>
        withElem (invalidateIter s) a (.next (acknowledge ((invalidateIter s).writeElem a v)))) :=
  whenLive_of_live (s := invalidateIter s) h0 _

theorem execSet_of_le (h0 : s.wReg ≠ 0) {a : Nat} (ha : s.length ≤ a) (b : Val) :
    exec (.set a b) s = .next (failed { s with iterValid := false } .indexOutOfRange 1) :=
  (execSet_of_live h0 a b).trans (whenBelow_fails ha _)

theorem execSet_of_reject (h0 : s.wReg ≠ 0) {a : Nat} (ha : a < s.length) {b : Val}
    (hr : s.params.truncPolicy = .reject) (hb : 2 ^ s.w ≤ b.toNat) :
    exec (.set a b) s = .next (failed { s with iterValid := false } .valueTooWide 7) := by
  rw [execSet_of_live h0, whenBelow_of_lt ha]
  exact orRaise_condVal_fails (w_le s) hr hb _

theorem execSet_of_accepts (hi : ArrayInv s) (h0 : s.wReg ≠ 0) {a : Nat} (ha : a < s.length) {b : Val}
    (hb : accepts s.params s.w b) : exec (.set a b) s = .next (afterSet s a b) := by
  rw [execSet_of_live h0, whenBelow_of_lt ha, condVal_of_accepts (w_le s) hb, orRaise_ok]
  exact withElem_of_lt hi.invalidateIter h0 (lt_of_lt_of_le ha hi.lengthLe) _

theorem elem_afterSet (hi : ArrayInv s) (a : Nat) (b : Val) (j : Nat) :
    (afterSet s a b).elem j = if j = a then lowBits s.w b else s.elem j :=
  elem_writeElem hi.invalidateIter a (lowBits_lt s.w b) j

/-- After a successful SET a GET below LENGTH answers the written element or, of another index, the old one. -/
theorem execGet_afterSet (hi : ArrayInv s) (h0 : s.wReg ≠ 0) {a : Nat} (ha : a < s.length) {b : Val}
    (hb : accepts s.params s.w b) {j : Nat} (hj : j < s.length) :
    exec (.get j) (afterSet s a b) =
      .next (answered (afterSet s a b) (zextVal (if j = a then lowBits s.w b else s.elem j))) := by
  have hset : ArrayInv (afterSet s a b) := hi.exec (execSet_of_accepts hi h0 ha hb)
  rw [← elem_afterSet hi a b j]
  exact execGet_of_lt hset h0 hj

/-! ## The accessors (R95 to R98) -/

/-- In a live array an accessor answers its number exactly where the 64-bit response value holds it. -/
theorem whenLive_answers (h0 : s.wReg ≠ 0) {n : Nat} (hn : n < 2 ^ 64) :
    ∃ r, whenLive s (.next (answer n s)) = .next (answered s r) ∧ r.toNat = n :=
  ⟨_, whenLive_of_live h0 _, by rw [BitVec.toNat_ofNat, Nat.mod_eq_of_lt hn]⟩

/-- A count of the index/size type fits the 64-bit response value (R8). -/
theorem capacity_lt_two_pow_64 (hi : ArrayInv s) : s.capacity < 2 ^ 64 := by
  obtain ⟨-, -, hidx⟩ := params_bounds hi.params
  exact lt_of_lt_of_le (capacity_lt hi) (Nat.pow_le_pow_right (by omega) hidx)

end Sys2Proof.Machine

open Sys2Proof Sys2Proof.Machine

/-- Settles O30: GET of the state SET leaves answers the written element or the old one (`execGet_afterSet`), and the
written one is the value modulo 2^W. -/
theorem setThenGetAndNeighboursKept : Obligations.SetThenGetAndNeighboursKept := by
  intro s a b hi h0 ha hb
  refine ⟨afterSet s a b, execSet_of_accepts hi h0 ha hb, ⟨_, execGet_afterSet hi h0 ha hb ha, ?_⟩, fun j hj hja =>
    ⟨_, execGet_of_lt hi h0 hj, ?_⟩⟩
  · rw [if_pos rfl, zextVal_toNat, lowBits_toNat]
  · rw [execGet_afterSet hi h0 ha hb hj, if_neg hja]

/-- Settles O37: the checks in order, then the element zero-extended (`execGet_of_lt`), whose bits are the storage
stream's (`getLsbD_elem`). -/
theorem getReadsElement : Obligations.GetReadsElement := by
  refine ⟨encodedP_get, fun s a hi => ⟨fun h0 => whenLive_fails h0 _, fun h0 ha => execGet_of_le h0 ha, fun h0 ha =>
    ⟨_, execGet_of_lt hi h0 ha, fun b => ?_⟩⟩⟩
  rw [getLsbD_zextVal, getLsbD_elem hi]

/-- Settles O38: the checks in order, then the write (`execSet_of_accepts`), bit by bit of the storage stream
(`globalBit_writeElem_lowBits`). -/
theorem setWritesElementBitsOnly : Obligations.SetWritesElementBitsOnly := by
  refine ⟨encodedP_set, fun s a b hi => ⟨fun h0 => execSet_of_dead h0 a b, fun h0 ha => execSet_of_le h0 ha b,
    fun h0 ha hr hb => execSet_of_reject h0 ha hr hb, fun h0 ha hb =>
    ⟨afterSet s a b, execSet_of_accepts hi h0 ha hb, rfl, ?_⟩⟩⟩
  exact globalBit_writeElem_lowBits hi.invalidateIter a b

/-- Settles O39: each accessor answers its register, which fits the response value: LENGTH is at most CAPACITY
(`capacity_lt_two_pow_64`), and W at most 31. -/
theorem accessorsAnswerTheRegisters : Obligations.AccessorsAnswerTheRegisters := by
  refine ⟨encodedP_len, encodedP_capacity, encodedP_isEmpty, encodedP_width, fun s hi => ⟨fun h0 =>
    ⟨whenLive_fails h0 _, whenLive_fails h0 _, whenLive_fails h0 _, whenLive_fails h0 _⟩, fun h0 => ?_⟩⟩
  have hcap := capacity_lt_two_pow_64 hi
  have hlen : s.length < 2 ^ 64 := lt_of_le_of_lt hi.lengthLe hcap
  have hempty : (if s.length = 0 then 1 else 0) < 2 ^ 64 := by split_ifs <;> decide
  have hwidth : s.w < 2 ^ 64 := lt_of_le_of_lt (w_le s) (by decide)
  refine ⟨whenLive_answers h0 hlen, ?_, whenLive_answers h0 hempty, whenLive_answers h0 hwidth⟩
  have hquot : s.capacity = s.words * s.params.wordBits / s.wReg.toNat := capacity_of_live h0
  rw [← hquot]
  exact whenLive_answers h0 hcap

end

section
/-! PROOFS. The format C encodings as the command rules state them: the opcode decides the constructor, whose width is
the WF field, and a reserved bit makes the word illegal (R64, R65). -/
namespace Sys2Proof

/-- The mask of the reserved bits of format C keeps bits 31:13. -/
theorem and_reservedC (w : CmdWord) : w &&& 0xFFFFE000 = w.extractLsb' 13 19 ++ 0#13 := by
  refine BitVec.eq_of_getLsbD_eq fun i hi => ?_
  have hbit : (0xFFFFE000 : CmdWord).getLsbD i = decide (13 ≤ i) := by
    revert i
    decide
  rw [BitVec.getLsbD_and, hbit, BitVec.getLsbD_append, BitVec.getLsbD_extractLsb', BitVec.getLsbD_zero]
  by_cases h13 : i < 13
  · simp [h13, show ¬ 13 ≤ i by omega]
  · simp [h13, show 13 ≤ i by omega, show i - 13 < 19 by omega, show 13 + (i - 13) = i by omega]

theorem and_reservedC_eq_zero_iff (w : CmdWord) : w &&& 0xFFFFE000 = 0 ↔ w.extractLsb' 13 19 = 0 := by
  rw [and_reservedC, ← BitVec.toNat_inj, ← BitVec.toNat_inj, BitVec.toNat_append, Nat.shiftLeft_eq]
  simp

/-- The decoder on the words of a format C opcode: the constructor `decodeOp` reads from the opcode, with the WF field,
or none where a reserved bit is set. -/
theorem Machine.encodedC_of_decodeOp {op : CmdWord} {f : Width → Nat → Val → Instr} (hC : formatOf op.toNat = .C)
    (hop : ∀ c : Command, opField c.word = op.toNat → decodeOp c = some (f (wfField c.word) c.a c.b)) :
    EncodedC op f := by
  intro c hc
  have hfield : opField c.word = op.toNat := by rw [opField_eq, ← toNat_and_opMask, hc]
  have hreserved : c.word &&& 0xFFFFE000 = 0 ↔ reservedZero c.word = true := by
    rw [reservedZero, hfield, hC, decide_eq_true_eq, and_reservedC_eq_zero_iff]
  simp only [decode, hreserved, hop c hfield, wfField]

end Sys2Proof
end

section
/-! PROOFS. The capacity manager and the life of an array (R110 to R116): what growth guarantees, and each constructor
and DROP where its checks decide. -/
namespace Sys2Proof.Machine

variable {s : State} {wf : Width} {a : Nat} {b : Val}

/-- R111(c): growth doubles where the RAM allows. -/
theorem two_mul_le_newWords {p : Params} {words : Nat} (need : Nat) (h : 2 * words ≤ p.maxWords) :
    2 * words ≤ newWords p words need :=
  le_max_of_le_right (le_min (le_max_left _ _) h)

/-! ## The words of the lifecycle commands -/

theorem encodedC_new : EncodedC 0x01 fun wf _ _ => .new wf :=
  encodedC_of_decodeOp (by decide) fun c (hc : opField c.word = 0x01) => by simp only [decodeOp, hc]

theorem encodedC_withCapacity : EncodedC 0x02 fun wf a _ => .withCapacity wf a :=
  encodedC_of_decodeOp (by decide) fun c (hc : opField c.word = 0x02) => by simp only [decodeOp, hc]

theorem encodedC_newFilled : EncodedC 0x03 fun wf a b => .newFilled wf a b :=
  encodedC_of_decodeOp (by decide) fun c (hc : opField c.word = 0x03) => by simp only [decodeOp, hc]

theorem encodedP_drop : EncodedP 0x04 fun _ _ => .drop :=
  encodedP_of_decodeOp (by decide) fun c (hc : opField c.word = 0x04) => by simp only [decodeOp, hc]

/-! ## The constructors' checks in the words of the statements (R113, R172) -/

theorem whenConstructible_fails_of_live (h : s.wReg ≠ 0) (wf : Width) (k : Result) :
    whenConstructible s wf k = .next (failed s .alreadyConstructed 5) :=
  (whenConstructible_of_live h wf k).trans (raise_eq_failed (by decide) s)

theorem whenConstructible_fails_of_zero (h0 : s.wReg = 0) (hw : wf = 0) (k : Result) :
    whenConstructible s wf k = .next (failed s .badWidth 6) := by
  rw [hw]
  exact (whenConstructible_zero h0 k).trans (raise_eq_failed (by decide) s)

theorem raise_allocFailed (s : State) : raise .allocFailed s = .next (failed s .allocFailed 3) :=
  raise_eq_failed (by decide) s

/-! ## WITH_CAPACITY (R114) -/

theorem execWithCapacity_of_dead (h0 : s.wReg = 0) (hw : wf ≠ 0) (a : Nat) :
    exec (.withCapacity wf a) s =
      if s.params.maxWords < wordsFor s.params wf.toNat a then raise .allocFailed (invalidateIter s)
      else .next (acknowledge { invalidateIter s with
        wReg := wf, length := 0, words := wordsFor s.params wf.toNat a, iterPos := 0 }) :=
  whenConstructible_of_dead (s := invalidateIter s) h0 hw _

/-! ## NEW_FILLED (R115) -/

/-- What NEW_FILLED leaves when it succeeds: an array of A elements over storage the loop of R115 has filled. -/
def afterNewFilled (s : State) (wf : Width) (a : Nat) (b : Val) : State :=
  acknowledge { invalidateIter s with
    wReg := wf, length := a, words := wordsFor s.params wf.toNat a, iterPos := 0
    mem := fillElems s.params wf.toNat s.mem (lowBits wf.toNat b) a }

theorem width_le (wf : Width) : wf.toNat ≤ 31 := Nat.le_of_lt_succ wf.isLt

theorem execNewFilled_of_reject (h0 : s.wReg = 0) (hw : wf ≠ 0) (hr : s.params.truncPolicy = .reject)
    (hb : 2 ^ wf.toNat ≤ b.toNat) (a : Nat) :
    exec (.newFilled wf a b) s = .next (failed { s with iterValid := false } .valueTooWide 7) :=
  (whenConstructible_of_dead (s := invalidateIter s) h0 hw _).trans (orRaise_condVal_fails (width_le wf) hr hb _)

theorem execNewFilled_of_accepts (h0 : s.wReg = 0) (hw : wf ≠ 0) (hb : accepts s.params wf.toNat b) (a : Nat) :
    exec (.newFilled wf a b) s =
      if s.params.maxWords < wordsFor s.params wf.toNat a then raise .allocFailed (invalidateIter s)
      else .next (afterNewFilled s wf a b) := by
  refine (whenConstructible_of_dead (s := invalidateIter s) h0 hw _).trans ?_
  rw [invalidateIter_params, condVal_of_accepts (width_le wf) hb, orRaise_ok]
  rfl

/-- Every element of the new array is the value's low W bits (R115). -/
theorem toNat_elem_afterNewFilled (hi : ArrayInv s) (wf : Width) (b : Val) {j : Nat} (hj : j < a) :
    ((afterNewFilled s wf a b).elem j).toNat = b.toNat % 2 ^ wf.toNat := by
  have hfill := elemRead_fillElems (width_le wf) hi.memWf hi.narrow (lowBits_lt wf.toNat b) a j
  rw [if_pos hj] at hfill
  exact (congrArg BitVec.toNat hfill).trans (lowBits_toNat wf.toNat b)

/-- The loop of R115 writes no bit from `A·W` on (R29, R47). -/
theorem globalBit_afterNewFilled (hi : ArrayInv s) (wf : Width) (b : Val) {g : Nat} (hg : a * wf.toNat ≤ g) :
    (afterNewFilled s wf a b).globalBit g = s.globalBit g :=
  globalBit_fillElems (width_le wf) hi.memWf (lowBits_lt wf.toNat b) a g hg

end Sys2Proof.Machine

open Sys2Proof Sys2Proof.Machine

/-- Settles O32: Grow's one test is the need against the RAM (`grow_of_lt`, `grow_of_le`), and its new word count is the
larger of the need and the doubled words within the RAM. -/
theorem growthKeepsItsLaws : Obligations.GrowthKeepsItsLaws := by
  rintro s required need hi h0 rfl
  refine ⟨fun hn => grow_of_lt hn, fun hn => ⟨_, grow_of_le hn, rfl, le_newWords _ _ _, newWords_le hn,
    words_le_newWords hi.wordsLe, ?_, two_mul_le_newWords _⟩⟩
  exact le_capacity_grown h0 (le_newWords _ _ _)

/-- Settles O34: the checks in order, then the words the count needs, which make room for it (`le_capacity_grown`). -/
theorem withCapacityAllocatesExactNeed : Obligations.WithCapacityAllocatesExactNeed := by
  refine ⟨encodedC_withCapacity, ?_⟩
  rintro s wf a need rfl
  refine ⟨fun h => whenConstructible_fails_of_live (s := invalidateIter s) h wf _,
    fun h0 hw => whenConstructible_fails_of_zero (s := invalidateIter s) h0 hw _, fun h0 hw hn => ?_,
    fun h0 hw hn => ⟨_, ?_, rfl, ?_⟩⟩
  · exact (execWithCapacity_of_dead h0 hw a).trans ((if_pos hn).trans (raise_allocFailed _))
  · exact (execWithCapacity_of_dead h0 hw a).trans (if_neg (Nat.not_lt.2 hn))
  · exact le_capacity_grown (s := { s with wReg := wf }) hw (le_refl _)

/-- Settles O35: the checks in order, then the loop of R115 over the new array (`toNat_elem_afterNewFilled`,
`globalBit_afterNewFilled`). -/
theorem newFilledFillsEveryElement : Obligations.NewFilledFillsEveryElement := by
  refine ⟨encodedC_newFilled, ?_⟩
  rintro s wf a b need hi rfl
  refine ⟨fun h => whenConstructible_fails_of_live (s := invalidateIter s) h wf _,
    fun h0 hw => whenConstructible_fails_of_zero (s := invalidateIter s) h0 hw _,
    fun h0 hw hr hb => execNewFilled_of_reject h0 hw hr hb a, fun h0 hw hb hn => ?_,
    fun h0 hw hb hn => ⟨afterNewFilled s wf a b, ?_, rfl, fun j hj => toNat_elem_afterNewFilled hi wf b hj,
      fun g hg => globalBit_afterNewFilled hi wf b hg⟩⟩
  · exact (execNewFilled_of_accepts h0 hw hb a).trans ((if_pos hn).trans (raise_allocFailed _))
  · exact (execNewFilled_of_accepts h0 hw hb a).trans (if_neg (Nat.not_lt.2 hn))

/-- Settles O33: the constructor's two checks, then the registers of an empty array. -/
theorem newConstructsEmptyArray : Obligations.NewConstructsEmptyArray :=
  ⟨encodedC_new, fun s wf => ⟨fun h => whenConstructible_fails_of_live (s := invalidateIter s) h wf _,
    fun h0 hw => whenConstructible_fails_of_zero (s := invalidateIter s) h0 hw _,
    fun h0 hw => whenConstructible_of_dead (s := invalidateIter s) h0 hw _⟩⟩

/-- Settles O36: DROP's one check, then the registers of no array. -/
theorem dropLeavesNoArray : Obligations.DropLeavesNoArray :=
  ⟨encodedP_drop, fun s => ⟨fun h0 => whenLive_fails (s := invalidateIter s) h0 _,
    fun h0 => whenLive_of_live (s := invalidateIter s) h0 _⟩⟩

end

section
/-! PROOFS. The growth commands (R117, R118): PUSH and RESERVE where each check and the capacity manager decide. -/
namespace Sys2Proof.Machine

variable {s : State} {a : Nat} {b : Val}

theorem encodedP_push : EncodedP 0x20 fun _ b => .push b :=
  encodedP_of_decodeOp (by decide) fun c (hc : opField c.word = 0x20) => by simp only [decodeOp, hc]

theorem encodedP_reserve : EncodedP 0x25 fun a _ => .reserve a :=
  encodedP_of_decodeOp (by decide) fun c (hc : opField c.word = 0x25) => by simp only [decodeOp, hc]

/-! ## The room check of PUSH and INSERT -/

/-- A full array whose next element the RAM cannot hold has no room (R110). -/
theorem roomForOne_of_stuck (hi : ArrayInv s) (h0 : s.wReg ≠ 0) (hl : s.length = s.capacity)
    (hn : s.params.maxWords < wordsFor s.params s.w (s.length + 1)) : roomForOne s = .error .allocFailed := by
  rcases roomForOne_cases hi h0 with ⟨hlt, -⟩ | ⟨-, -, h⟩ | ⟨-, hle, -⟩
  · omega
  · exact h
  · omega

/-- Where there is room, or the RAM has the words for it, the check leaves the words `Room` names. -/
theorem roomForOne_of_room (hi : ArrayInv s) (h0 : s.wReg ≠ 0) {k : Nat} (hk : Room s k) :
    roomForOne s = .ok { s with words := k } := by
  rcases hk with ⟨hl, rfl⟩ | ⟨hl, hn, rfl⟩
  · exact if_neg hl
  · rcases roomForOne_cases hi h0 with ⟨hlt, -⟩ | ⟨-, hlt, -⟩ | ⟨-, -, h⟩
    · omega
    · omega
    · exact h

/-- The words after the room check as R117 writes them: grown exactly when the array was full. -/
theorem room_ite (h : s.length ≠ s.capacity ∨ wordsFor s.params s.w (s.length + 1) ≤ s.params.maxWords) :
    Room s (if s.length = s.capacity then newWords s.params s.words (wordsFor s.params s.w (s.length + 1))
      else s.words) := by
  split_ifs with hl
  · exact .inr ⟨hl, h.resolve_left (not_not.2 hl), rfl⟩
  · exact .inl ⟨hl, rfl⟩

/-! ## PUSH (R117) -/

/-- What PUSH leaves when it succeeds with `k` words: the value's low W bits at index LENGTH, and LENGTH one more. -/
def afterPush (s : State) (k : Nat) (b : Val) : State :=
  acknowledge { (invalidateIter s).writeElem s.length (lowBits s.w b) with words := k, length := s.length + 1 }

theorem execPush_of_reject (h0 : s.wReg ≠ 0) (hr : s.params.truncPolicy = .reject) (hb : 2 ^ s.w ≤ b.toNat) :
    exec (.push b) s = .next (failed { s with iterValid := false } .valueTooWide 7) :=
  (whenLive_of_live (s := invalidateIter s) h0 _).trans (orRaise_condVal_fails (w_le s) hr hb _)

theorem execPush_of_accepts (h0 : s.wReg ≠ 0) (hb : accepts s.params s.w b) :
    exec (.push b) s = orRaise (invalidateIter s) (roomForOne (invalidateIter s)) fun g =>
      withElem g g.length
        (.next (acknowledge { g.writeElem g.length (lowBits s.w b) with length := g.length + 1 })) := by
  refine (whenLive_of_live (s := invalidateIter s) h0 _).trans ?_
  rw [invalidateIter_params, invalidateIter_w, condVal_of_accepts (w_le s) hb, orRaise_ok]

theorem execPush_of_stuck (hi : ArrayInv s) (h0 : s.wReg ≠ 0) (hb : accepts s.params s.w b)
    (hl : s.length = s.capacity) (hn : s.params.maxWords < wordsFor s.params s.w (s.length + 1)) :
    exec (.push b) s = .next (failed { s with iterValid := false } .allocFailed 3) := by
  rw [execPush_of_accepts h0 hb, roomForOne_of_stuck hi.invalidateIter h0 hl hn, orRaise_error]
  exact raise_allocFailed _

/-- With room the element at index LENGTH lies in allocated words, so it is written. -/
theorem execPush_of_room (hi : ArrayInv s) (h0 : s.wReg ≠ 0) (hb : accepts s.params s.w b) {k : Nat}
    (hk : Room s k) : exec (.push b) s = .next (afterPush s k b) := by
  rw [execPush_of_accepts h0 hb, roomForOne_of_room hi.invalidateIter h0 hk, orRaise_ok]
  obtain ⟨hl, hle, hm⟩ := room_sound hi h0 hk
  exact withElem_of_lt (hi.invalidateIter.grown h0 hle hm) h0 hl _

/-! ## RESERVE (R118) -/

theorem le_capMax_iff (p : Params) (n : Nat) : n ≤ p.capMax ↔ n < 2 ^ p.idxBits :=
  (Nat.lt_iff_le_pred (Nat.two_pow_pos _)).symm

/-- A count whose words the RAM has fits the index/size type (R9). -/
theorem lt_two_pow_of_wordsFor_le {p : Params} (hp : p.wf = true) {w n : Nat} (h1 : 1 ≤ w)
    (hn : wordsFor p w n ≤ p.maxWords) : n < 2 ^ p.idxBits := by
  obtain ⟨-, hram, -⟩ := params_bounds hp
  calc n ≤ n * w := Nat.le_mul_of_pos_right n h1
    _ ≤ p.maxWords * p.wordBits := (wordsFor_le_iff p w n _).1 hn
    _ < 2 ^ p.idxBits := hram

theorem execReserve_of_over (h0 : s.wReg ≠ 0) (ha : 2 ^ s.params.idxBits ≤ s.length + a) :
    exec (.reserve a) s = .next (failed { s with iterValid := false } .capacityOverflow 2) := by
  have hover : s.params.capMax < s.length + a := Nat.lt_of_not_le fun h => by
    rw [le_capMax_iff] at h
    omega
  refine (whenLive_of_live (s := invalidateIter s) h0 _).trans ?_
  rw [invalidateIter_params, invalidateIter_length, checkCap_of_lt hover, orRaise_error]
  exact raise_eq_failed (by decide) _

/-- Past its overflow check RESERVE grows if there is no room. -/
theorem execReserve_of_lt (h0 : s.wReg ≠ 0) (ha : s.length + a < 2 ^ s.params.idxBits) :
    exec (.reserve a) s =
      if s.capacity < s.length + a then
        orRaise (invalidateIter s) (grow (invalidateIter s) (s.length + a)) fun g => .next (acknowledge g)
      else .next (acknowledge (invalidateIter s)) := by
  refine (whenLive_of_live (s := invalidateIter s) h0 _).trans ?_
  rw [invalidateIter_params, invalidateIter_length, checkCap_of_le ((le_capMax_iff _ _).2 ha), orRaise_ok]
  rfl

theorem execReserve_of_room (hi : ArrayInv s) (h0 : s.wReg ≠ 0) (ha : s.length + a ≤ s.capacity) :
    exec (.reserve a) s = .next (acked { s with iterValid := false }) := by
  rw [execReserve_of_lt h0 (lt_of_le_of_lt ha (capacity_lt hi)), if_neg (Nat.not_lt.2 ha)]
  rfl

theorem execReserve_of_stuck (h0 : s.wReg ≠ 0) (ha : s.length + a < 2 ^ s.params.idxBits)
    (hc : s.capacity < s.length + a) (hn : s.params.maxWords < wordsFor s.params s.w (s.length + a)) :
    exec (.reserve a) s = .next (failed { s with iterValid := false } .allocFailed 3) := by
  rw [execReserve_of_lt h0 ha, if_pos hc, grow_of_lt (s := invalidateIter s) hn, orRaise_error]
  exact raise_allocFailed _

theorem execReserve_grows (hi : ArrayInv s) (h0 : s.wReg ≠ 0) (hc : s.capacity < s.length + a)
    (hn : wordsFor s.params s.w (s.length + a) ≤ s.params.maxWords) :
    exec (.reserve a) s = .next (acknowledge { invalidateIter s with
      words := newWords s.params s.words (wordsFor s.params s.w (s.length + a)) }) := by
  rw [execReserve_of_lt h0 (lt_two_pow_of_wordsFor_le hi.params (one_le_w h0) hn), if_pos hc,
    grow_of_le (s := invalidateIter s) hn, orRaise_ok]
  rfl

end Sys2Proof.Machine

open Sys2Proof Sys2Proof.Machine

/-- Settles O40: the checks in order, the room check (`execPush_of_stuck`, `execPush_of_room`), and the write at index
LENGTH bit by bit of the storage stream (`globalBit_writeElem_lowBits`). -/
theorem pushAppendsElement : Obligations.PushAppendsElement := by
  refine ⟨encodedP_push, ?_⟩
  rintro s b need hi rfl
  refine ⟨fun h0 => whenLive_fails (s := invalidateIter s) h0 _, fun h0 hr hb => execPush_of_reject h0 hr hb,
    fun h0 hb hl hn => execPush_of_stuck hi h0 hb hl hn, fun h0 hb hroom => ?_⟩
  have hpush := execPush_of_room hi h0 hb (room_ite hroom)
  exact ⟨_, hpush, rfl, (hi.exec hpush).lengthLe, globalBit_writeElem_lowBits hi.invalidateIter s.length b⟩

/-- Settles O41: the checks in order, then growth only where there is no room (`execReserve_of_room`,
`execReserve_grows`), which makes room for what was required (`le_capacity_grown`). -/
theorem reserveEnsuresCapacity : Obligations.ReserveEnsuresCapacity := by
  refine ⟨encodedP_reserve, ?_⟩
  rintro s a need hi rfl
  refine ⟨fun h0 => whenLive_fails (s := invalidateIter s) h0 _, fun h0 ha => execReserve_of_over h0 ha,
    fun h0 ha => execReserve_of_room hi h0 ha, fun h0 ha hc hn => execReserve_of_stuck h0 ha hc hn,
    fun h0 hc hn => ⟨_, execReserve_grows hi h0 hc hn, rfl, ?_⟩⟩
  exact le_capacity_grown h0 (le_newWords _ _ _)

end

section
/-! PROOFS. The shrink and shift commands (R130 to R134): each where its checks decide, what the loops of INSERT and
REMOVE leave of the elements and of the bit stream, and the pairs of commands that undo each other (R135). -/
namespace Sys2Proof.Machine

variable {s t : State} {a : Nat} {b : Val}

/-! ## The words of the shrink commands -/

theorem encodedP_pop : EncodedP 0x21 fun _ _ => .pop :=
  encodedP_of_decodeOp (by decide) fun c (hc : opField c.word = 0x21) => by simp only [decodeOp, hc]

theorem encodedP_insert : EncodedP 0x22 fun a b => .insert a b :=
  encodedP_of_decodeOp (by decide) fun c (hc : opField c.word = 0x22) => by simp only [decodeOp, hc]

theorem encodedP_remove : EncodedP 0x23 fun a _ => .remove a :=
  encodedP_of_decodeOp (by decide) fun c (hc : opField c.word = 0x23) => by simp only [decodeOp, hc]

theorem encodedP_truncate : EncodedP 0x24 fun a _ => .truncate a :=
  encodedP_of_decodeOp (by decide) fun c (hc : opField c.word = 0x24) => by simp only [decodeOp, hc]

theorem encodedP_clear : EncodedP 0x26 fun _ _ => .clear :=
  encodedP_of_decodeOp (by decide) fun c (hc : opField c.word = 0x26) => by simp only [decodeOp, hc]

/-- An element is answered zero-extended (R62). -/
theorem answer_toNat (v : Val) (s : State) : answer v.toNat s = answered s (zextVal v) := by
  rw [answer_eq_answered, BitVec.ofNat_toNat, zextVal]

/-! ## POP (R130) -/

/-- What POP leaves of an array that is not empty: one element less over the same storage, and the last one answered. -/
def afterPop (s : State) : State :=
  answered { invalidateIter s with length := s.length - 1 } (zextVal (s.elem (s.length - 1)))

theorem execPop_of_empty (h0 : s.wReg ≠ 0) (hl : s.length = 0) :
    exec .pop s = .next (acked { s with iterValid := false }) :=
  (whenLive_of_live (s := invalidateIter s) h0 _).trans (if_pos hl)

/-- The last element lies below CAPACITY, so its words exist. -/
theorem execPop_of_ne (hi : ArrayInv s) (h0 : s.wReg ≠ 0) (hl : s.length ≠ 0) :
    exec .pop s = .next (afterPop s) := by
  have hlast : s.length - 1 < (invalidateIter s).capacity :=
    lt_of_lt_of_le (Nat.sub_one_lt hl) hi.lengthLe
  refine (whenLive_of_live (s := invalidateIter s) h0 _).trans ((if_neg hl).trans ?_)
  refine (withElem_of_lt hi.invalidateIter h0 hlast _).trans ?_
  exact congrArg _ (answer_toNat _ _)

/-! ## INSERT (R132) -/

/-- What INSERT leaves when it succeeds with `k` words: the elements from A on moved up, and the value's low W bits at
A. -/
def afterInsert (s : State) (k a : Nat) (b : Val) : State :=
  acknowledge { invalidateIter s with
    words := k, length := s.length + 1
    mem := elemWrite s.params s.w (shiftUp s.params s.w s.mem a (s.length - a)) a (lowBits s.w b) }

theorem execInsert_of_lt (h0 : s.wReg ≠ 0) (ha : s.length < a) (b : Val) :
    exec (.insert a b) s = .next (failed { s with iterValid := false } .indexOutOfRange 1) :=
  (whenLive_of_live (s := invalidateIter s) h0 _).trans (whenBelow_fails ha _)

/-- Past its index check INSERT conditions the value and makes room, like PUSH. -/
theorem execInsert_of_le (h0 : s.wReg ≠ 0) (ha : a ≤ s.length) (b : Val) :
    exec (.insert a b) s = orRaise (invalidateIter s) (condVal s.params s.w b) fun v =>
      orRaise (invalidateIter s) (roomForOne (invalidateIter s)) fun g =>
        withElem g g.length (.next (acknowledge { g with
          mem := elemWrite g.params g.w (shiftUp g.params g.w g.mem a (g.length - a)) a v
          length := g.length + 1 })) :=
  (whenLive_of_live (s := invalidateIter s) h0 _).trans (whenBelow_of_lt (Nat.lt_succ_of_le ha) _)

theorem execInsert_of_reject (h0 : s.wReg ≠ 0) (ha : a ≤ s.length) (hr : s.params.truncPolicy = .reject)
    (hb : 2 ^ s.w ≤ b.toNat) :
    exec (.insert a b) s = .next (failed { s with iterValid := false } .valueTooWide 7) :=
  (execInsert_of_le h0 ha b).trans (orRaise_condVal_fails (w_le s) hr hb _)

theorem execInsert_of_stuck (hi : ArrayInv s) (h0 : s.wReg ≠ 0) (ha : a ≤ s.length) (hb : accepts s.params s.w b)
    (hl : s.length = s.capacity) (hn : s.params.maxWords < wordsFor s.params s.w (s.length + 1)) :
    exec (.insert a b) s = .next (failed { s with iterValid := false } .allocFailed 3) := by
  rw [execInsert_of_le h0 ha, condVal_of_accepts (w_le s) hb, orRaise_ok,
    roomForOne_of_stuck hi.invalidateIter h0 hl hn, orRaise_error]
  exact raise_allocFailed _

/-- With room the highest element the loop writes, at index LENGTH, lies in allocated words. -/
theorem execInsert_of_room (hi : ArrayInv s) (h0 : s.wReg ≠ 0) (ha : a ≤ s.length) (hb : accepts s.params s.w b)
    {k : Nat} (hk : Room s k) : exec (.insert a b) s = .next (afterInsert s k a b) := by
  rw [execInsert_of_le h0 ha, condVal_of_accepts (w_le s) hb, orRaise_ok,
    roomForOne_of_room hi.invalidateIter h0 hk, orRaise_ok]
  obtain ⟨hl, hle, hm⟩ := room_sound hi h0 hk
  exact withElem_of_lt (hi.invalidateIter.grown h0 hle hm) h0 hl _

/-- The elements after INSERT: A as written, those above it moved up by one, those below it as before. -/
theorem elem_afterInsert (hi : ArrayInv s) (k : Nat) (ha : a ≤ s.length) (b : Val) (j : Nat) :
    (afterInsert s k a b).elem j =
      if j = a then lowBits s.w b else if a < j ∧ j ≤ s.length then s.elem (j - 1) else s.elem j := by
  refine (elemRead_elemWrite (w_le s) (wf_shiftUp hi.memWf _ _) (narrow_shiftUp hi.memWf hi.narrow _ _) a
    (lowBits_lt s.w b) j).trans ?_
  rw [elemRead_shiftUp (w_le s) hi.memWf hi.narrow, Nat.add_sub_cancel' ha]
  rfl

/-- INSERT writes no bit outside the elements from A to the new last one (R29, R47). -/
theorem globalBit_afterInsert (hi : ArrayInv s) (k : Nat) (ha : a ≤ s.length) (b : Val) {g : Nat}
    (hg : g < a * s.w ∨ (s.length + 1) * s.w ≤ g) : (afterInsert s k a b).globalBit g = s.globalBit g := by
  have hA : ¬ (a * s.w ≤ g ∧ g < a * s.w + s.w) := by
    have : (a + 1) * s.w ≤ (s.length + 1) * s.w := Nat.mul_le_mul_right _ (Nat.succ_le_succ ha)
    rw [Nat.succ_mul] at this
    omega
  refine (globalBit_elemWrite (w_le s) (wf_shiftUp hi.memWf _ _) a (lowBits_lt s.w b) g).trans ((if_neg hA).trans ?_)
  refine globalBit_shiftUp (w_le s) hi.memWf hi.narrow a (s.length - a) g ?_
  rwa [Nat.add_sub_cancel' ha]

/-! ## REMOVE (R131) -/

/-- What REMOVE leaves when it succeeds: the elements above A moved down, and element A of before answered. -/
def afterRemove (s : State) (a : Nat) : State :=
  answered { invalidateIter s with
    length := s.length - 1, mem := shiftDown s.params s.w s.mem a (s.length - 1 - a) } (zextVal (s.elem a))

theorem execRemove_of_le (h0 : s.wReg ≠ 0) (ha : s.length ≤ a) :
    exec (.remove a) s = .next (failed { s with iterValid := false } .indexOutOfRange 1) :=
  (whenLive_of_live (s := invalidateIter s) h0 _).trans (whenBelow_fails ha _)

/-- The last element, the highest the loop reads, lies below CAPACITY, so its words exist. -/
theorem execRemove_of_lt (hi : ArrayInv s) (h0 : s.wReg ≠ 0) (ha : a < s.length) :
    exec (.remove a) s = .next (afterRemove s a) := by
  have hlast : s.length - 1 < (invalidateIter s).capacity :=
    lt_of_lt_of_le (Nat.sub_one_lt_of_lt ha) hi.lengthLe
  refine (whenLive_of_live (s := invalidateIter s) h0 _).trans ((whenBelow_of_lt ha _).trans ?_)
  refine (withElem_of_lt hi.invalidateIter h0 hlast _).trans ?_
  exact congrArg _ (answer_toNat _ _)

/-- The elements after REMOVE: those from A to the one before the last are their upper neighbours, the others as
before. -/
theorem elem_afterRemove (hi : ArrayInv s) (ha : a < s.length) (j : Nat) :
    (afterRemove s a).elem j = if a ≤ j ∧ j < s.length - 1 then s.elem (j + 1) else s.elem j := by
  refine (elemRead_shiftDown (w_le s) hi.memWf hi.narrow a (s.length - 1 - a) j).trans ?_
  rw [Nat.add_sub_cancel' (Nat.le_sub_one_of_lt ha)]
  rfl

/-- REMOVE writes no bit outside the elements from A to the last one (R29, R47). -/
theorem globalBit_afterRemove (hi : ArrayInv s) (ha : a < s.length) {g : Nat}
    (hg : g < a * s.w ∨ s.length * s.w ≤ g) : (afterRemove s a).globalBit g = s.globalBit g := by
  have hle : (s.length - 1) * s.w ≤ s.length * s.w := Nat.mul_le_mul_right _ (Nat.sub_le _ _)
  refine globalBit_shiftDown (w_le s) hi.memWf hi.narrow a (s.length - 1 - a) g ?_
  rw [Nat.add_sub_cancel' (Nat.le_sub_one_of_lt ha)]
  exact hg.imp_right hle.trans

/-! ## The pairs of commands that undo each other (R135) -/

theorem elem_of_getElem?_elems {j : Nat} {v : Val} (h : s.elems[j]? = some v) : s.elem j = v := by
  rw [getElem?_elems] at h
  split_ifs at h
  exact Option.some.inj h

/-- A command that answers the element holding a value's low W bits, and whose list operation gives back the elements
of `s`, restores LENGTH and every element. -/
theorem restores_of_answered {i : Instr} {j w : Nat} {u : State} (hi : ArrayInv t)
    (h : exec i t = .next (answered u (zextVal (t.elem j)))) (hj : t.elems[j]? = some (lowBits w b))
    (hl : listEffect t.w i t.elems = s.elems) :
    ∃ u r, exec i t = .next u ∧ u.rsp = some ⟨.ok, true, r, 0⟩ ∧ r.toNat = b.toNat % 2 ^ w ∧
      u.length = s.length ∧ u.elems = s.elems := by
  have helems : (answered u (zextVal (t.elem j))).elems = s.elems :=
    (commandsActAsListOperations i t _ _ hi h rfl rfl).trans hl
  refine ⟨_, _, h, rfl, ?_, ?_, helems⟩
  · rw [zextVal_toNat, elem_of_getElem?_elems hj, lowBits_toNat]
  · rw [← length_elems, helems, length_elems]

/-- A command that answers OK has had its effect (`exec_of_status`). -/
theorem effect_of_acked {i : Instr} (h : exec i s = .next t) (hr : t.rsp = some ⟨.ok, false, 0, 0⟩) : Effect i s t := by
  rcases exec_of_status h hr with ⟨-, hE⟩ | ⟨hne, -⟩
  · exact hE
  · exact absurd rfl hne

end Sys2Proof.Machine

open Sys2Proof Sys2Proof.Machine

/-- Settles O42: the checks in order, then the last element zero-extended (`execPop_of_ne`), whose bits are the storage
stream's (`getLsbD_elem`). -/
theorem popReturnsLastElement : Obligations.PopReturnsLastElement := by
  refine ⟨encodedP_pop, fun s hi => ⟨fun h0 => whenLive_fails (s := invalidateIter s) h0 _,
    fun h0 hl => execPop_of_empty h0 hl, fun h0 hl => ⟨_, execPop_of_ne hi h0 hl, fun b => ?_⟩⟩⟩
  rw [getLsbD_zextVal, getLsbD_elem hi]

/-- Settles O43: the checks in order, the room check (`execInsert_of_stuck`, `execInsert_of_room`), then the loop of R132
and the write at A, element by element (`elem_afterInsert`) and on the bits outside (`globalBit_afterInsert`). -/
theorem insertShiftsUp : Obligations.InsertShiftsUp := by
  refine ⟨encodedP_insert, ?_⟩
  rintro s a b need hi rfl
  refine ⟨fun h0 => whenLive_fails (s := invalidateIter s) h0 _, fun h0 ha => execInsert_of_lt h0 ha b,
    fun h0 ha hr hb => execInsert_of_reject h0 ha hr hb,
    fun h0 ha hb hl hn => execInsert_of_stuck hi h0 ha hb hl hn, fun h0 ha hb hroom =>
    ⟨_, execInsert_of_room hi h0 ha hb (room_ite hroom), rfl, fun j hj => ?_, ?_, fun j haj hj => ?_,
      fun g hg => globalBit_afterInsert hi _ ha b hg⟩⟩
  · rw [elem_afterInsert hi _ ha, if_neg (by omega), if_neg (by omega)]
  · rw [elem_afterInsert hi _ ha, if_pos rfl, lowBits_toNat]
  · rw [elem_afterInsert hi _ ha, if_neg (by omega), if_pos (by omega), Nat.add_sub_cancel]

/-- Settles O44: the checks in order, then the loop of R131 (`execRemove_of_lt`), element by element
(`elem_afterRemove`) and on the bits outside (`globalBit_afterRemove`). -/
theorem removeShiftsDown : Obligations.RemoveShiftsDown := by
  refine ⟨encodedP_remove, fun s a hi => ⟨fun h0 => whenLive_fails (s := invalidateIter s) h0 _,
    fun h0 ha => execRemove_of_le h0 ha, fun h0 ha => ⟨_, _, execRemove_of_lt hi h0 ha, rfl, fun b => ?_,
      fun j hj => ?_, fun j haj hj => ?_, fun g hg => globalBit_afterRemove hi ha hg⟩⟩⟩
  · rw [getLsbD_zextVal, getLsbD_elem hi]
  · rw [elem_afterRemove hi ha, if_neg (by omega)]
  · rw [elem_afterRemove hi ha, if_pos (by omega)]

/-- Settles O53: PUSH has appended the value's low W bits (`elems_effect`), which POP answers and drops again
(`restores_of_answered`). -/
theorem pushThenPopRestores : Obligations.PushThenPopRestores := by
  intro s t b hi h hr
  have hE := effect_of_acked h hr
  have helems : t.elems = s.elems ++ [lowBits s.w b] := elems_effect hi hE
  obtain ⟨h0, -, k, -, rfl⟩ := hE
  refine restores_of_answered (hi.exec h) (execPop_of_ne (hi.exec h) h0 (Nat.succ_ne_zero _)) ?_ ?_
  · rw [helems]
    exact (congrArg _ (length_elems s).symm).trans List.getElem?_concat_length
  · rw [helems]
    exact List.dropLast_concat

/-- Settles O54: INSERT has put the value's low W bits at its index (`elems_effect`), which REMOVE answers and erases
again (`restores_of_answered`). -/
theorem insertThenRemoveRestores : Obligations.InsertThenRemoveRestores := by
  intro s t a b hi h hr
  have hE := effect_of_acked h hr
  have helems : t.elems = s.elems.insertIdx a (lowBits s.w b) := elems_effect hi hE
  obtain ⟨h0, ha, -, k, -, rfl⟩ := hE
  refine restores_of_answered (hi.exec h) (execRemove_of_lt (hi.exec h) h0 (Nat.lt_succ_of_le ha)) ?_ ?_
  · rw [helems, List.getElem?_insertIdx_self, length_elems, if_pos ha]
  · rw [helems]
    exact List.eraseIdx_insertIdx_self _

/-- Settles O45: TRUNCATE's one check, then the smaller length. -/
theorem truncateShortens : Obligations.TruncateShortens := by
  refine ⟨encodedP_truncate, fun s a => ⟨fun h0 => whenLive_fails (s := invalidateIter s) h0 _, fun h0 => ?_⟩⟩
  have hlen : (if a < s.length then a else s.length) = min a s.length := by split_ifs <;> omega
  rw [← hlen]
  exact whenLive_of_live (s := invalidateIter s) h0 _

/-- Settles O46: CLEAR's one check, then no element. -/
theorem clearEmptiesArray : Obligations.ClearEmptiesArray :=
  ⟨encodedP_clear, fun s => ⟨fun h0 => whenLive_fails (s := invalidateIter s) h0 _,
    fun h0 => whenLive_of_live (s := invalidateIter s) h0 _⟩⟩

end

section
/-! PROOFS. Iteration (R150, R151, R153): ITER_START and ITER_NEXT where their checks decide, and the state that
ITER_START and any number of ITER_NEXT leave. -/
namespace Sys2Proof.Machine

variable {s t : State} {i : Instr}

/-! ## The words of the iteration commands -/

theorem encodedP_iterStart : EncodedP 0x30 fun _ _ => .iterStart :=
  encodedP_of_decodeOp (by decide) fun c (hc : opField c.word = 0x30) => by simp only [decodeOp, hc]

theorem encodedP_iterNext : EncodedP 0x31 fun _ _ => .iterNext :=
  encodedP_of_decodeOp (by decide) fun c (hc : opField c.word = 0x31) => by simp only [decodeOp, hc]

/-! ## ITER_START (R150) and ITER_NEXT (R151) -/

theorem execIterStart_of_live (h0 : s.wReg ≠ 0) :
    exec .iterStart s = .next (acked { s with iterPos := 0, iterValid := true }) :=
  whenLive_of_live h0 _

theorem execIterNext_of_invalid (h0 : s.wReg ≠ 0) (hv : s.iterValid = false) :
    exec .iterNext s = .next (failed s .iterInvalidated 8) :=
  (whenLive_of_live h0 _).trans ((if_pos hv).trans (raise_eq_failed (by decide) s))

/-- Past its two checks ITER_NEXT compares the cursor with LENGTH. -/
theorem execIterNext_of_valid (h0 : s.wReg ≠ 0) (hv : s.iterValid = true) :
    exec .iterNext s = if s.length ≤ s.iterPos then .next (acked s) else
      withElem s s.iterPos (.next (answer (s.elem s.iterPos).toNat { s with iterPos := s.iterPos + 1 })) :=
  (whenLive_of_live h0 _).trans (if_neg (by simp [hv]))

theorem execIterNext_of_end (h0 : s.wReg ≠ 0) (hv : s.iterValid = true) (hp : s.length ≤ s.iterPos) :
    exec .iterNext s = .next (acked s) :=
  (execIterNext_of_valid h0 hv).trans (if_pos hp)

/-- Below LENGTH, and so below CAPACITY, the words of the element at the cursor exist. -/
theorem execIterNext_of_lt (hi : ArrayInv s) (h0 : s.wReg ≠ 0) (hv : s.iterValid = true)
    (hp : s.iterPos < s.length) :
    exec .iterNext s = .next (answered { s with iterPos := s.iterPos + 1 } (zextVal (s.elem s.iterPos))) := by
  rw [execIterNext_of_valid h0 hv, if_neg (Nat.not_le.2 hp), withElem_of_lt hi h0 (lt_of_lt_of_le hp hi.lengthLe),
    answer_toNat]

/-! ## Sequences of commands (R52) -/

theorem execAll_cons_of_next (h : exec i s = .next t) (is : List Instr) : execAll (i :: is) s = execAll is t := by
  rw [execAll, h]

/-- A command that takes each state of a sequence to the next one, repeated `k` times, goes on by `k`. -/
theorem execAll_replicate {f : Nat → State} (h : ∀ n, exec i (f n) = .next (f (n + 1))) (k n : Nat) :
    execAll (List.replicate k i) (f n) = .next (f (n + k)) := by
  induction k generalizing n with
  | zero => rfl
  | succ k ih => rw [List.replicate_succ, execAll_cons_of_next (h n), ih, Nat.add_right_comm, Nat.add_assoc]

/-! ## The whole iteration (R153) -/

/-- The response of ITER_START, for 0, and of the n-th ITER_NEXT after it: element n − 1, or no value past the end. -/
def iterResponse (s : State) : Nat → Response
  | 0 => ⟨.ok, false, 0, 0⟩
  | n + 1 => if n < s.length then ⟨.ok, true, zextVal (s.elem n), 0⟩ else ⟨.ok, false, 0, 0⟩

/-- What ITER_START and `n` ITER_NEXT leave: the cursor at index `n`, or at LENGTH once the end is reached. -/
def iterated (s : State) (n : Nat) : State :=
  { s with iterPos := min n s.length, iterValid := true, rsp := some (iterResponse s n) }

theorem ArrayInv.iterated (hi : ArrayInv s) (n : Nat) : ArrayInv (iterated s n) :=
  { hi with
    iterPosLe := le_trans (min_le_right _ _) hi.lengthLe
    iterLe := fun _ => min_le_right _ _ }

theorem iterated_zero (s : State) : iterated s 0 = acked { s with iterPos := 0, iterValid := true } := by
  rw [iterated, Nat.zero_min]
  rfl

theorem iterated_succ_of_lt {n : Nat} (hn : n < s.length) : iterated s (n + 1) =
    answered { s with iterPos := n + 1, iterValid := true } (zextVal (s.elem n)) := by
  rw [iterated, iterResponse, if_pos hn, Nat.min_eq_left hn]
  rfl

theorem iterated_succ_of_le {n : Nat} (hn : s.length ≤ n) : iterated s (n + 1) =
    acked { s with iterPos := s.length, iterValid := true } := by
  rw [iterated, iterResponse, if_neg (Nat.not_lt.2 hn), Nat.min_eq_right (Nat.le_succ_of_le hn)]
  rfl

/-- One more ITER_NEXT: below LENGTH it yields the element at the cursor, at LENGTH the cursor stays. -/
theorem execIterNext_iterated (hi : ArrayInv s) (h0 : s.wReg ≠ 0) (n : Nat) :
    exec .iterNext (iterated s n) = .next (iterated s (n + 1)) := by
  rcases Nat.lt_or_ge n s.length with hn | hn
  · have hpos : (iterated s n).iterPos = n := Nat.min_eq_left (Nat.le_of_lt hn)
    have hlt : (iterated s n).iterPos < (iterated s n).length := hpos.trans_lt hn
    rw [execIterNext_of_lt (hi.iterated n) h0 rfl hlt, hpos, iterated_succ_of_lt hn]
    rfl
  · have hpos : min n s.length = s.length := Nat.min_eq_right hn
    rw [execIterNext_of_end (s := iterated s n) h0 rfl hpos.ge, iterated_succ_of_le hn, iterated, hpos]
    rfl

/-- R153: ITER_START restarts the cursor, and each ITER_NEXT moves it on (`execIterNext_iterated`). -/
theorem execAll_iteration (hi : ArrayInv s) (h0 : s.wReg ≠ 0) (n : Nat) :
    execAll (.iterStart :: List.replicate n .iterNext) s = .next (iterated s n) := by
  rw [execAll_cons_of_next (execIterStart_of_live h0), ← iterated_zero,
    execAll_replicate (execIterNext_iterated hi h0), Nat.zero_add]

end Sys2Proof.Machine

open Sys2Proof Sys2Proof.Machine

/-- Settles O48: the checks in order, then the element at the cursor zero-extended (`execIterNext_of_lt`), whose bits
are the storage stream's (`getLsbD_elem`). -/
theorem iterNextYieldsOrEnds : Obligations.IterNextYieldsOrEnds := by
  refine ⟨encodedP_iterNext, fun s hi => ⟨fun h0 => whenLive_fails h0 _, fun h0 hv => execIterNext_of_invalid h0 hv,
    fun h0 hv hp => execIterNext_of_end h0 hv hp, fun h0 hv hp => ⟨_, execIterNext_of_lt hi h0 hv hp, fun b => ?_⟩⟩⟩
  rw [getLsbD_zextVal, getLsbD_elem hi]

/-- Settles O57: the whole sequence ends in `iterated` (`execAll_iteration`), which has answered element k after k + 1
ITER_NEXT, and no value once there are more than LENGTH. -/
theorem iterationYieldsEveryElement : Obligations.IterationYieldsEveryElement := by
  refine fun s hi h0 => ⟨fun k hk => ⟨zextVal (s.elem k), ?_, zextVal_toNat _⟩, fun k hk => ?_⟩
  · rw [execAll_iteration hi h0, iterated_succ_of_lt hk]
  · obtain ⟨n, rfl⟩ := Nat.exists_eq_succ_of_ne_zero (Nat.ne_zero_of_lt hk)
    rw [execAll_iteration hi h0, iterated_succ_of_le (Nat.le_of_lt_succ hk)]

/-- Settles O47: ITER_START's one check, then the cursor restarted (`execIterStart_of_live`). -/
theorem iterStartRestartsCursor : Obligations.IterStartRestartsCursor :=
  ⟨encodedP_iterStart, fun _ => ⟨fun h0 => whenLive_fails h0 _, execIterStart_of_live⟩⟩

end

section
/-! PROOFS. The raw words (R160, R161) and the system commands (R162, R163): the occupied words as a count that fits
the response, what RAW_READ answers bit by bit, and the two commands that always answer. -/
namespace Sys2Proof.Machine

variable {s : State}

/-! ## The words of the raw and system commands -/

theorem encodedP_rawLen : EncodedP 0x41 fun _ _ => .rawLen :=
  encodedP_of_decodeOp (by decide) fun c (hc : opField c.word = 0x41) => by simp only [decodeOp, hc]

theorem encodedP_rawRead : EncodedP 0x42 fun a _ => .rawRead a :=
  encodedP_of_decodeOp (by decide) fun c (hc : opField c.word = 0x42) => by simp only [decodeOp, hc]

theorem encodedP_status : EncodedP 0x50 fun _ _ => .status :=
  encodedP_of_decodeOp (by decide) fun c (hc : opField c.word = 0x50) => by simp only [decodeOp, hc]

theorem encodedP_nop : EncodedP 0x00 fun _ _ => .nop :=
  encodedP_of_decodeOp (by decide) fun c (hc : opField c.word = 0x00) => by simp only [decodeOp, hc]

/-! ## The occupied words (R33, R160) -/

theorem occWords_eq (s : State) :
    s.occWords = (s.length * s.w + s.params.wordBits - 1) / s.params.wordBits := rfl

theorem occWords_le_maxWords (hi : ArrayInv s) : s.occWords ≤ s.params.maxWords :=
  (occWords_le_words hi).trans hi.wordsLe

/-- The RAM has fewer words than there are indexes (R9), so the count fits the 64-bit response value. -/
theorem occWords_lt_two_pow_64 (hi : ArrayInv s) : s.occWords < 2 ^ 64 := by
  obtain ⟨-, hbits, hidx⟩ := params_bounds hi.params
  calc s.occWords ≤ s.params.maxWords := occWords_le_maxWords hi
    _ ≤ s.params.maxWords * s.params.wordBits := Nat.le_mul_of_pos_right _ (wordBits_pos _)
    _ < 2 ^ s.params.idxBits := hbits
    _ ≤ 2 ^ 64 := Nat.pow_le_pow_right (by omega) hidx

/-! ## RAW_READ (R161) -/

/-- The value RAW_READ answers: the defined bits of word `a`, and drawn bits in the place of the others. -/
def rawValue (s : State) (a : Nat) : Word :=
  (s.mem.read a &&& definedMask s.params (definedBits s a)) |||
    (drawWord s.params s.draws &&& ~~~definedMask s.params (definedBits s a))

theorem execRawRead_of_le (h0 : s.wReg ≠ 0) {a : Nat} (ha : s.occWords ≤ a) :
    exec (.rawRead a) s = .next (failed s .indexOutOfRange 1) :=
  (whenLive_of_live h0 _).trans (whenBelow_fails ha _)

/-- An occupied word is one of the RAM's, so RAW_READ answers. -/
theorem execRawRead_of_lt (hi : ArrayInv s) (h0 : s.wReg ≠ 0) {a : Nat} (ha : a < s.occWords) :
    exec (.rawRead a) s = .next (answered { s with draws := s.draws + 1 } (rawValue s a)) :=
  (whenLive_of_live h0 _).trans
    ((whenBelow_of_lt ha _).trans (withWord_of_lt (ha.trans_le (occWords_le_maxWords hi)) _))

/-- Bit `b` of word `a` is defined where it lies in the word and below global bit `LENGTH·W`. -/
theorem lt_definedBits_iff (s : State) (a b : Nat) : b < definedBits s a ↔
    b < s.params.wordBits ∧ a * s.params.wordBits + b < s.length * s.w := by
  rw [definedBits, lt_min_iff, Nat.lt_sub_iff_add_lt']

/-- The value bit by bit: the word's own bit where it is defined, else the draw's. -/
theorem getLsbD_rawValue (s : State) (a b : Nat) : (rawValue s a).getLsbD b =
    if b < definedBits s a then (s.mem.read a).getLsbD b else (drawWord s.params s.draws).getLsbD b := by
  have hmask := getLsbD_definedMask (p := s.params) (d := definedBits s a) (min_le_left _ _) b
  rw [rawValue, BitVec.getLsbD_or, BitVec.getLsbD_and, BitVec.getLsbD_and, BitVec.getLsbD_not, hmask]
  split_ifs with hd
  · simp [hd]
  · simpa [hd] using BitVec.lt_of_getLsbD

/-- A draw is cut to a storage word (R14). -/
theorem getLsbD_drawWord_of_le {p : Params} (n : Nat) {b : Nat} (hb : p.wordBits ≤ b) :
    (drawWord p n).getLsbD b = false := by
  rw [drawWord, BitVec.getLsbD_and, getLsbD_wordMask, decide_eq_false (Nat.not_lt.2 hb), Bool.and_false]

/-- A defined bit is the storage stream's (R41). -/
theorem getLsbD_rawValue_of_defined {a b : Nat} (hb : b < s.params.wordBits)
    (hg : a * s.params.wordBits + b < s.length * s.w) :
    (rawValue s a).getLsbD b = s.globalBit (a * s.params.wordBits + b) := by
  rw [getLsbD_rawValue, if_pos ((lt_definedBits_iff s a b).2 ⟨hb, hg⟩)]
  exact (globalBit_word hb a).symm

/-- The value has `WORD_BITS` bits: from there on no bit is defined, and the draw has none. -/
theorem getLsbD_rawValue_of_le {b : Nat} (hb : s.params.wordBits ≤ b) (a : Nat) :
    (rawValue s a).getLsbD b = false := by
  have hundef : ¬ b < definedBits s a := fun h => Nat.not_lt.2 hb ((lt_definedBits_iff s a b).1 h).1
  rw [getLsbD_rawValue, if_neg hundef, getLsbD_drawWord_of_le _ hb]

end Sys2Proof.Machine

open Sys2Proof Sys2Proof.Machine

/-- Settles O50: the one check, then OCC_WORDS, which fits the response value (`occWords_lt_two_pow_64`). -/
theorem rawLenCountsOccupiedWords : Obligations.RawLenCountsOccupiedWords :=
  ⟨encodedP_rawLen, fun _ hi => ⟨fun h0 => whenLive_fails h0 _, fun h0 =>
    whenLive_answers h0 (occWords_lt_two_pow_64 hi)⟩⟩

/-- Settles O51: the checks in order, then the word's defined bits and a draw (`execRawRead_of_lt`), bit by bit
`getLsbD_rawValue_of_defined` and `getLsbD_rawValue_of_le`. -/
theorem rawReadReturnsDefinedBits : Obligations.RawReadReturnsDefinedBits := by
  refine ⟨encodedP_rawRead, fun s a occ hi hocc => ?_⟩
  rw [← occWords_eq] at hocc
  subst hocc
  exact ⟨fun h0 => whenLive_fails h0 _, fun h0 ha => execRawRead_of_le h0 ha, fun h0 ha =>
    ⟨rawValue s a, execRawRead_of_lt hi h0 ha, fun _ =>
      ⟨getLsbD_rawValue_of_defined, fun hb => getLsbD_rawValue_of_le hb a⟩⟩⟩

/-- Settles O52: neither command has a check; the 16 flags fit the response value. -/
theorem statusAndNopAlwaysAnswer : Obligations.StatusAndNopAlwaysAnswer := by
  refine ⟨encodedP_status, encodedP_nop, fun s => ⟨⟨BitVec.ofNat 64 s.errFlags.toNat, rfl, ?_⟩, rfl⟩⟩
  have hflags : s.errFlags.toNat < 2 ^ 64 := s.errFlags.isLt.trans (by decide)
  rw [BitVec.toNat_ofNat, Nat.mod_eq_of_lt hflags]

end

section
/-! PROOFS. The errors (R171 to R175): what a command that fails leaves, the bit of ERR_FLAGS its status sets, and which
commands the two lifecycle statuses answer. -/
namespace Sys2Proof.Machine

variable {s t : State} {i : Instr}

/-! ## The outcome of a failing command (R171 to R173) -/

/-- A command that answers an error has failed with that status in the state its checks leave (R173). -/
theorem eq_failed_of_error (h : exec i s = .next t) {r : Response} (hr : t.rsp = some r) (hne : r.status ≠ .ok) :
    t = failed (entered i s) r.status r.status.code.toNat := by
  rcases exec_of_status h hr with ⟨hok, -⟩ | ⟨-, e, he, rfl⟩
  · exact absurd hok hne
  · rw [failWith_rsp] at hr
    obtain rfl := Option.some.inj hr
    exact failWith_eq_failed _ he

/-- A command that answers OK leaves ERR_FLAGS (R172). -/
theorem errFlags_of_ok (h : exec i s = .next t) {r : Response} (hr : t.rsp = some r) (hok : r.status = .ok) :
    t.errFlags = s.errFlags := by
  rcases exec_of_status h hr with ⟨-, hE⟩ | ⟨hne, -⟩
  · obtain ⟨-, -, -, -, -, -, hflags, -⟩ := effect_frame hE
    exact hflags
  · exact absurd hok hne

/-! ## The commands the lifecycle makes illegal (R175) -/

theorem whenLive_fails_mutating (hm : mutating i = true) (h0 : s.wReg = 0) (k : Result) :
    whenLive (invalidateIter s) k = .next (failed (entered i s) .notConstructed 4) := by
  rw [entered_of_mutating s hm]
  exact whenLive_fails (s := invalidateIter s) h0 k

theorem whenLive_fails_reading (hm : mutating i = false) (h0 : s.wReg = 0) (k : Result) :
    whenLive s k = .next (failed (entered i s) .notConstructed 4) := by
  rw [entered_of_not_mutating s hm]
  exact whenLive_fails h0 k

/-- When not live every command but NOP, STATUS and the constructors answers NOT_CONSTRUCTED. -/
theorem exec_of_dead (h0 : s.wReg = 0) (ha : always i = false) (hc : isConstructor i = false) :
    exec i s = .next (failed (entered i s) .notConstructed 4) := by
  cases i
  case nop | status => cases ha
  case new | withCapacity | newFilled => cases hc
  case drop | set | push | pop | insert | remove | truncate | reserve | clear =>
    exact whenLive_fails_mutating rfl h0 _
  case get | len | capacity | isEmpty | width | iterStart | iterNext | decode | rawLen | rawRead =>
    exact whenLive_fails_reading rfl h0 _

/-- When live the constructors answer ALREADY_CONSTRUCTED. -/
theorem exec_constructor_of_live (h0 : s.wReg ≠ 0) (hc : isConstructor i = true) :
    exec i s = .next (failed (entered i s) .alreadyConstructed 5) := by
  cases i
  case new | withCapacity | newFilled =>
    rw [entered_of_mutating s rfl]
    exact whenConstructible_fails_of_live (s := invalidateIter s) h0 _ _
  all_goals cases hc

/-! ## The commands it makes legal (R175) -/

/-- A status other than the two of the lifecycle checks. -/
abbrev OtherStatus (e : Status) : Prop := e ≠ .notConstructed ∧ e ≠ .alreadyConstructed

/-- Whatever the meaning answers, it is neither status of the lifecycle checks. -/
def AnswersLegally (k : Result) : Prop :=
  ∀ (t : State) (r : Response), k = .next t → t.rsp = some r → OtherStatus r.status

theorem legally_respond {e : Status} (he : OtherStatus e) (sm : Bool) (a : Word) (b : BitVec 8) (s : State) :
    AnswersLegally (.next (respond e sm a b s)) := by
  intro t r ht hr
  obtain rfl := next_inj ht
  rw [respond_rsp] at hr
  rwa [← Option.some.inj hr]

theorem legally_ok (sm : Bool) (a : Word) (b : BitVec 8) (s : State) :
    AnswersLegally (.next (respond .ok sm a b s)) := legally_respond (by decide) sm a b s

theorem legally_raise {e : Status} (he : OtherStatus e) (s : State) : AnswersLegally (raise e s) :=
  legally_respond he false 0 0 (recordErr e s)

theorem legally_ite {c : Prop} [Decidable c] {k l : Result} (hk : AnswersLegally k) (hl : AnswersLegally l) :
    AnswersLegally (if c then k else l) := by
  split_ifs
  · exact hk
  · exact hl

theorem legally_whenLive (h0 : s.wReg ≠ 0) {k : Result} (hk : AnswersLegally k) : AnswersLegally (whenLive s k) := by
  rwa [whenLive_of_live h0]

theorem legally_whenConstructible (h0 : s.wReg = 0) {wf : Width} {k : Result} (hk : AnswersLegally k) :
    AnswersLegally (whenConstructible s wf k) := by
  rw [whenConstructible, if_neg (not_not.2 h0)]
  exact legally_ite (legally_raise (by decide) s) hk

theorem legally_whenBelow {a bound : Nat} {k : Result} (hk : AnswersLegally k) :
    AnswersLegally (whenBelow s a bound k) := legally_ite (legally_raise (by decide) s) hk

theorem legally_withWord {j : Nat} {k : Result} (hk : AnswersLegally k) : AnswersLegally (withWord s j k) :=
  fun t r ht hr => hk t r (withWord_next ht) hr

theorem legally_orRaise {α : Type} {c : Except Status α} {k : α → Result} (hc : ∀ e, c = .error e → OtherStatus e)
    (hk : ∀ v, AnswersLegally (k v)) : AnswersLegally (orRaise s c k) := by
  cases c with
  | error e => exact legally_raise (hc e rfl) s
  | ok v => exact hk v

/-- `Cond` fails with VALUE_TOO_WIDE, neither of the two (R92). -/
theorem condVal_otherStatus (p : Params) (w : Nat) (v : Val) (e : Status) (h : condVal p w v = .error e) :
    OtherStatus e := by
  unfold condVal at h
  split_ifs at h
  cases h
  decide

/-- `CheckCap` fails with CAPACITY_OVERFLOW, neither of the two (R112). -/
theorem checkCap_otherStatus (p : Params) (n : Nat) (e : Status) (h : checkCap p n = .error e) : OtherStatus e := by
  unfold checkCap at h
  split_ifs at h
  cases h
  decide

/-- `Grow` fails with ALLOC_FAILED, neither of the two (R110). -/
theorem grow_otherStatus (s : State) (n : Nat) (e : Status) (h : grow s n = .error e) : OtherStatus e := by
  by_cases hn : wordsFor s.params s.w n ≤ s.params.maxWords
  · rw [grow_of_le hn] at h
    cases h
  · rw [grow_of_lt (Nat.lt_of_not_le hn)] at h
    cases h
    decide

/-- The room check of PUSH and INSERT fails as `CheckCap` or `Grow` does (R112). -/
theorem roomForOne_otherStatus (s : State) (e : Status) (h : roomForOne s = .error e) : OtherStatus e := by
  unfold roomForOne checkedGrow at h
  split_ifs at h
  split at h
  next e' he' =>
    cases h
    exact checkCap_otherStatus _ _ _ he'
  next => exact grow_otherStatus s _ e h

/-- NOP and STATUS are legal in every state. -/
theorem exec_always_legally (s : State) (ha : always i = true) : AnswersLegally (exec i s) := by
  cases i
  case nop | status => exact legally_ok _ _ _ s
  all_goals cases ha

/-- When not live the constructors are legal. -/
theorem exec_constructor_legally (h0 : s.wReg = 0) (hc : isConstructor i = true) : AnswersLegally (exec i s) := by
  have hd : (invalidateIter s).wReg = 0 := h0
  cases i
  case new => exact legally_whenConstructible hd (legally_ok _ _ _ _)
  case withCapacity =>
    exact legally_whenConstructible hd (legally_ite (legally_raise (by decide) _) (legally_ok _ _ _ _))
  case newFilled =>
    exact legally_whenConstructible hd (legally_orRaise (condVal_otherStatus _ _ _) fun _ =>
      legally_ite (legally_raise (by decide) _) (legally_ok _ _ _ _))
  all_goals cases hc

/-- When live every command but the constructors is legal. -/
theorem exec_legally_of_live (h0 : s.wReg ≠ 0) (hc : isConstructor i = false) : AnswersLegally (exec i s) := by
  have hl : (invalidateIter s).wReg ≠ 0 := h0
  cases i
  case nop | status => exact exec_always_legally s rfl
  case new | withCapacity | newFilled => cases hc
  case len | capacity | isEmpty | width | iterStart | decode | rawLen =>
    exact legally_whenLive h0 (legally_ok _ _ _ _)
  case drop | truncate | clear => exact legally_whenLive hl (legally_ok _ _ _ _)
  case get | rawRead => exact legally_whenLive h0 (legally_whenBelow (legally_withWord (legally_ok _ _ _ _)))
  case remove => exact legally_whenLive hl (legally_whenBelow (legally_withWord (legally_ok _ _ _ _)))
  case set =>
    exact legally_whenLive hl (legally_whenBelow (legally_orRaise (condVal_otherStatus _ _ _) fun _ =>
      legally_withWord (legally_ok _ _ _ _)))
  case push =>
    exact legally_whenLive hl (legally_orRaise (condVal_otherStatus _ _ _) fun _ =>
      legally_orRaise (roomForOne_otherStatus _) fun _ => legally_withWord (legally_ok _ _ _ _))
  case insert =>
    exact legally_whenLive hl (legally_whenBelow (legally_orRaise (condVal_otherStatus _ _ _) fun _ =>
      legally_orRaise (roomForOne_otherStatus _) fun _ => legally_withWord (legally_ok _ _ _ _)))
  case pop => exact legally_whenLive hl (legally_ite (legally_ok _ _ _ _) (legally_withWord (legally_ok _ _ _ _)))
  case reserve =>
    exact legally_whenLive hl (legally_orRaise (checkCap_otherStatus _ _) fun _ =>
      legally_ite (legally_orRaise (grow_otherStatus _ _) fun _ => legally_ok _ _ _ _) (legally_ok _ _ _ _))
  case iterNext =>
    exact legally_whenLive h0 (legally_ite (legally_raise (by decide) _)
      (legally_ite (legally_ok _ _ _ _) (legally_withWord (legally_ok _ _ _ _))))

end Sys2Proof.Machine

open Sys2Proof Sys2Proof.Machine

/-- Settles O17: a command that answers an error has only failed, in the state its checks leave
(`eq_failed_of_error`). -/
theorem failedCommandWritesNothing : Obligations.FailedCommandWritesNothing :=
  fun _ _ _ _ h hr hne => eq_failed_of_error h hr hne

/-- Settles O18: an answer OK leaves ERR_FLAGS (`errFlags_of_ok`), and an error sets the bit its code numbers
(`eq_failed_of_error`). -/
theorem errFlagsRecordTheStatus : Obligations.ErrFlagsRecordTheStatus := by
  intro i s t r h hr
  by_cases hok : r.status = .ok
  · rw [if_pos hok, errFlags_of_ok h hr hok]
    exact BitVec.or_zero.symm
  · rw [if_neg hok]
    exact congrArg State.errFlags (eq_failed_of_error h hr hok)

/-- Settles O25: an illegal command fails at its lifecycle check (`exec_of_dead`, `exec_constructor_of_live`), and past
that check no meaning raises one of the two statuses. -/
theorem lifecycleDecidesLegality : Obligations.LifecycleDecidesLegality := by
  refine fun i s => ⟨exec_of_dead, exec_constructor_of_live, ?_⟩
  rintro (⟨h0, ha | hc⟩ | ⟨h0, hc⟩)
  · exact exec_always_legally s ha
  · exact exec_constructor_legally h0 hc
  · exact exec_legally_of_live h0 hc

end

section
/-! PROOFS. The command placed by the model's own interface (assumption 15): the edge that follows runs it. -/
namespace Sys2Proof.Machine

/-- The edge after `placeCommand` brings no reset and finds no response and no latency left, so the command runs there
(`step_of_due`), with ITER_VALID as good as untouched by its acceptance (`runCommand_startCommand`). -/
theorem step_placeCommand (c : Command) (s : State) :
    step (placeCommand c s) = runCommand c { s with busy := true, rsp := none, pending := none } := by
  have hrst : (placeCommand c s).nowPins.rst = false := rfl
  have hrsp : (placeCommand c s).rsp = none := rfl
  have hdue : (placeCommand c s).pending = some ⟨c, 0⟩ := rfl
  exact (step_of_due hrst hrsp hdue).trans (runCommand_startCommand c 0 { s with rsp := none })

end Sys2Proof.Machine

open Sys2Proof Sys2Proof.Machine

/-- Settles O6: the step after the word is placed runs its command (`step_placeCommand`), by what it decodes to. -/
theorem placedWordRunsNext : Obligations.PlacedWordRunsNext :=
  fun s _ _ _ hd => (step_placeCommand _ s).trans (runCommand_of_decode hd _)

end
